-- ==== Sys2Proof/Word.lean ====
section
/-!
DEFINITION. The word types of the hardware: the byte every storage cell, data register and trace holds
(00_scope.md R7), and the widths of the command words (30_encoding.md R66 to R69).
-/

namespace Sys2Proof

/-- The element type of every ring buffer, of the UART data registers and of the traces (R7). -/
abbrev Byte := BitVec 8

/-- A command word of format F or U (R66, R67). -/
abbrev Word16 := BitVec 16

/-- A command word of format L (R68). -/
abbrev Word48 := BitVec 48

/-- A step code of format S (R69). -/
abbrev StepCode := BitVec 2

end Sys2Proof
end

