-- ==== Sys2Proof/Syntax.lean ====
section
/-!
DEFINITION. The instructions as data: the ring-buffer instances (R4), the line-encoding request (R27, R73), the
sixteen operations of spec/opcode_table.json as the one inductive `Instr`, the four formats (R65) and a word
together with the place it is presented at.
-/

namespace Sys2Proof

/-- The three ring-buffer instances, by their number in R4: 0 Rx-from-UART, 1 Rx-from-USB, 2 Tx-to-USB. -/
inductive Inst where
  | f0
  | f1
  | f2
  deriving DecidableEq, Repr

/-- The parity of a request: the three legal values of R27, and code 3, "not a parity", which R68 keeps representable
so that R108 has something to reject. -/
inductive Parity where
  | noParity
  | odd
  | even
  | inv3
  deriving DecidableEq, Repr

/-- The stop bits of a request (R27); both are legal. -/
inductive StopBits where
  | one
  | two
  deriving DecidableEq, Repr

/-- A line-encoding record: the type of `le`, of `le_req` and of a RECONFIG request (R27, R73). -/
structure LineReq where
  baud   : BitVec 32
  parity : Parity
  stop   : StopBits
  data   : BitVec 4
  deriving DecidableEq, Repr

/-- One constructor per row of spec/opcode_table.json. A format F operation keeps its two-bit instance select `ff`
(R66, R71), whose value 3 names no instance. -/
inductive Instr where
  /-- INIT f (R82). -/
  | init (ff : BitVec 2)
  /-- INSERT f, b (R83). -/
  | insert (ff : BitVec 2) (b : Byte)
  /-- REMOVE f (R84). -/
  | remove (ff : BitVec 2)
  /-- PEEK f (R85). -/
  | peek (ff : BitVec 2)
  /-- IS_FULL f (R86). -/
  | isFull (ff : BitVec 2)
  /-- IS_EMPTY f (R87). -/
  | isEmpty (ff : BitVec 2)
  /-- COUNT f (R88). -/
  | count (ff : BitVec 2)
  /-- FLUSH f (R89). -/
  | flush (ff : BitVec 2)
  /-- RECONFIG baud, parity, stop, data (R107). -/
  | reconfig (req : LineReq)
  /-- UART_SEND_READY (R99). -/
  | uartSendReady
  /-- UART_SEND b (R100). -/
  | uartSend (b : Byte)
  /-- UART_RX_READ (R101). -/
  | uartRxRead
  /-- BR_USB_RX, step 1 of the sequencer (R130). -/
  | brUsbRx
  /-- BR_USB_TX, step 2 (R131). -/
  | brUsbTx
  /-- BR_UART_TX, step 3 (R132). -/
  | brUartTx
  /-- BR_SERVICE, step 4 (R133). -/
  | brService
  deriving DecidableEq, Repr

/-- The four formats of a command word (R65). -/
inductive Format where
  | F
  | U
  | L
  | S
  deriving DecidableEq, Repr

/-- A word together with the place it is presented at, which alone decides its format (R65): a FIFO port, the UART
shim, the reconfiguration engine, or the sequencer's own step code. -/
inductive Presented where
  | fifoPort (w : Word16)
  | uartShim (w : Word16)
  | engine (w : Word48)
  | stepCode (c : StepCode)
  deriving DecidableEq, Repr

/-- The format the place decides (R65). -/
def Presented.format : Presented → Format
  | .fifoPort _ => .F
  | .uartShim _ => .U
  | .engine _ => .L
  | .stepCode _ => .S

/-- The bits presented, as an unsigned number. -/
def Presented.bits : Presented → Nat
  | .fifoPort w => w.toNat
  | .uartShim w => w.toNat
  | .engine w => w.toNat
  | .stepCode c => c.toNat

/-- A command a client presents at one of the three ports. A step code is no command: format S is the sequencer's own
(R65, R69). -/
inductive Command where
  | fifo (w : Word16)
  | uart (w : Word16)
  | engine (w : Word48)
  deriving DecidableEq, Repr

/-- Where a command's word is presented. -/
def Command.presented : Command → Presented
  | .fifo w => .fifoPort w
  | .uart w => .uartShim w
  | .engine w => .engine w

end Sys2Proof
end

