-- ==== Sys2Proof/WellFormed.lean ====
section
/-!
DEFINITION. Which terms of `Instr` are operations of the hardware. The one check is the instance select of format F:
the value 3 names no instance (R71). Every value of every other field is legal as an encoding: R73 keeps the values
R108 rejects representable "on purpose".
-/

namespace Sys2Proof

/-- The instance select names one of the three instances (R71). -/
def wellFormedSelect (ff : BitVec 2) : Bool := ff != 3#2

/-- The instruction is one the decoder can give (R71, R75). -/
def Instr.WellFormed : Instr → Bool
  | .init ff => wellFormedSelect ff
  | .insert ff _ => wellFormedSelect ff
  | .remove ff => wellFormedSelect ff
  | .peek ff => wellFormedSelect ff
  | .isFull ff => wellFormedSelect ff
  | .isEmpty ff => wellFormedSelect ff
  | .count ff => wellFormedSelect ff
  | .flush ff => wellFormedSelect ff
  | .reconfig _ => true
  | .uartSendReady => true
  | .uartSend _ => true
  | .uartRxRead => true
  | .brUsbRx => true
  | .brUsbTx => true
  | .brUartTx => true
  | .brService => true

end Sys2Proof
end

