-- ==== Sys2Proof/Decode.lean ====
section
/-!
DEFINITION. The decoder (30_encoding.md R65 to R75), total on every word at every place and refusing by name, and after
it the encoder, written from the same tables.
-/

namespace Sys2Proof

/-- Why a word is illegal (R75); whichever it is, presenting the word raises ILLEGAL_CMD. -/
inductive Reject where
  /-- The `op` is not one of the format's operations. -/
  | unknownOp
  /-- `ff = 3` names no instance. -/
  | noSuchInstance
  /-- A reserved bit is 1. -/
  | reservedBit
  /-- The `d` field of an operation without a byte operand is not 0. -/
  | strayOperand
  deriving DecidableEq, Repr

/-! ## The fields of the formats (R66 to R68, R71 to R73) -/

/-- `op`, bits 15:12 of formats F and U. -/
def opField (w : Word16) : BitVec 4 := w.extractLsb' 12 4

/-- `ff`, bits 11:10 of format F. -/
def ffField (w : Word16) : BitVec 2 := w.extractLsb' 10 2

/-- The reserved bits 9:8 of format F. -/
def reservedF (w : Word16) : BitVec 2 := w.extractLsb' 8 2

/-- The reserved bits 11:8 of format U. -/
def reservedU (w : Word16) : BitVec 4 := w.extractLsb' 8 4

/-- `d`, bits 7:0 of formats F and U: the byte operand, used as it is (R72). -/
def dField (w : Word16) : Byte := w.extractLsb' 0 8

/-- The parity code of format L (R73). -/
def parityOfCode (c : BitVec 2) : Parity :=
  if c = 0#2 then .noParity else if c = 1#2 then .odd else if c = 2#2 then .even else .inv3

/-- The stop-bit code of format L (R73). -/
def stopOfCode (c : BitVec 1) : StopBits :=
  if c = 0#1 then .one else .two

/-- The code of a parity (R68). -/
def Parity.code : Parity → BitVec 2
  | .noParity => 0#2
  | .odd => 1#2
  | .even => 2#2
  | .inv3 => 3#2

/-- The code of a stop-bit count (R68). -/
def StopBits.code : StopBits → BitVec 1
  | .one => 0#1
  | .two => 1#1

/-- The request of a format L word, assembled from its fields (R73). -/
def reqOfWord (w : Word48) : LineReq :=
  { baud := w.extractLsb' 0 32
    parity := parityOfCode (w.extractLsb' 42 2)
    stop := stopOfCode (w.extractLsb' 41 1)
    data := w.extractLsb' 36 4 }

/-! ## The decoder -/

/-- The checks of an operation of format F with no byte operand: instance, reserved bits, `d = 0` (R75). -/
def plainF (w : Word16) (i : BitVec 2 → Instr) : Except Reject Instr :=
  if ffField w = 3#2 then .error .noSuchInstance
  else if reservedF w ≠ 0#2 then .error .reservedBit
  else if dField w ≠ 0#8 then .error .strayOperand
  else .ok (i (ffField w))

/-- The checks of INSERT, which has a byte operand (R75). -/
def byteF (w : Word16) (i : BitVec 2 → Byte → Instr) : Except Reject Instr :=
  if ffField w = 3#2 then .error .noSuchInstance
  else if reservedF w ≠ 0#2 then .error .reservedBit
  else .ok (i (ffField w) (dField w))

/-- A word at a FIFO port (R66, R70, R75). -/
def decodeF (w : Word16) : Except Reject Instr :=
  match opField w with
  | 0b0001#4 => plainF w .init
  | 0b0010#4 => byteF w .insert
  | 0b0011#4 => plainF w .remove
  | 0b0100#4 => plainF w .peek
  | 0b0101#4 => plainF w .isFull
  | 0b0110#4 => plainF w .isEmpty
  | 0b0111#4 => plainF w .count
  | 0b1000#4 => plainF w .flush
  | _ => .error .unknownOp

/-- The checks of a format U operation with no byte operand (R75). -/
def plainU (w : Word16) (i : Instr) : Except Reject Instr :=
  if reservedU w ≠ 0#4 then .error .reservedBit
  else if dField w ≠ 0#8 then .error .strayOperand
  else .ok i

/-- The checks of UART_SEND, which has a byte operand (R75). -/
def byteU (w : Word16) (i : Byte → Instr) : Except Reject Instr :=
  if reservedU w ≠ 0#4 then .error .reservedBit
  else .ok (i (dField w))

/-- A word at the UART shim (R67, R70, R75). -/
def decodeU (w : Word16) : Except Reject Instr :=
  match opField w with
  | 0b1010#4 => plainU w .uartSendReady
  | 0b1011#4 => byteU w .uartSend
  | 0b1100#4 => plainU w .uartRxRead
  | _ => .error .unknownOp

/-- A word at the reconfiguration engine (R68, R70, R75). -/
def decodeL (w : Word48) : Except Reject Instr :=
  if w.extractLsb' 44 4 ≠ 0b1001#4 then .error .unknownOp
  else if w.extractLsb' 40 1 ≠ 0#1 then .error .reservedBit
  else if w.extractLsb' 32 4 ≠ 0#4 then .error .reservedBit
  else .ok (.reconfig (reqOfWord w))

/-- A step code: "format S has no illegal value" (R69). -/
def decodeS (c : StepCode) : Instr :=
  if c = 0b00#2 then .brUsbRx else if c = 0b01#2 then .brUsbTx else if c = 0b10#2 then .brUartTx else .brService

/-- The instruction of a word presented at a place, or why it is illegal (R65, R75). -/
def decode : Presented → Except Reject Instr
  | .fifoPort w => decodeF w
  | .uartShim w => decodeU w
  | .engine w => decodeL w
  | .stepCode c => .ok (decodeS c)

/-! ## The encoder -/

/-- A format F word from its fields (R66). -/
def wordF (op : BitVec 4) (ff : BitVec 2) (d : Byte) : Word16 := op ++ ff ++ 0#2 ++ d

/-- A format U word from its fields (R67). -/
def wordU (op : BitVec 4) (d : Byte) : Word16 := op ++ 0#4 ++ d

/-- A format L word from its request (R68). -/
def wordL (r : LineReq) : Word48 :=
  0b1001#4 ++ r.parity.code ++ r.stop.code ++ 0#1 ++ r.data ++ 0#4 ++ r.baud

/-- The word of an instruction and the place it is presented at (R65 to R70). -/
def encode : Instr → Presented
  | .init ff => .fifoPort (wordF 0b0001#4 ff 0#8)
  | .insert ff b => .fifoPort (wordF 0b0010#4 ff b)
  | .remove ff => .fifoPort (wordF 0b0011#4 ff 0#8)
  | .peek ff => .fifoPort (wordF 0b0100#4 ff 0#8)
  | .isFull ff => .fifoPort (wordF 0b0101#4 ff 0#8)
  | .isEmpty ff => .fifoPort (wordF 0b0110#4 ff 0#8)
  | .count ff => .fifoPort (wordF 0b0111#4 ff 0#8)
  | .flush ff => .fifoPort (wordF 0b1000#4 ff 0#8)
  | .reconfig r => .engine (wordL r)
  | .uartSendReady => .uartShim (wordU 0b1010#4 0#8)
  | .uartSend b => .uartShim (wordU 0b1011#4 b)
  | .uartRxRead => .uartShim (wordU 0b1100#4 0#8)
  | .brUsbRx => .stepCode 0b00#2
  | .brUsbTx => .stepCode 0b01#2
  | .brUartTx => .stepCode 0b10#2
  | .brService => .stepCode 0b11#2

/-! ## A word numbered as the opcode table numbers it -/

/-- The word with these bits, and the place the opcode table presents it at. A row of two bits is given in one byte, one
of sixteen bits in two, the one of forty-eight in six. The shared numbering of R70 tells a FIFO port's word from the
UART shim's: no two operations of the hardware have the same `op`, and those of the shim are 0b1010 and up. -/
def tablePresented (nbits w : Nat) : Option Presented :=
  if nbits ≤ 8 then
    if w < 4 then some (.stepCode (BitVec.ofNat 2 w)) else none
  else if nbits ≤ 16 then
    if w < 2 ^ 16 then
      if w < 0xA000 then some (.fifoPort (BitVec.ofNat 16 w)) else some (.uartShim (BitVec.ofNat 16 w))
    else none
  else if w < 2 ^ 48 then some (.engine (BitVec.ofNat 48 w)) else none

/-- What the decoder reads from a table row's word; none where it refuses. -/
def decodeTableWord (nbits w : Nat) : Option Instr :=
  match tablePresented nbits w with
  | some p => (decode p).toOption
  | none => none

end Sys2Proof
end

