-- ==== Sys2Proof/Config.lean ====
section
/-!
DEFINITION. What an implementation fixes (R4 to R6) and the free values: the values nobody chooses (00_scope.md section 6,
`draw T`), the answers of the USB oracle (R128), the arriving bytes (R104) and the order in which agents act (R11, R154).
Every free value is an opaque constant without a body, applied to the step counter of the state: nothing can be proved of
which value it takes, so a claim that holds at all holds for every value.
-/

namespace Sys2Proof

/-- The agents that can take a step (R8); ENV_USB has no step of its own, it answers. -/
inductive Agent where
  | main
  | isr
  | wireRx
  | wireTx
  deriving DecidableEq, Repr, Inhabited

/-- The answer of the USB stack to `send_byte` (R128). -/
inductive SendResult where
  | ok
  | wouldBlock
  | error
  deriving DecidableEq, Repr, Inhabited

namespace Config

/-- Capacity of each instance in bytes (R5; UNVERIFIED, log 19). -/
def cap : Inst → Nat
  | .f0 => 256
  | .f1 => 128
  | .f2 => 128

/-- `AW[f] = clog2(CAP[f])`, the width of a cursor: 8, 7, 7 (R4 parameter table, R14). -/
def aw : Inst → Nat
  | .f0 => 8
  | .f1 => 7
  | .f2 => 7

/-- `CW[f] = clog2(CAP[f] + 1)`, the width of a count: 9, 8, 8 (R4 parameter table, R14). -/
def cw : Inst → Nat
  | .f0 => 9
  | .f1 => 8
  | .f2 => 8

/-- The instance carrying UART to USB host (R4 parameter table, R23). -/
def u2h : Inst := .f0

/-- The instance carrying USB host to UART (R4 parameter table, R23). -/
def h2u : Inst := .f1

/-- How far the system clock lies above the least value R6 allows. OPEN, so no value is given. DESIGN CHOICE (log 16):
forty-six bits hold it, so that for every value some request is acceptable (R108). -/
opaque fClkAboveLeast : BitVec 46

/-- `F_CLK`, the system clock in hertz: OPEN, at least 8 (R6). -/
def fClk : Nat := fClkAboveLeast.toNat + 8

/-- How far the endpoint size lies above the least value R6 allows. OPEN, so no value is given. -/
opaque epAboveLeast : Nat

/-- `EP_SIZE`, the size of the USB IN endpoint in bytes: OPEN, at least 2 (R6). -/
def epSize : Nat := epAboveLeast + 2

/-- Which agent moves in the step with this number (R11, R154: agents are scheduled freely). -/
opaque freeAgent : Nat → Agent

/-- The byte UART_RX_READ returns when nothing was received (R101). -/
opaque freeByte : Nat → Byte

/-- Whether a byte finishing under the hold, or cut off at phase 2, is seen on the wire (R103, R114). -/
opaque freeSeen : Nat → Bool

/-- The byte that arrives from the wire (R104). -/
opaque freeArrival : Nat → Byte

/-- The oracle's answer to `try_receive_byte` (R128). -/
opaque freePoll : Nat → Option Byte

/-- The oracle's answer to `in_endpoint_ready` (R128). -/
opaque freeReady : Nat → Bool

/-- The oracle's answer to `send_byte` (R128). -/
opaque freeSent : Nat → SendResult

/-- The oracle's answer to `service_task` (R128). -/
opaque freeEvents : Nat → List LineReq

end Config

end Sys2Proof
end

