-- ==== Sys2Proof/Machine/State.lean ====
section
/-!
DEFINITION. The state of the machine (10_state.md), its faults (60_exceptions.md R143) and refusals, and the state
after reset (10_state.md R43). Every piece of state the spec names is here; INVENTORY.md lists them. The last three
fields of `State` are the model's own.
-/

namespace Sys2Proof.Machine

/-- The storage array of one instance (R13, R15, R45): (address, byte) pairs, addresses strictly rising. A cell that is
not listed holds no value. -/
abbrev Memory := List Host.Cell

/-- A cursor of instance `f`, `AW[f]` bits (R14): it holds every index of the array and no other (R51). -/
abbrev Cursor (f : Inst) := BitVec (Config.aw f)

/-- A count of instance `f`, `CW[f]` bits (R14). -/
abbrev Count (f : Inst) := BitVec (Config.cw f)

/-- The ring-buffer instance `f` (R13, R14). Its capacity is a constant, not state. -/
structure Fifo (f : Inst) where
  mem    : Memory
  wr     : Cursor f
  rd     : Cursor f
  count  : Count f
  inited : Bool
  deriving DecidableEq, Repr

/-- The running context (R40, R159). -/
inductive Ctx where
  | main
  | isr
  deriving DecidableEq, Repr

/-- The operations the ownership table speaks of (R160): the names a fault records. -/
inductive FifoOp where
  | init
  | insert
  | remove
  | peek
  | flush
  | query
  deriving DecidableEq, Repr

/-- The position of MAIN: `step` (R37), `sub` and the locals live there (R38, R136). The constructor is the numbered line
that is next; a local is an argument of the positions between which it carries a value, so that no local holds a value
anywhere else. `t_n` and `t_k` have `CW[U2H]` bits (R38). -/
inductive Pos where
  | b1
  | b2
  | b3
  | b4
  | b5
  | s11
  | s12 (tFull : Bool)
  | s13 (tByte : Option Byte)
  | s21
  | s22 (tN : Count Config.u2h)
  | s23 (tN : Count Config.u2h) (tReady : Bool)
  | s24 (tK : Count Config.u2h)
  | s25 (tK : Count Config.u2h) (tByte : Byte)
  | s26 (tK : Count Config.u2h) (tByte : Byte) (tRes : SendResult)
  | s31
  | s32 (tReady : Bool)
  | s33 (tReady : Bool) (tEmpty : Bool)
  | s34 (tByte : Option Byte)
  | s41
  | s42
  deriving DecidableEq, Repr

/-- The phase of a reconfiguration that is next (R39, R112). -/
inductive Phase where
  | p1
  | p2
  | p3
  | p4
  | p5
  | p6
  deriving DecidableEq, Repr

/-- The handler's position `isr_pc` with its locals `isr_byte`, `isr_full` where they carry a value (R40, R151). -/
inductive IsrPos where
  | idle
  | gotByte (isrByte : Byte)
  | gotFull (isrByte : Byte) (isrFull : Bool)
  deriving DecidableEq, Repr

/-- A response: an unsigned number and its width in bits (R74). -/
structure Response where
  width : Nat
  value : Nat
  deriving DecidableEq, Repr

/-- What the environment decides during one action: the draws and the oracle's answers. An action uses those its rule
names and no others. -/
structure Draws where
  /-- The byte of a read with nothing received (R101). -/
  byte : Byte
  /-- Whether a byte under the hold, or cut off, is seen on the wire (R103, R114). -/
  seen : Bool
  /-- The byte arriving from the wire (R104). -/
  arrival : Byte
  /-- `oracle.try_receive_byte()` (R128). -/
  poll : Option Byte
  /-- `oracle.in_endpoint_ready()` (R128). -/
  ready : Bool
  /-- `oracle.send_byte(b)` (R128). -/
  sent : SendResult
  /-- `oracle.service_task()` (R128). -/
  events : List LineReq
  deriving DecidableEq, Repr

/-- What acts in a step: an agent (R8), a client presenting a command word at a port (R44, R148), or reset (R166). -/
inductive Mover where
  | agent (a : Agent)
  | command (c : Command)
  | reset
  deriving DecidableEq, Repr

/-- One input: what acts, and what the environment answers while it does. -/
structure Input where
  mover : Mover
  draws : Draws
  deriving DecidableEq, Repr

/-- The whole machine. -/
structure State where
  /-- Instance 0, Rx-from-UART (R13). -/
  fifo0 : Fifo .f0
  /-- Instance 1, Rx-from-USB (R13). -/
  fifo1 : Fifo .f1
  /-- Instance 2, Tx-to-USB (R13). -/
  fifo2 : Fifo .f2
  /-- The line-encoding register: the last record applied (R27, R28). -/
  le : Option LineReq
  /-- Control register with the double-speed bit (R31). -/
  ctrlA : BitVec 8
  /-- Control register with the three enable bits (R32). -/
  ctrlB : BitVec 8
  /-- Control register with the frame format (R33). -/
  ctrlC : BitVec 8
  /-- The baud-rate divisor (R34). -/
  div : BitVec 12
  /-- The byte last delivered by the wire (R35). -/
  rxdata : Byte
  /-- Receive complete (R35). -/
  rxc : Bool
  /-- An arrival was lost (R35). -/
  rxerr : Bool
  /-- The byte being sent; `txbusy` is 1 exactly when there is one (R36). -/
  txshift : Option Byte
  /-- The transmit line is held at idle (R36). -/
  txhold : Bool
  /-- `step`, `sub` and the sequencer's locals (R37, R38). -/
  pos : Pos
  /-- The requests `service_task` handed over that are not yet started (R133), and those presented while the engine is
  busy (R122). -/
  evs : List LineReq
  /-- `phase` and `le_req`: none is phase 0 (R39). -/
  engine : Option (Phase × LineReq)
  /-- The running context (R40). -/
  ctx : Ctx
  /-- `isr_pc`, `isr_byte`, `isr_full` (R40). -/
  isr : IsrPos
  /-- Bytes taken from the USB host (R41). -/
  usbInLog : List Byte
  /-- Bytes the USB stack took (R41). -/
  usbOutLog : List Byte
  /-- Bytes the receiver accepted (R41). -/
  wireInLog : List Byte
  /-- Bytes the transmitter finished (R41). -/
  wireOutLog : List Byte
  /-- The response of the last command presented at a port (R74). The model's own field. -/
  resp : Option Response
  /-- The inputs still to come, oldest first. The model's own field. -/
  inputs : List Input
  /-- The number of this step, which selects the free values where `inputs` is empty. The model's own field. -/
  tick : Nat
  deriving DecidableEq, Repr

/-- The named ways a step stops the machine: verdicts of the model, not events of the hardware (R143). An action that
faults writes no state. All of them are safe: the model gives no successor where the hardware would go on. -/
inductive Fault where
  /-- Code 1. Raised by any FIFO operation but INIT on an instance not yet initialised (R81, R145). Safe. -/
  | notInit (f : Inst)
  /-- Code 2. Raised by INIT on an instance already initialised (R82, R145). Safe. -/
  | reinit (f : Inst)
  /-- Code 3. Raised by REMOVE and PEEK on an empty instance (R84, R85, R144). Safe. -/
  | underflow (f : Inst) (op : FifoOp)
  /-- Code 4. Raised by UART_SEND while `send_ready` is false (R100, R146). Safe. -/
  | txNotReady
  /-- Code 5. Raised by a word that is no row of the opcode table at the place it is presented (R75, R147). Safe. -/
  | illegalCmd (format : Format) (word : Nat)
  /-- Code 6. Raised by an operation outside the ownership table (R160, R161). Safe. -/
  | ownership (f : Inst) (op : FifoOp) (ctx : Ctx)
  /-- Code 7. Raised by a read of a storage cell that holds no value (R48, R147). Safe. -/
  | unwrittenCell (f : Inst) (i : Nat)
  deriving DecidableEq, Repr

/-- The named ways a step has no meaning. -/
inductive Refusal where
  /-- Raised by `exec` for an instruction the model gives no meaning yet; no arm does. Safe. -/
  | notModelled (mnemonic : String)
  /-- Raised by a sequencer step (BR_USB_RX, BR_USB_TX, BR_UART_TX, BR_SERVICE) asked for at a position of another step:
  the step code is the sequencer's own, "the value of `step` minus 1" (R69), so no run asks for it. Safe. -/
  | notThisStep
  deriving DecidableEq, Repr

/-- An instance as reset leaves it (R43): no cell holds a value and INIT has not run. The cursors and the count are
unspecified there; their values here are DESIGN CHOICE (log 12). -/
def Fifo.reset (f : Inst) : Fifo f :=
  { mem := [], wr := 0, rd := 0, count := 0, inited := false }

/-- The machine right after reset (R43, R167). `rxdata` is unspecified there; its value here is DESIGN CHOICE (log 13). -/
def State.reset : State :=
  { fifo0 := Fifo.reset .f0
    fifo1 := Fifo.reset .f1
    fifo2 := Fifo.reset .f2
    le := none
    ctrlA := 0
    ctrlB := 0
    ctrlC := 0
    div := 0
    rxdata := 0
    rxc := false
    rxerr := false
    txshift := none
    txhold := false
    pos := .b1
    evs := []
    engine := none
    ctx := .main
    isr := .idle
    usbInLog := []
    usbOutLog := []
    wireInLog := []
    wireOutLog := []
    resp := none
    inputs := []
    tick := 0 }

end Sys2Proof.Machine
end

