-- ==== Sys2Proof/Machine/Operands.lean ====
section
/-!
DEFINITION. Operand forms and the values computed from them: instance select (R71), the reset of a cursor at the
capacity (R50), responses (R74), the acceptance test, the divisor and the frame-format mask of a request (R108 to
R110), and the bit positions of the UART's control registers (R31 to R33).
-/

namespace Sys2Proof.Machine

/-! ## Instances -/

/-- The instance an `ff` field selects; 3 names none (R71). -/
def instOfSelect (ff : BitVec 2) : Option Inst :=
  if ff = 0#2 then some .f0 else if ff = 1#2 then some .f1 else if ff = 2#2 then some .f2 else none

/-- The `ff` field of an instance (R71). -/
def selectOf : Inst → BitVec 2
  | .f0 => 0#2
  | .f1 => 1#2
  | .f2 => 2#2

/-- `next(c, f) = (c + 1) mod CAP[f]` (R50, R93). -/
def nextCursor (f : Inst) (c : Cursor f) : Cursor f := BitVec.ofNat (Config.aw f) ((c.toNat + 1) % Config.cap f)

/-! ## Responses (R74) -/

/-- A byte, 8 bits. -/
def Response.byte (b : Byte) : Response := ⟨8, b.toNat⟩

/-- A truth value, 1 bit: 1 = true, 0 = false. -/
def Response.bit (b : Bool) : Response := ⟨1, if b then 1 else 0⟩

/-- A count, `CW[f]` bits. -/
def Response.count (f : Inst) (n : Count f) : Response := ⟨Config.cw f, n.toNat⟩

/-! ## Control register fields: positions (R31 to R33; UNVERIFIED, log 18) and reserved bits (R30) -/

/-- `u2x`, bit 1 of CTRL_A (R31). -/
def u2xBit : Nat := 1

/-- `rxcie`, bit 7 of CTRL_B (R32). -/
def rxcieBit : Nat := 7

/-- `rxen`, bit 4 of CTRL_B (R32). -/
def rxenBit : Nat := 4

/-- `txen`, bit 3 of CTRL_B (R32). -/
def txenBit : Nat := 3

/-- Bit 5 of CTRL_C, the upper bit of `par` (R33). -/
def par1Bit : Nat := 5

/-- Bit 4 of CTRL_C, the lower bit of `par` (R33). -/
def par0Bit : Nat := 4

/-- `stop2`, bit 3 of CTRL_C (R33). -/
def stop2Bit : Nat := 3

/-- Bit 2 of CTRL_C, the upper bit of `ds` (R33). -/
def ds1Bit : Nat := 2

/-- Bit 1 of CTRL_C, the lower bit of `ds` (R33). -/
def ds0Bit : Nat := 1

/-- A register value with one bit set. -/
def bitAt (n : Nat) : BitVec 8 := 1#8 <<< n

/-- The named bits of CTRL_A; the others are reserved (R30, R31). -/
def maskA : BitVec 8 := bitAt u2xBit

/-- The named bits of CTRL_B; the others are reserved (R30, R32). -/
def maskB : BitVec 8 := bitAt rxcieBit ||| bitAt rxenBit ||| bitAt txenBit

/-- The named bits of CTRL_C; the others are reserved (R30, R33). -/
def maskC : BitVec 8 := bitAt par1Bit ||| bitAt par0Bit ||| bitAt stop2Bit ||| bitAt ds1Bit ||| bitAt ds0Bit

/-- What phase 5 writes to CTRL_A: double speed (R117). -/
def enableA : BitVec 8 := bitAt u2xBit

/-- What phase 5 writes to CTRL_B: interrupt, transmitter and receiver enabled (R117). -/
def enableB : BitVec 8 := bitAt rxcieBit ||| bitAt txenBit ||| bitAt rxenBit

/-! ## A line-encoding request (R108 to R111) -/

/-- The quotient of the double-speed formula, on naturals of unbounded width (R110, R111; UNVERIFIED, log 17). -/
def divQuotient (fClk baud : Nat) : Nat := (fClk / 8 + baud / 2) / baud

/-- `Div(F_CLK, baud)` (R110). -/
def divisor (fClk baud : Nat) : Nat := divQuotient fClk baud - 1

/-- `accept(req)` at a given clock (R108); `DIV_WIDTH` is 12. -/
def acceptAt (fClk : Nat) (r : LineReq) : Bool :=
  (r.parity != .inv3) && (5 ≤ r.data.toNat && r.data.toNat ≤ 8) && (r.baud != 0#32)
    && (1 ≤ divQuotient fClk r.baud.toNat && divQuotient fClk r.baud.toNat ≤ 2 ^ 12)

/-- `accept(req)` (R108). -/
def accept (r : LineReq) : Bool := acceptAt Config.fClk r

/-- `P(parity)` (R109); `inv3` never reaches it (R108). -/
def parityMask : Parity → BitVec 8
  | .noParity => 0
  | .even => bitAt par1Bit
  | .odd => bitAt par1Bit ||| bitAt par0Bit
  | .inv3 => 0

/-- `S(stop)` (R109). -/
def stopMask : StopBits → BitVec 8
  | .one => 0
  | .two => bitAt stop2Bit

/-- `D(data)` (R109); other values never reach it (R108). -/
def dataMask (n : BitVec 4) : BitVec 8 :=
  if n = 6#4 then bitAt ds0Bit
  else if n = 7#4 then bitAt ds1Bit
  else if n = 8#4 then bitAt ds1Bit ||| bitAt ds0Bit
  else 0

/-- `Mask(req)`, the value of the single bitmask write of phase 4 (R109). -/
def frameMask (r : LineReq) : BitVec 8 := parityMask r.parity ||| stopMask r.stop ||| dataMask r.data

/-- The value phase 3 writes to DIV (R115); for an accepted request it is not truncated (R111). -/
def divValue (r : LineReq) : BitVec 12 := BitVec.ofNat 12 (divisor Config.fClk r.baud.toNat)

/-! ## Positions (R37, R39, R69) -/

/-- `step` (R37): none is BOOT. -/
def Pos.stepNo : Pos → Option Nat
  | .b1 | .b2 | .b3 | .b4 | .b5 => none
  | .s11 | .s12 _ | .s13 _ => some 1
  | .s21 | .s22 _ | .s23 _ _ | .s24 _ | .s25 _ _ | .s26 _ _ _ => some 2
  | .s31 | .s32 _ | .s33 _ _ | .s34 _ => some 3
  | .s41 | .s42 => some 4

/-- The step code of a position, the value of `step` minus 1; BOOT has none (R69). -/
def Pos.code (p : Pos) : Option StepCode := p.stepNo.map (fun n => BitVec.ofNat 2 (n - 1))

/-- The first line of the step with this code (R130 to R133). -/
def firstLine (c : StepCode) : Pos :=
  if c = 0b00#2 then .s11 else if c = 0b01#2 then .s21 else if c = 0b10#2 then .s31 else .s41

/-- The number of a phase (R39). -/
def Phase.number : Phase → Nat
  | .p1 => 1
  | .p2 => 2
  | .p3 => 3
  | .p4 => 4
  | .p5 => 5
  | .p6 => 6

/-- The code of a fault (R143); it stands in no hardware register. -/
def Fault.code : Fault → Nat
  | .notInit _ => 1
  | .reinit _ => 2
  | .underflow _ _ => 3
  | .txNotReady => 4
  | .illegalCmd _ _ => 5
  | .ownership _ _ _ => 6
  | .unwrittenCell _ _ => 7

/-- The batch bound of step 2, `min(t_n, EP_SIZE - 1)`, which fits `CW[U2H]` bits (R131, R137). -/
def batchBound (n : Count Config.u2h) : Count Config.u2h :=
  BitVec.ofNat (Config.cw Config.u2h) (min n.toNat (Config.epSize - 1))

end Sys2Proof.Machine
end

