-- ==== Sys2Proof/Machine/Flags.lean ====
section
/-!
DEFINITION. The flags: functions of the state, none of them state of its own. Full and empty (R26), the fields of the
control registers (R31 to R33), `txbusy` (R36), `send_ready` (R98), the interrupt request (R150), the views `phase` and
`le_req` (R39), the abstract content of an instance (R19) and the outputs of an instance's ports (R44).
-/

namespace Sys2Proof.Machine

/-- The instance with this number. -/
def State.fifo (s : State) : (f : Inst) → Fifo f
  | .f0 => s.fifo0
  | .f1 => s.fifo1
  | .f2 => s.fifo2

/-! ## An instance's flags (R26) -/

/-- `full[f] = (count[f] = CAP[f])`, a port output (R44). While `inited[f] = 0` the flag is undefined (R26): that the
formula is read there too, on the count reset leaves, is the model's choice (DESIGN CHOICE, log 31). -/
def State.full (s : State) (f : Inst) : Bool := (s.fifo f).count.toNat == Config.cap f

/-- `empty[f] = (count[f] = 0)`, a port output (R44). While `inited[f] = 0` the flag is undefined (R26): that the formula
is read there too, on the count reset leaves, is the model's choice (DESIGN CHOICE, log 31). -/
def State.empty (s : State) (f : Inst) : Bool := (s.fifo f).count.toNat == 0

/-! ## Control register fields; reserved bits read as 0 (R30) -/

/-- CTRL_A as it reads (R30, R31). -/
def State.readA (s : State) : BitVec 8 := s.ctrlA &&& maskA

/-- CTRL_B as it reads (R30, R32). -/
def State.readB (s : State) : BitVec 8 := s.ctrlB &&& maskB

/-- CTRL_C as it reads (R30, R33). -/
def State.readC (s : State) : BitVec 8 := s.ctrlC &&& maskC

/-- Double-speed mode (R31). -/
def State.u2x (s : State) : Bool := s.ctrlA.getLsbD u2xBit

/-- The receive interrupt is enabled (R32, R150). -/
def State.rxcie (s : State) : Bool := s.ctrlB.getLsbD rxcieBit

/-- The receiver is enabled (R32). -/
def State.rxen (s : State) : Bool := s.ctrlB.getLsbD rxenBit

/-- The transmitter is enabled (R32). -/
def State.txen (s : State) : Bool := s.ctrlB.getLsbD txenBit

/-- `par` (R33). -/
def State.par (s : State) : BitVec 2 := s.ctrlC.extractLsb' par0Bit 2

/-- `stop2` (R33). -/
def State.stop2 (s : State) : Bool := s.ctrlC.getLsbD stop2Bit

/-- `ds` (R33). -/
def State.ds (s : State) : BitVec 2 := s.ctrlC.extractLsb' ds0Bit 2

/-! ## UART predicates -/

/-- 1 while `txshift` holds a byte (R36). -/
def State.txbusy (s : State) : Bool := s.txshift.isSome

/-- `send_ready = (txen = 1) and (txbusy = 0)` (R98). -/
def State.sendReady (s : State) : Bool := s.txen && !s.txbusy

/-- The interrupt is requested: `rxcie = 1 and rxc = 1` (R150). -/
def State.irqRequested (s : State) : Bool := s.rxcie && s.rxc

/-! ## The engine's registers (R39) -/

/-- `phase`: 0 when no reconfiguration is under way. -/
def State.phase (s : State) : Nat :=
  match s.engine with
  | none => 0
  | some (p, _) => p.number

/-- `le_req`: the record being applied. -/
def State.leReq (s : State) : Option LineReq := s.engine.map Prod.snd

/-- MAIN is in boot: `step = BOOT` (R37). -/
def State.booting (s : State) : Bool := s.pos.stepNo.isNone

/-! ## Ownership (R23, R160) -/

/-- The context that may INSERT into an instance: none for instance 2. -/
def producer (f : Inst) : Option Ctx :=
  if f = Config.u2h then some .isr else if f = Config.h2u then some .main else none

/-- The context that may REMOVE, PEEK and FLUSH an instance: none for instance 2. -/
def consumer (f : Inst) : Option Ctx :=
  if f = Config.u2h then some .main else if f = Config.h2u then some .main else none

/-- The ownership table (R160): whether the running context may issue the operation on the instance. INIT is boot's:
MAIN, at `step = BOOT`, before the interrupt is enabled (DEDUCED, log 7). -/
def State.mayIssue (s : State) (op : FifoOp) (f : Inst) : Bool :=
  match op with
  | .init => s.ctx == .main && s.booting && !s.rxcie
  | .insert => producer f == some s.ctx
  | .remove => consumer f == some s.ctx
  | .peek => consumer f == some s.ctx
  | .flush => consumer f == some s.ctx
  | .query => true

end Sys2Proof.Machine
end

