-- ==== Sys2Proof/Machine/Ops.lean ====
section
/-!
DEFINITION. The named operations over the state: storage access (20_memory.md), the eight ring-buffer operations
(40_fifo_ops.md), the UART primitives, the wire agents and the reconfiguration phases (41_uart_reconfig.md), taking the
receive interrupt and returning from it (60_exceptions.md R151, R155, R156), and the inputs of a step. Each is one
atomic action (R9) or a part of one; the meanings of the instructions are short compositions of them.
-/

namespace Sys2Proof.Machine

/-- The outcome of an action (R10). -/
abbrev Out := Host.Outcome State Fault Refusal

/-- An action's outcome from the result of an operation that may fault: a fault ends the action and writes no state. -/
def settle {α : Type} (r : Except Fault α) (k : α → Out) : Out :=
  match r with
  | .error e => .fault e
  | .ok a => k a

/-! ## Inputs and free values -/

/-- What acts in this step: the next input says, and where there is none, nobody chooses (R11, R154). -/
def State.mover (s : State) : Mover :=
  match s.inputs with
  | i :: _ => i.mover
  | [] => .agent (Config.freeAgent s.tick)

/-- The free values of the step with this number. -/
def freeDraws (n : Nat) : Draws :=
  { byte := Config.freeByte n
    seen := Config.freeSeen n
    arrival := Config.freeArrival n
    poll := Config.freePoll n
    ready := Config.freeReady n
    sent := Config.freeSent n
    events := Config.freeEvents n }

/-- What the environment answers in this step: the next input says, and where there is none the answers are free. -/
def State.draws (s : State) : Draws :=
  match s.inputs with
  | i :: _ => i.draws
  | [] => freeDraws s.tick

/-- The end of a step: its input is used up and the next step has the next number. -/
def State.advance (s : State) : State := { s with inputs := s.inputs.tail, tick := s.tick + 1 }

/-! ## Writing a part of the state -/

/-- Replace one instance; an operation acts on its own instance only (R81). -/
def State.setFifo (s : State) (f : Inst) (q : Fifo f) : State :=
  match f with
  | .f0 => { s with fifo0 := q }
  | .f1 => { s with fifo1 := q }
  | .f2 => { s with fifo2 := q }

/-- Drive the response of a command (R74); none for an operation without one. -/
def State.respond (s : State) (r : Option Response) : State := { s with resp := r }

/-- Move MAIN to a position (R37, R38). -/
def State.setPos (s : State) (p : Pos) : State := { s with pos := p }

/-- Write CTRL_A; a write to a reserved bit is ignored (R30). -/
def State.writeA (s : State) (v : BitVec 8) : State := { s with ctrlA := v &&& maskA }

/-- Write CTRL_B; a write to a reserved bit is ignored (R30). -/
def State.writeB (s : State) (v : BitVec 8) : State := { s with ctrlB := v &&& maskB }

/-- Write CTRL_C; a write to a reserved bit is ignored (R30). -/
def State.writeC (s : State) (v : BitVec 8) : State := { s with ctrlC := v &&& maskC }

/-! ## Storage (R45 to R51) -/

/-- What a cell that is not listed holds: no value (R15, R43). -/
def Memory.unlisted : Option Byte := none

/-- The byte a cell holds, if any. -/
def Memory.read (m : Memory) (a : Nat) : Option Byte :=
  match m with
  | [] => Memory.unlisted
  | (b, v) :: rest => if a = b then some v else Memory.read rest a

/-- Give a cell a byte, keeping the addresses strictly rising. -/
def Memory.write (m : Memory) (a : Nat) (v : Byte) : Memory :=
  match m with
  | [] => [(a, v)]
  | (b, w) :: rest =>
    if a < b then (a, v) :: (b, w) :: rest
    else if a = b then (a, v) :: rest
    else (b, w) :: Memory.write rest a v

/-- The canonical form: addresses strictly rising. No listed cell reads as an unlisted one, since that holds no value. -/
def Memory.wf (m : Memory) : Bool :=
  match m with
  | [] => true
  | (a, _) :: rest => (rest.head?.all (fun c => decide (a < c.1))) && Memory.wf rest

/-- Every listed cell lies in an array of this capacity (R45). -/
def Memory.within (m : Memory) (cap : Nat) : Bool := m.all (fun c => decide (c.1 < cap))

/-- `MemRead((f, i), 1)`: a cell with no value faults (R48). The index is a cursor, so one outside the array cannot be
formed (R46, R51). -/
def memRead (f : Inst) (i : Cursor f) (s : State) : Except Fault Byte :=
  match (s.fifo f).mem.read i.toNat with
  | some v => .ok v
  | none => .error (.unwrittenCell f i.toNat)

/-- The abstract content `q[f]` of an instance (R19), oldest first: the bytes of the cells from `rd` on, `count` of them,
going round at the capacity. A cell with no value contributes nothing. -/
def contentFrom (m : Memory) (cap : Nat) (at_ : Nat) (n : Nat) : List Byte :=
  match n with
  | 0 => []
  | k + 1 => (m.read (at_ % cap)).toList ++ contentFrom m cap (at_ + 1) k

/-- `q[f]` (R19). -/
def State.content (s : State) (f : Inst) : List Byte :=
  contentFrom (s.fifo f).mem (Config.cap f) (s.fifo f).rd.toNat (s.fifo f).count.toNat

/-- The `rd_data` output of an instance's port: always `mem[rd]`, show-ahead (R44). -/
def State.rdData (s : State) (f : Inst) : Option Byte := (s.fifo f).mem.read (s.fifo f).rd.toNat

/-! ## The ring-buffer operations (R81 to R89) -/

/-- The checks every operation but INIT begins with: the instance is initialised (R81), then the running context may
issue the operation (R160, R161). The order of the two is that of the test vectors V-F2 and V-F10 (DEDUCED, log 6). -/
def guarded {α : Type} (op : FifoOp) (f : Inst) (s : State) (r : Except Fault α) : Except Fault α :=
  if (s.fifo f).inited = false then .error (.notInit f)
  else if s.mayIssue op f = false then .error (.ownership f op s.ctx)
  else r

/-- INIT f (R82). -/
def opInit (f : Inst) (s : State) : Except Fault State :=
  if (s.fifo f).inited = true then .error (.reinit f)
  else if s.mayIssue .init f = false then .error (.ownership f .init s.ctx)
  else .ok (s.setFifo f { s.fifo f with count := 0, wr := 0, rd := 0, inited := true })

/-- An instance after an accepted INSERT (R83, the accepting arm). -/
def Fifo.pushed {f : Inst} (q : Fifo f) (b : Byte) : Fifo f :=
  { q with mem := q.mem.write q.wr.toNat b, wr := nextCursor f q.wr, count := q.count + 1 }

/-- An instance after a REMOVE (R84). -/
def Fifo.popped {f : Inst} (q : Fifo f) : Fifo f :=
  { q with rd := nextCursor f q.rd, count := q.count - 1 }

/-- An instance after a FLUSH (R89). -/
def Fifo.flushed {f : Inst} (q : Fifo f) : Fifo f := { q with rd := q.wr, count := 0 }

/-- INSERT f, b (R83): a no-op on a full instance. -/
def opInsert (f : Inst) (b : Byte) (s : State) : Except Fault State :=
  guarded .insert f s <|
    if s.full f = true then .ok s else .ok (s.setFifo f ((s.fifo f).pushed b))

/-- The byte at the read cursor of a non-empty instance; `op` names the operation in the fault (R84, R85). -/
def headByte (op : FifoOp) (f : Inst) (s : State) : Except Fault Byte :=
  if s.empty f = true then .error (.underflow f op) else memRead f (s.fifo f).rd s

/-- REMOVE f (R84): the byte and the state after. -/
def opRemove (f : Inst) (s : State) : Except Fault (Byte × State) :=
  guarded .remove f s <|
    match headByte .remove f s with
    | .error e => .error e
    | .ok v => .ok (v, s.setFifo f (s.fifo f).popped)

/-- PEEK f (R85): the byte; no state changes. -/
def opPeek (f : Inst) (s : State) : Except Fault Byte :=
  guarded .peek f s (headByte .peek f s)

/-- IS_FULL f (R86). -/
def opIsFull (f : Inst) (s : State) : Except Fault Bool := guarded .query f s (.ok (s.full f))

/-- IS_EMPTY f (R87). -/
def opIsEmpty (f : Inst) (s : State) : Except Fault Bool := guarded .query f s (.ok (s.empty f))

/-- COUNT f (R88). -/
def opCount (f : Inst) (s : State) : Except Fault (Count f) := guarded .query f s (.ok (s.fifo f).count)

/-- FLUSH f (R89). -/
def opFlush (f : Inst) (s : State) : Except Fault State :=
  guarded .flush f s (.ok (s.setFifo f (s.fifo f).flushed))

/-! ## The UART primitives (R99 to R101) -/

/-- UART_SEND b (R100). -/
def opSend (b : Byte) (s : State) : Except Fault State :=
  if s.sendReady = false then .error .txNotReady else .ok { s with txshift := some b }

/-- The byte a read of DATA returns: the one received, or with nothing received a byte nobody chooses (R101). -/
def rxValue (s : State) : Byte := if s.rxc = true then s.rxdata else s.draws.byte

/-- UART_RX_READ, the read of DATA: it clears `rxc` and `rxerr` (R101). -/
def rxRead (s : State) : Byte × State := (rxValue s, { s with rxc := false, rxerr := false })

/-! ## The wire agents (R103 to R106) -/

/-- A trace with a byte put at its end when it was seen. -/
def appendIf (seen : Bool) (log : List Byte) (b : Byte) : List Byte := if seen = true then log ++ [b] else log

/-- ENV_WIRE_TX (R103): the transmitter finishes its byte; under the hold a draw says whether it is seen. Without a byte
it is not enabled and nothing happens. -/
def wireFinish (s : State) : State :=
  match s.txshift with
  | none => s
  | some b =>
    { s with
      wireOutLog := appendIf (!s.txhold || s.draws.seen) s.wireOutLog b
      txshift := none }

/-- ENV_WIRE_RX (R104 to R106): a byte arrives. Accepted when the receiver is on and has room, an overrun when it has
none, ignored when the receiver is off. -/
def wireArrive (b : Byte) (s : State) : State :=
  if s.rxen = false then s
  else if s.rxc = true then { s with rxerr := true }
  else { s with rxdata := b, rxc := true, wireInLog := s.wireInLog ++ [b] }

/-! ## The reconfiguration engine (R107 to R118) -/

/-- Phase 2 on the transmitter (R114, R121): a byte still going out is cut off, and a draw says whether it is seen. -/
def cutOff (s : State) : State :=
  match s.txshift with
  | none => s
  | some b => { s with wireOutLog := appendIf s.draws.seen s.wireOutLog b, txshift := none }

/-- Disable the UART (R114): the three control registers and the receive flags are cleared. -/
def disableUart (s : State) : State :=
  { ((s.writeB 0).writeA 0).writeC 0 with rxc := false, rxerr := false }

/-- Start the first acceptable request of a list, dropping those before it, each of which changes nothing (R108, R135).
With none left the requests of step 4 are done: if MAIN stands there it goes back to step 1 (R133, R134). -/
def startNext : List LineReq → State → State
  | [], s => { s with evs := [], pos := if s.pos = .s42 then .s11 else s.pos }
  | r :: rest, s =>
    if accept r = true then { s with engine := some (.p1, r), evs := rest } else startNext rest s

/-- One phase of a reconfiguration (R113 to R118). -/
def phaseAct (p : Phase) (r : LineReq) (s : State) : State :=
  match p with
  | .p1 => { s with txhold := true, engine := some (.p2, r) }
  | .p2 => { cutOff (disableUart s) with engine := some (.p3, r) }
  | .p3 => { s with div := divValue r, engine := some (.p4, r) }
  | .p4 => { s.writeC (frameMask r) with engine := some (.p5, r) }
  | .p5 => { (s.writeA enableA).writeB enableB with engine := some (.p6, r) }
  | .p6 => startNext s.evs { s with txhold := false, le := some r, engine := none }

/-- The engine's next action: the phase that is next, or with none under way the next request. -/
def engineAct (s : State) : State :=
  match s.engine with
  | some (p, r) => phaseAct p r s
  | none => startNext s.evs s

/-- The requests of one call of `service_task` (R133, R135): the engine starts on them, or, were a reconfiguration under
way, they wait until that is over (R122). -/
def handOver (reqs : List LineReq) (s : State) : State :=
  match s.engine with
  | some _ => { s with evs := s.evs ++ reqs }
  | none => startNext reqs s

/-- RECONFIG req, its first action (R107): a rejected request changes nothing (R108); an accepted one sets `le_req` and
`phase`; one presented while a reconfiguration is under way waits until that is over (R122; DESIGN CHOICE, log 10). -/
def requestReconfig (r : LineReq) (s : State) : State :=
  match s.engine with
  | some _ => { s with evs := s.evs ++ [r] }
  | none => if accept r = true then { s with engine := some (.p1, r) } else s

/-! ## The receive interrupt (R150, R151, R155, R156) -/

/-- Taking the interrupt, action i.1: the context becomes ISR, nothing is saved, and DATA is read whatever follows
(R151, R153, R155). -/
def takeInterrupt (s : State) : State :=
  { (rxRead { s with ctx := .isr }).2 with isr := .gotByte (rxRead { s with ctx := .isr }).1 }

/-- Returning from it, the end of action i.3 (R151, R156): MAIN goes on at the position it was at. -/
def returnFromInterrupt (s : State) : State := { s with isr := .idle, ctx := .main }

/-! ## Reset (R166) -/

/-- The reset event: every state element takes its reset value; the inputs still to come and the step's number are the
environment's and stay. -/
def resetEvent (s : State) : State := { State.reset with inputs := s.inputs, tick := s.tick }

end Sys2Proof.Machine
end

