-- ==== Sys2Proof/Machine/Bridge.lean ====
section
/-!
DEFINITION. The meanings of the four steps of the bridge sequencer (42_bridge_sequencer.md R130 to R133). A step is a
sequence of atomic actions, one a numbered line, and other agents may act between two of them (R9, R136); so one
execution of a step's instruction is the ONE line at which MAIN stands, and the step as a whole is the run of its
lines. Each line has a definition of its own, named after its number.
-/

namespace Sys2Proof.Machine

/-! ## Step 1 (R130) -/

/-- 1.1: `t_full <- IS_FULL H2U`. -/
def line11 (s : State) : Out := settle (opIsFull Config.h2u s) fun tFull => .next (s.setPos (.s12 tFull))

/-- 1.2: poll the endpoint unless the buffer is full; a byte handed over is logged (R129). -/
def line12 (tFull : Bool) (s : State) : Out :=
  if tFull = true then .next (s.setPos (.s13 none))
  else
    match s.draws.poll with
    | some b => .next ({ s with usbInLog := s.usbInLog ++ [b] }.setPos (.s13 (some b)))
    | none => .next (s.setPos (.s13 none))

/-- 1.3: insert the byte, if any, and go on to step 2. -/
def line13 (tByte : Option Byte) (s : State) : Out :=
  match tByte with
  | some b => settle (opInsert Config.h2u b s) fun t => .next (t.setPos .s21)
  | none => .next (s.setPos .s21)

/-- BR_USB_RX (R130): the line of step 1 at which MAIN stands. -/
def execBrUsbRx (s : State) : Out :=
  match s.pos with
  | .s11 => line11 s
  | .s12 tFull => line12 tFull s
  | .s13 tByte => line13 tByte s
  | _ => .refused .notThisStep

/-! ## Step 2 (R131) -/

/-- The head of the batch loop: another round while `t_k > 0`, else step 3. -/
def batchPos (tK : Count Config.u2h) : Pos := if tK.toNat = 0 then .s31 else .s24 tK

/-- 2.1: `t_n <- COUNT U2H`. -/
def line21 (s : State) : Out := settle (opCount Config.u2h s) fun tN => .next (s.setPos (.s22 tN))

/-- 2.2: ask the endpoint for readiness if there is anything to send. -/
def line22 (tN : Count Config.u2h) (s : State) : Out :=
  .next (s.setPos (.s23 tN (if 0 < tN.toNat then s.draws.ready else false)))

/-- 2.3: the batch bound (R137). -/
def line23 (tN : Count Config.u2h) (tReady : Bool) (s : State) : Out :=
  .next (s.setPos (batchPos (if 0 < tN.toNat ∧ tReady = true then batchBound tN else 0)))

/-- 2.4: `t_byte <- PEEK U2H`. -/
def line24 (tK : Count Config.u2h) (s : State) : Out :=
  settle (opPeek Config.u2h s) fun b => .next (s.setPos (.s25 tK b))

/-- 2.5: offer the byte; one the USB stack took is logged (R129). -/
def line25 (tK : Count Config.u2h) (b : Byte) (s : State) : Out :=
  .next
    ({ s with usbOutLog := appendIf (s.draws.sent == SendResult.ok) s.usbOutLog b }.setPos (.s26 tK b s.draws.sent))

/-- 2.6: remove the byte only if it was taken; else abort the batch and keep it. -/
def line26 (tK : Count Config.u2h) (tRes : SendResult) (s : State) : Out :=
  if tRes = .ok then settle (opRemove Config.u2h s) fun r => .next (r.2.setPos (batchPos (tK - 1)))
  else .next (s.setPos (batchPos 0))

/-- BR_USB_TX (R131): the line of step 2 at which MAIN stands. -/
def execBrUsbTx (s : State) : Out :=
  match s.pos with
  | .s21 => line21 s
  | .s22 tN => line22 tN s
  | .s23 tN tReady => line23 tN tReady s
  | .s24 tK => line24 tK s
  | .s25 tK b => line25 tK b s
  | .s26 tK _ tRes => line26 tK tRes s
  | _ => .refused .notThisStep

/-! ## Step 3 (R132) -/

/-- 3.1: `t_ready <- UART_SEND_READY`. -/
def line31 (s : State) : Out := .next (s.setPos (.s32 s.sendReady))

/-- 3.2: `t_empty <- IS_EMPTY H2U` if the transmitter is ready, else 1. -/
def line32 (tReady : Bool) (s : State) : Out :=
  if tReady = true then settle (opIsEmpty Config.h2u s) fun tEmpty => .next (s.setPos (.s33 true tEmpty))
  else .next (s.setPos (.s33 false true))

/-- 3.3: dequeue one byte if the transmitter is ready and there is one. -/
def line33 (tReady tEmpty : Bool) (s : State) : Out :=
  if tReady = true ∧ tEmpty = false then
    settle (opRemove Config.h2u s) fun r => .next (r.2.setPos (.s34 (some r.1)))
  else .next (s.setPos (.s34 none))

/-- 3.4: send the byte, if any, and go on to step 4. -/
def line34 (tByte : Option Byte) (s : State) : Out :=
  match tByte with
  | some b => settle (opSend b s) fun t => .next (t.setPos .s41)
  | none => .next (s.setPos .s41)

/-- BR_UART_TX (R132): the line of step 3 at which MAIN stands. -/
def execBrUartTx (s : State) : Out :=
  match s.pos with
  | .s31 => line31 s
  | .s32 tReady => line32 tReady s
  | .s33 tReady tEmpty => line33 tReady tEmpty s
  | .s34 tByte => line34 tByte s
  | _ => .refused .notThisStep

/-! ## Step 4 (R133) -/

/-- 4.1: the USB task hands over its requests, and the first that is acceptable starts; with none the step is over. -/
def line41 (s : State) : Out := .next (handOver s.draws.events (s.setPos .s42))

/-- 4.2: the next phase of the RECONFIG under way; after the last request the sequencer is back at step 1 (R134). -/
def line42 (s : State) : Out := .next (engineAct s)

/-- BR_SERVICE (R133): the line of step 4 at which MAIN stands. -/
def execBrService (s : State) : Out :=
  match s.pos with
  | .s41 => line41 s
  | .s42 => line42 s
  | _ => .refused .notThisStep

end Sys2Proof.Machine
end

