-- ==== Sys2Proof/Machine/Fifo.lean ====
section
/-!
DEFINITION. The meanings of the eight format F operations (40_fifo_ops.md R82 to R89), presented as command words: each
is its shared operation, followed by the response R74 gives it. A select of 3 names no instance: the word is illegal
(R71, R75).
-/

namespace Sys2Proof.Machine

/-- Run an operation on the instance a select names; a select that names none makes the word illegal (R71, R75). -/
def onInstance (ff : BitVec 2) (i : Instr) (k : Inst → Out) : Out :=
  match instOfSelect ff with
  | some f => k f
  | none => .fault (.illegalCmd .F (encode i).bits)

/-- INIT f (R82); no response. -/
def execInit (ff : BitVec 2) (s : State) : Out :=
  onInstance ff (.init ff) fun f => settle (opInit f s) fun t => .next (t.respond none)

/-- INSERT f, b (R83); no response. -/
def execInsert (ff : BitVec 2) (b : Byte) (s : State) : Out :=
  onInstance ff (.insert ff b) fun f => settle (opInsert f b s) fun t => .next (t.respond none)

/-- REMOVE f (R84); the response is the byte. -/
def execRemove (ff : BitVec 2) (s : State) : Out :=
  onInstance ff (.remove ff) fun f =>
    settle (opRemove f s) fun r => .next (r.2.respond (some (Response.byte r.1)))

/-- PEEK f (R85); the response is the byte. -/
def execPeek (ff : BitVec 2) (s : State) : Out :=
  onInstance ff (.peek ff) fun f => settle (opPeek f s) fun b => .next (s.respond (some (Response.byte b)))

/-- IS_FULL f (R86); the response is one bit. -/
def execIsFull (ff : BitVec 2) (s : State) : Out :=
  onInstance ff (.isFull ff) fun f => settle (opIsFull f s) fun b => .next (s.respond (some (Response.bit b)))

/-- IS_EMPTY f (R87); the response is one bit. -/
def execIsEmpty (ff : BitVec 2) (s : State) : Out :=
  onInstance ff (.isEmpty ff) fun f => settle (opIsEmpty f s) fun b => .next (s.respond (some (Response.bit b)))

/-- COUNT f (R88); the response is the count. -/
def execCount (ff : BitVec 2) (s : State) : Out :=
  onInstance ff (.count ff) fun f => settle (opCount f s) fun n => .next (s.respond (some (Response.count f n)))

/-- FLUSH f (R89); no response. -/
def execFlush (ff : BitVec 2) (s : State) : Out :=
  onInstance ff (.flush ff) fun f => settle (opFlush f s) fun t => .next (t.respond none)

end Sys2Proof.Machine
end

