-- ==== Sys2Proof/Machine/Uart.lean ====
section
/-!
DEFINITION. The meanings of the three UART primitives (41_uart_reconfig.md R99 to R101) and of RECONFIG (R107),
presented as command words. None of them is checked for ownership: the fault OWNERSHIP speaks of operations on an
instance (R143), and R99, R101 and R107 give these no fault (DEDUCED, log 8).
-/

namespace Sys2Proof.Machine

/-- UART_SEND_READY (R99); the response is one bit. -/
def execUartSendReady (s : State) : Out := .next (s.respond (some (Response.bit s.sendReady)))

/-- UART_SEND b (R100); no response. -/
def execUartSend (b : Byte) (s : State) : Out := settle (opSend b s) fun t => .next (t.respond none)

/-- UART_RX_READ (R101); the response is the byte. -/
def execUartRxRead (s : State) : Out := .next ((rxRead s).2.respond (some (Response.byte (rxRead s).1)))

/-- RECONFIG req (R107); no response. This is the first action; MAIN runs the six phases (R112). -/
def execReconfig (req : LineReq) (s : State) : Out := .next ((requestReconfig req s).respond none)

end Sys2Proof.Machine
end

