-- ==== Sys2Proof/Machine/Dispatch.lean ====
section
/-!
DEFINITION. exec: one arm per instruction of spec/opcode_table.json, each one call of its meaning.
-/

namespace Sys2Proof.Machine

def exec (i : Instr) (s : State) : Host.Outcome State Fault Refusal :=
  match i with
  | .init ff => Sys2Proof.Machine.execInit ff s
  | .insert ff b => Sys2Proof.Machine.execInsert ff b s
  | .remove ff => Sys2Proof.Machine.execRemove ff s
  | .peek ff => Sys2Proof.Machine.execPeek ff s
  | .isFull ff => Sys2Proof.Machine.execIsFull ff s
  | .isEmpty ff => Sys2Proof.Machine.execIsEmpty ff s
  | .count ff => Sys2Proof.Machine.execCount ff s
  | .flush ff => Sys2Proof.Machine.execFlush ff s
  | .reconfig req => Sys2Proof.Machine.execReconfig req s
  | .uartSendReady => Sys2Proof.Machine.execUartSendReady s
  | .uartSend b => Sys2Proof.Machine.execUartSend b s
  | .uartRxRead => Sys2Proof.Machine.execUartRxRead s
  | .brUsbRx => Sys2Proof.Machine.execBrUsbRx s
  | .brUsbTx => Sys2Proof.Machine.execBrUsbTx s
  | .brUartTx => Sys2Proof.Machine.execBrUartTx s
  | .brService => Sys2Proof.Machine.execBrService s

end Sys2Proof.Machine
end

