-- ==== Sys2Proof/Machine/Agents.lean ====
section
/-!
DEFINITION. What each mover of a step does (00_scope.md R8, R9): MAIN, with boot (70_reset_and_hazards.md R169) and the
fetch of the sequencer's step; the receive handler (60_exceptions.md R151); the wire agents; a client's command; reset.
An agent that is not enabled does nothing: its turn passes (DESIGN CHOICE, log 3).
-/

namespace Sys2Proof.Machine

/-- Run the instruction of a presented word; an illegal word raises ILLEGAL_CMD (R75). -/
def runPresented (p : Presented) (s : State) : Out :=
  match decode p with
  | .ok i => exec i s
  | .error _ => .fault (.illegalCmd p.format p.bits)

/-- Boot, one line (R169): hardware init changes no state of the spec, then the three INITs, then step 1. -/
def bootAct (s : State) : Out :=
  match s.pos with
  | .b1 => .next (s.setPos .b2)
  | .b2 => settle (opInit .f0 s) fun t => .next (t.setPos .b3)
  | .b3 => settle (opInit .f1 s) fun t => .next (t.setPos .b4)
  | .b4 => settle (opInit .f2 s) fun t => .next (t.setPos .b5)
  | _ => .next (s.setPos .s11)

/-- One action of MAIN. While the handler runs there is none (R9); a reconfiguration under way is run to its end before
anything else (R122); else MAIN is in boot, or the sequencer fetches the step code of its position (R69). -/
def mainAct (s : State) : Out :=
  if s.ctx = .isr then .next s
  else if s.engine.isSome = true then .next (engineAct s)
  else
    match s.pos.code with
    | none => bootAct s
    | some c => runPresented (.stepCode c) s

/-- One action of the handler (R151): i.1 when the interrupt is requested and MAIN runs, i.2, i.3. -/
def isrAct (s : State) : Out :=
  match s.isr with
  | .idle => if s.ctx = .main ∧ s.irqRequested = true then .next (takeInterrupt s) else .next s
  | .gotByte b => settle (opIsFull Config.u2h s) fun full => .next { s with isr := .gotFull b full }
  | .gotFull b full =>
    if full = true then .next (returnFromInterrupt s)
    else settle (opInsert Config.u2h b s) fun t => .next (returnFromInterrupt t)

/-- One action of an agent (R8). -/
def agentAct (a : Agent) (s : State) : Out :=
  match a with
  | .main => mainAct s
  | .isr => isrAct s
  | .wireRx => .next (wireArrive s.draws.arrival s)
  | .wireTx => .next (wireFinish s)

/-- One action of whatever moves. -/
def moverAct (m : Mover) (s : State) : Out :=
  match m with
  | .agent a => agentAct a s
  | .command c => runPresented c.presented s
  | .reset => .next (resetEvent s)

/-- The outcome with its next state, if any, at the end of the step. -/
def advanced (o : Out) : Out :=
  match o with
  | .next s => .next s.advance
  | .fault e => .fault e
  | .refused r => .refused r

/-- The state in which the next step runs exactly the instruction of this presented word. A word of a port is presented
there by a client: one more input, in front of the others, with the answers this step would have had. A step code is the
sequencer's own: MAIN stands at the first line of that step, is running, and moves next (DESIGN CHOICE, log 4). -/
def present (p : Presented) (s : State) : State :=
  match p with
  | .fifoPort w => { s with inputs := ⟨.command (.fifo w), s.draws⟩ :: s.inputs }
  | .uartShim w => { s with inputs := ⟨.command (.uart w), s.draws⟩ :: s.inputs }
  | .engine w => { s with inputs := ⟨.command (.engine w), s.draws⟩ :: s.inputs }
  | .stepCode c =>
    { s with
      pos := firstLine c
      engine := none
      ctx := .main
      isr := .idle
      inputs := ⟨.agent .main, s.draws⟩ :: s.inputs }

end Sys2Proof.Machine
end

