-- ==== Sys2Proof/Machine/Step.lean ====
section
/-!
DEFINITION. One step of the machine: one atomic action (00_scope.md R9) of whatever moves next, and after it the end of
the step's input.
-/

namespace Sys2Proof.Machine

/-- One step (R9, R10). -/
def step (s : State) : Host.Outcome State Fault Refusal := advanced (moverAct s.mover s)

/-- `s` with the instruction of this opcode-table word presented so that the next step runs exactly it. A number that is
no word of the table's widths is presented nowhere. -/
def State.withFetchWord (s : State) (nbits w : Nat) : State :=
  match tablePresented nbits w with
  | some p => present p s
  | none => s

end Sys2Proof.Machine
end

