-- ==== Sys2Proof/Safety.lean ====
section
/-!
DEFINITION. The terms claims use: the invariant every step keeps (`State.Inv`), the stronger invariant the spec's own
agents keep and under which they raise no fault (`State.AgentInv`, 60_exceptions.md R148), what an action leaves
unchanged, and the bytes the bridge holds for each side (42_bridge_sequencer.md R140).
-/

namespace Sys2Proof.Machine

/-! ## The invariant every step keeps -/

/-- What holds of an instance in every run (R16 to R19, and the canonical form of its storage). That its cursors lie in
`0 .. CAP - 1` (R17) is a fact of their width. -/
structure Fifo.Ok {f : Inst} (q : Fifo f) : Prop where
  /-- The storage is in its canonical form. -/
  wf : q.mem.wf = true
  /-- No cell outside the array holds a value (R45). -/
  within : q.mem.within (Config.cap f) = true
  /-- Before INIT no cell holds a value: only INSERT gives one, and it needs INIT (R15, R81). -/
  fresh : q.inited = false → q.mem = []
  /-- `0 <= count <= CAP` (R16). -/
  countLe : q.inited = true → q.count.toNat ≤ Config.cap f
  /-- `wr = (rd + count) mod CAP` (R18). -/
  wrEq : q.inited = true → q.wr.toNat = (q.rd.toNat + q.count.toNat) % Config.cap f
  /-- Every cell named in the content holds a value (R19). -/
  held : q.inited = true → ∀ k, k < q.count.toNat → (q.mem.read ((q.rd.toNat + k) % Config.cap f)).isSome = true

/-- The UART registers hold the configuration of the last applied record (R119), or with none applied since reset the
disabled state (R171). -/
def State.Settled (s : State) : Prop :=
  match s.le with
  | none => s.ctrlA = 0 ∧ s.ctrlB = 0 ∧ s.ctrlC = 0 ∧ s.div = 0
  | some r => s.ctrlA = enableA ∧ s.ctrlB = enableB ∧ s.ctrlC = frameMask r ∧ s.div = divValue r

/-- What `txhold` and the UART registers hold at each phase of the engine (R113 to R118): the line is held from phase 1
on and released by phase 6; the UART is disabled between phase 2 and phase 5. -/
def State.RegistersFollow (s : State) : Prop :=
  match s.engine with
  | none => s.txhold = false ∧ s.Settled
  | some (.p1, _) => s.txhold = false ∧ s.Settled
  | some (.p2, _) => s.txhold = true ∧ s.Settled
  | some (.p3, _) => s.txhold = true ∧ s.ctrlA = 0 ∧ s.ctrlB = 0 ∧ s.ctrlC = 0
  | some (.p4, r) => s.txhold = true ∧ s.ctrlA = 0 ∧ s.ctrlB = 0 ∧ s.ctrlC = 0 ∧ s.div = divValue r
  | some (.p5, r) => s.txhold = true ∧ s.ctrlA = 0 ∧ s.ctrlB = 0 ∧ s.ctrlC = frameMask r ∧ s.div = divValue r
  | some (.p6, r) =>
    s.txhold = true ∧ s.ctrlA = enableA ∧ s.ctrlB = enableB ∧ s.ctrlC = frameMask r ∧ s.div = divValue r

/-- The invariant every step keeps, whatever moves: an agent, a client's command or reset. -/
structure State.Inv (s : State) : Prop where
  /-- Each instance is in order. -/
  fifos : ∀ f, (s.fifo f).Ok
  /-- The registers are those of the engine's position. -/
  registers : s.RegistersFollow
  /-- The record being applied was accepted (R108). -/
  engineAccepted : ∀ p r, s.engine = some (p, r) → accept r = true
  /-- The record last applied was accepted (R108). -/
  leAccepted : ∀ r, s.le = some r → accept r = true
  /-- No request waits while the engine is idle (R122, R135). -/
  idleEvs : s.engine = none → s.evs = []
  /-- MAIN stands at 4.2 only while a reconfiguration is under way. -/
  at42 : s.pos = .s42 → s.engine.isSome = true
  /-- `ctx = ISR` exactly from the handler's entry to its return (R40). -/
  handler : s.ctx = .isr ↔ s.isr ≠ .idle

/-! ## The invariant of the spec's own agents (R148) -/

/-- Which instances INIT has run on, at each position (R169). -/
def State.InitsFollow (s : State) : Prop :=
  match s.pos with
  | .b1 => s.fifo0.inited = false ∧ s.fifo1.inited = false ∧ s.fifo2.inited = false
  | .b2 => s.fifo0.inited = false ∧ s.fifo1.inited = false ∧ s.fifo2.inited = false
  | .b3 => s.fifo0.inited = true ∧ s.fifo1.inited = false ∧ s.fifo2.inited = false
  | .b4 => s.fifo0.inited = true ∧ s.fifo1.inited = true ∧ s.fifo2.inited = false
  | _ => s.fifo0.inited = true ∧ s.fifo1.inited = true ∧ s.fifo2.inited = true

/-- What the sequencer's locals promise at each position: what was observed still holds (R56, R57, R99). -/
def State.LocalsHold (s : State) : Prop :=
  match s.pos with
  | .s12 tFull => tFull = false → (s.fifo Config.h2u).count.toNat < Config.cap Config.h2u
  | .s13 tByte => tByte.isSome = true → (s.fifo Config.h2u).count.toNat < Config.cap Config.h2u
  | .s22 tN => tN.toNat ≤ (s.fifo Config.u2h).count.toNat
  | .s23 tN _ => tN.toNat ≤ (s.fifo Config.u2h).count.toNat
  | .s24 tK => 0 < tK.toNat ∧ tK.toNat ≤ (s.fifo Config.u2h).count.toNat
  | .s25 tK b => 0 < tK.toNat ∧ tK.toNat ≤ (s.fifo Config.u2h).count.toNat ∧ (s.content Config.u2h).head? = some b
  | .s26 tK b _ => 0 < tK.toNat ∧ tK.toNat ≤ (s.fifo Config.u2h).count.toNat ∧ (s.content Config.u2h).head? = some b
  | .s32 tReady => tReady = true → s.sendReady = true
  | .s33 tReady tEmpty =>
    tReady = true → s.sendReady = true ∧ (tEmpty = false → 0 < (s.fifo Config.h2u).count.toNat)
  | .s34 tByte => tByte.isSome = true → s.sendReady = true
  | _ => True

/-- The invariant of runs in which only the spec's agents and reset move: under it no agent raises a fault (R148). -/
structure State.AgentInv (s : State) : Prop where
  /-- It includes the invariant every step keeps. -/
  inv : s.Inv
  /-- Boot initialises the instances one by one (R169). -/
  inits : s.InitsFollow
  /-- Until boot is over no request is applied, so no interrupt can be requested (R170). -/
  bootQuiet : s.booting = true → s.engine = none ∧ s.le = none ∧ s.ctx = .main
  /-- The locals' promises hold. -/
  locals : s.LocalsHold
  /-- The handler, having seen room, still has it (R151). -/
  handlerRoom : ∀ b, s.isr = .gotFull b false → (s.fifo Config.u2h).count.toNat < Config.cap Config.u2h
  /-- The engine runs inside step 4 only (R8, R107). -/
  engineAt42 : s.engine.isSome = true → s.pos = .s42

/-! ## What an action leaves unchanged -/

/-- Every byte of every storage array reads as before. -/
def SameStorage (s t : State) : Prop :=
  ∀ g a, (t.fifo g).mem.read a = (s.fifo g).mem.read a

/-- Every instance but `f` is unchanged: storage, cursors, count and `inited` (R81). -/
def SameOtherFifos (f : Inst) (s t : State) : Prop :=
  ∀ g, g ≠ f → t.fifo g = s.fifo g

/-- Every instance is unchanged. -/
def SameFifos (s t : State) : Prop :=
  ∀ g, t.fifo g = s.fifo g

/-- The control registers, the divisor, the hold and the line-encoding register are unchanged. -/
def SameConfiguration (s t : State) : Prop :=
  t.ctrlA = s.ctrlA ∧ t.ctrlB = s.ctrlB ∧ t.ctrlC = s.ctrlC ∧ t.div = s.div ∧ t.txhold = s.txhold ∧ t.le = s.le

/-- The receive side of DATA is unchanged. -/
def SameReceiver (s t : State) : Prop :=
  t.rxdata = s.rxdata ∧ t.rxc = s.rxc ∧ t.rxerr = s.rxerr

/-- The whole UART is unchanged. -/
def SameUart (s t : State) : Prop :=
  SameConfiguration s t ∧ SameReceiver s t ∧ t.txshift = s.txshift

/-- The engine and the requests that wait for it are unchanged. -/
def SameEngine (s t : State) : Prop :=
  t.engine = s.engine ∧ t.evs = s.evs

/-- The running context and the handler are unchanged. -/
def SameContext (s t : State) : Prop :=
  t.ctx = s.ctx ∧ t.isr = s.isr

/-- The position of MAIN, the engine, the context and the handler are unchanged. -/
def SameControl (s t : State) : Prop :=
  t.pos = s.pos ∧ SameEngine s t ∧ SameContext s t

/-- The four traces are unchanged. -/
def SameTraces (s t : State) : Prop :=
  t.usbInLog = s.usbInLog ∧ t.usbOutLog = s.usbOutLog ∧ t.wireInLog = s.wireInLog ∧ t.wireOutLog = s.wireOutLog

/-- The inputs still to come and the step's number are unchanged. -/
def SameEnvironment (s t : State) : Prop :=
  t.inputs = s.inputs ∧ t.tick = s.tick

/-- The frame of an operation on instance `f`: everything but that instance and the response. -/
def FifoFrame (f : Inst) (s t : State) : Prop :=
  SameOtherFifos f s t ∧ SameUart s t ∧ SameControl s t ∧ SameTraces s t ∧ SameEnvironment s t

/-! ## The bytes the bridge holds (R140) -/

/-- What the wire has given the USB host's side, in order: the bytes the USB stack took, then the content of `U2H`, less
its first byte while that byte is taken and not yet removed (between 2.5 and 2.6). -/
def State.towardsHost (s : State) : List Byte :=
  match s.pos with
  | .s26 _ _ .ok => s.usbOutLog ++ (s.content Config.u2h).tail
  | _ => s.usbOutLog ++ s.content Config.u2h

/-- The bytes taken from the USB host and not yet given to the transmitter, oldest first: the one dequeued at 3.3, the
content of `H2U`, the one received at 1.2. -/
def State.towardsWire (s : State) : List Byte :=
  match s.pos with
  | .s34 (some b) => b :: s.content Config.h2u
  | .s13 (some b) => s.content Config.h2u ++ [b]
  | _ => s.content Config.h2u

/-! ## Runs of instructions and of inputs -/

/-- Execute a list of instructions one after the other, with nothing in between. -/
def execAll (is : List Instr) (s : State) : Out :=
  match is with
  | [] => .next s
  | i :: rest =>
    match exec i s with
    | .next t => execAll rest t
    | .fault e => .fault e
    | .refused r => .refused r

/-- The inputs in which one agent moves with each of these answers in turn. -/
def turns (a : Agent) (ds : List Draws) : List Input := ds.map (fun d => ⟨.agent a, d⟩)

end Sys2Proof.Machine
end

