-- ==== Sys2Proof/Certificates/Slice0/Obligations.lean ====
section
/-!
DEFINITION. The statements for the provers: each is a Prop, named by what it states, and formalises or follows from the
rules of spec/ its docstring names. `exec` runs one instruction, `step` one atomic action of the whole machine,
`Host.Core.run Sys2Proof.core n` runs n of them.
-/

open Sys2Proof Sys2Proof.Machine

/-! ## Reset and boot -/

/-- R167: the state after reset, every element the rule gives a value. -/
def Obligations.ResetLeavesTheUartDisabledAndNothingInitialised : Prop :=
  (∀ f, (State.reset.fifo f).inited = false ∧ ∀ a, (State.reset.fifo f).mem.read a = none) ∧
    State.reset.ctrlA = 0 ∧ State.reset.ctrlB = 0 ∧ State.reset.ctrlC = 0 ∧ State.reset.div = 0 ∧
    State.reset.rxc = false ∧ State.reset.rxerr = false ∧ State.reset.txshift = none ∧
    State.reset.txhold = false ∧ State.reset.le = none ∧ State.reset.pos.stepNo = none ∧ State.reset.pos = .b1 ∧
    State.reset.ctx = .main ∧ State.reset.rxcie = false ∧
    State.reset.usbInLog = [] ∧ State.reset.usbOutLog = [] ∧
    State.reset.wireInLog = [] ∧ State.reset.wireOutLog = []

/-- R166, R168: the reset event puts every state element at its reset value, from whatever state; only the inputs still
to come and the step's number, which are the model's own (log 2, log 24), go on. -/
def Obligations.ResetEventRestoresEveryElement : Prop :=
  ∀ s : State, s.mover = .reset →
    step s = .next { State.reset with inputs := s.inputs.tail, tick := s.tick + 1 }

/-- R169: five actions of MAIN from reset initialise the three instances and bring the sequencer to step 1; everything
else is as after reset (test vector V-Z2). -/
def Obligations.BootInitialisesAndReachesStepOne : Prop :=
  ∀ (ds : List Draws) (rest : List Input), ds.length = 5 →
    ∃ t, Host.Core.run Sys2Proof.core 5 { State.reset with inputs := turns .main ds ++ rest } = .next t ∧
      (∀ f, (t.fifo f).inited = true ∧ (t.fifo f).count = 0 ∧ (t.fifo f).wr = 0 ∧ (t.fifo f).rd = 0) ∧
      SameStorage State.reset t ∧ t.pos = .s11 ∧ SameUart State.reset t ∧ SameEngine State.reset t ∧
      SameContext State.reset t ∧ SameTraces State.reset t ∧ t.inputs = rest

/-! ## The ring-buffer operations: when they complete, and what they leave unchanged -/

/-- R82, R160: INIT f by boot on an instance not yet initialised. -/
def Obligations.InitEmptiesTheInstance : Prop :=
  ∀ (f : Inst) (s : State), (s.fifo f).inited = false → s.ctx = .main → s.booting = true → s.rxcie = false →
    ∃ t, exec (.init (selectOf f)) s = .next t ∧
      (t.fifo f).count = 0 ∧ (t.fifo f).wr = 0 ∧ (t.fifo f).rd = 0 ∧ (t.fifo f).inited = true ∧
      t.empty f = true ∧ t.full f = false ∧ SameStorage s t ∧ FifoFrame f s t ∧ t.resp = none

/-- R83, the accepting arm: INSERT by the producer on an instance that is not full writes the cell at the write cursor,
advances the cursor and increments the count, which below the capacity does not wrap; every other byte of storage and
every other element is unchanged. -/
def Obligations.InsertStoresAtTheWriteCursor : Prop :=
  ∀ (f : Inst) (b : Byte) (s : State), (s.fifo f).inited = true → producer f = some s.ctx →
    (s.fifo f).count.toNat ≠ Config.cap f →
    ∃ t, exec (.insert (selectOf f) b) s = .next t ∧
      (t.fifo f).mem.read (s.fifo f).wr.toNat = some b ∧
      (t.fifo f).wr.toNat = ((s.fifo f).wr.toNat + 1) % Config.cap f ∧ (t.fifo f).count = (s.fifo f).count + 1 ∧
      ((s.fifo f).count.toNat < Config.cap f →
        (t.fifo f).count.toNat = (s.fifo f).count.toNat + 1 ∧ t.empty f = false) ∧
      (t.fifo f).rd = (s.fifo f).rd ∧ (t.fifo f).inited = true ∧
      (t.full f = true ↔ (s.fifo f).count.toNat + 1 = Config.cap f) ∧
      (∀ g a, ¬(g = f ∧ a = (s.fifo f).wr.toNat) → (t.fifo g).mem.read a = (s.fifo g).mem.read a) ∧
      FifoFrame f s t ∧ t.resp = none

/-- R83, the other arm (90_conflicts.md C1): INSERT by the producer on a full instance completes and changes nothing. -/
def Obligations.InsertOnFullCompletesWithoutEffect : Prop :=
  ∀ (f : Inst) (b : Byte) (s : State), (s.fifo f).inited = true → producer f = some s.ctx →
    (s.fifo f).count.toNat = Config.cap f →
    exec (.insert (selectOf f) b) s = .next { s with resp := none }

/-- R20: a full instance never accepts an INSERT and an empty one never yields a REMOVE, whoever issues it. -/
def Obligations.FullAcceptsNothingEmptyYieldsNothing : Prop :=
  ∀ (f : Inst) (b : Byte) (s t : State),
    ((s.fifo f).count.toNat = Config.cap f → exec (.insert (selectOf f) b) s = .next t → t = { s with resp := none }) ∧
    ((s.fifo f).count.toNat = 0 → exec (.remove (selectOf f)) s ≠ .next t)

/-- R84: REMOVE by the consumer of a non-empty instance returns the byte at the read cursor, advances the cursor and
decrements the count; the cell keeps its byte (R15). -/
def Obligations.RemoveReturnsTheByteAtTheReadCursor : Prop :=
  ∀ (f : Inst) (v : Byte) (s : State), (s.fifo f).inited = true → consumer f = some s.ctx →
    (s.fifo f).count.toNat ≠ 0 → (s.fifo f).mem.read (s.fifo f).rd.toNat = some v →
    ∃ t, exec (.remove (selectOf f)) s = .next t ∧ t.resp = some ⟨8, v.toNat⟩ ∧
      (t.fifo f).rd.toNat = ((s.fifo f).rd.toNat + 1) % Config.cap f ∧
      (t.fifo f).count = (s.fifo f).count - 1 ∧ (t.fifo f).count.toNat = (s.fifo f).count.toNat - 1 ∧
      (t.fifo f).wr = (s.fifo f).wr ∧ (t.fifo f).inited = true ∧
      (t.empty f = true ↔ (s.fifo f).count.toNat = 1) ∧
      ((s.fifo f).count.toNat ≤ Config.cap f → t.full f = false) ∧
      SameStorage s t ∧ FifoFrame f s t

/-- R85: PEEK returns the byte REMOVE would return and changes nothing but the response. -/
def Obligations.PeekReturnsTheByteAndChangesNothing : Prop :=
  ∀ (f : Inst) (v : Byte) (s : State), (s.fifo f).inited = true → consumer f = some s.ctx →
    (s.fifo f).count.toNat ≠ 0 → (s.fifo f).mem.read (s.fifo f).rd.toNat = some v →
    exec (.peek (selectOf f)) s = .next { s with resp := some ⟨8, v.toNat⟩ }

/-- R86, R87, R88: the three queries complete in either context on an initialised instance, answer from the count, and
change nothing but the response. -/
def Obligations.QueriesAnswerFromTheCount : Prop :=
  ∀ (f : Inst) (s : State), (s.fifo f).inited = true →
    exec (.isFull (selectOf f)) s =
        .next { s with resp := some ⟨1, if (s.fifo f).count.toNat = Config.cap f then 1 else 0⟩ } ∧
      exec (.isEmpty (selectOf f)) s = .next { s with resp := some ⟨1, if (s.fifo f).count.toNat = 0 then 1 else 0⟩ } ∧
      exec (.count (selectOf f)) s =
        .next { s with resp := some ⟨match f with | .f0 => 9 | .f1 => 8 | .f2 => 8, (s.fifo f).count.toNat⟩ }

/-- R91: IS_FULL answers 1 exactly when the content is as long as the capacity, IS_EMPTY exactly when it is empty. -/
def Obligations.FlagsSpeakOfTheContent : Prop :=
  ∀ (f : Inst) (s : State), (s.fifo f).Ok → (s.fifo f).inited = true →
    (∃ t, exec (.isFull (selectOf f)) s = .next t ∧
      (t.resp = some ⟨1, 1⟩ ↔ (s.fifo f).count.toNat = Config.cap f) ∧
      (t.resp = some ⟨1, 1⟩ ↔ (s.content f).length = Config.cap f)) ∧
    (∃ t, exec (.isEmpty (selectOf f)) s = .next t ∧
      (t.resp = some ⟨1, 1⟩ ↔ (s.fifo f).count.toNat = 0) ∧
      (t.resp = some ⟨1, 1⟩ ↔ s.content f = []))

/-- R89: FLUSH by the consumer moves the read cursor to the write cursor and clears the count; the cells keep their
bytes. -/
def Obligations.FlushDiscardsTheContent : Prop :=
  ∀ (f : Inst) (s : State), (s.fifo f).inited = true → consumer f = some s.ctx →
    ∃ t, exec (.flush (selectOf f)) s = .next t ∧
      (t.fifo f).rd = (s.fifo f).wr ∧ (t.fifo f).count = 0 ∧ (t.fifo f).wr = (s.fifo f).wr ∧
      (t.fifo f).inited = true ∧ t.empty f = true ∧ t.full f = false ∧
      SameStorage s t ∧ FifoFrame f s t ∧ t.resp = none

/-! ## The ring-buffer operations: where they trap -/

/-- R81, R145: every operation but INIT on an instance INIT has not run on raises NOT_INIT. That it is reported also to a
context the ownership table does not name is the model's order of the checks (DEDUCED, log 6). -/
def Obligations.UninitialisedInstanceFaults : Prop :=
  ∀ (f : Inst) (b : Byte) (s : State), (s.fifo f).inited = false →
    exec (.insert (selectOf f) b) s = .fault (.notInit f) ∧ exec (.remove (selectOf f)) s = .fault (.notInit f) ∧
      exec (.peek (selectOf f)) s = .fault (.notInit f) ∧ exec (.isFull (selectOf f)) s = .fault (.notInit f) ∧
      exec (.isEmpty (selectOf f)) s = .fault (.notInit f) ∧ exec (.count (selectOf f)) s = .fault (.notInit f) ∧
      exec (.flush (selectOf f)) s = .fault (.notInit f)

/-- R82, R143, R160: a second INIT raises REINIT; an INIT on an uninitialised instance outside boot, or with the interrupt
enabled, raises OWNERSHIP. -/
def Obligations.InitOutOfPlaceFaults : Prop :=
  ∀ (f : Inst) (s : State),
    ((s.fifo f).inited = true → exec (.init (selectOf f)) s = .fault (.reinit f)) ∧
    ((s.fifo f).inited = false → (s.ctx = .isr ∨ s.booting = false ∨ s.rxcie = true) →
      exec (.init (selectOf f)) s = .fault (.ownership f .init s.ctx))

/-- R144: REMOVE and PEEK by the consumer of an empty instance raise UNDERFLOW. -/
def Obligations.EmptyInstanceUnderflows : Prop :=
  ∀ (f : Inst) (s : State), (s.fifo f).inited = true → consumer f = some s.ctx → (s.fifo f).count.toNat = 0 →
    exec (.remove (selectOf f)) s = .fault (.underflow f .remove) ∧
      exec (.peek (selectOf f)) s = .fault (.underflow f .peek)

/-- R160, R161: an operation on an initialised instance by a context the table does not give it raises OWNERSHIP. That
OWNERSHIP is reported also where the instance is empty, or its cell holds no value, and R84, R85 or R48 give a fault of
their own, is the model's order of the checks (DEDUCED, log 6). -/
def Obligations.ForeignContextFaults : Prop :=
  ∀ (f : Inst) (b : Byte) (s : State), (s.fifo f).inited = true →
    (producer f ≠ some s.ctx → exec (.insert (selectOf f) b) s = .fault (.ownership f .insert s.ctx)) ∧
    (consumer f ≠ some s.ctx →
      exec (.remove (selectOf f)) s = .fault (.ownership f .remove s.ctx) ∧
        exec (.peek (selectOf f)) s = .fault (.ownership f .peek s.ctx) ∧
        exec (.flush (selectOf f)) s = .fault (.ownership f .flush s.ctx))

/-- R48: REMOVE and PEEK of a cell that holds no value raise UNWRITTEN_CELL. -/
def Obligations.ValuelessCellFaults : Prop :=
  ∀ (f : Inst) (s : State), (s.fifo f).inited = true → consumer f = some s.ctx → (s.fifo f).count.toNat ≠ 0 →
    (s.fifo f).mem.read (s.fifo f).rd.toNat = none →
    exec (.remove (selectOf f)) s = .fault (.unwrittenCell f (s.fifo f).rd.toNat) ∧
      exec (.peek (selectOf f)) s = .fault (.unwrittenCell f (s.fifo f).rd.toNat)

/-- R14, R17, R50, R51: `AW` is the least width that holds every index of the array and `CW` the least that holds every
count from 0 to the capacity; in every state both cursors lie inside the array, so no access outside it can be formed,
and a cursor advances modulo the capacity. -/
def Obligations.CursorsCannotLeaveTheArray : Prop :=
  ∀ f : Inst,
    (Config.cap f ≤ 2 ^ Config.aw f ∧ ∀ k, Config.cap f ≤ 2 ^ k → Config.aw f ≤ k) ∧
    (Config.cap f + 1 ≤ 2 ^ Config.cw f ∧ ∀ k, Config.cap f + 1 ≤ 2 ^ k → Config.cw f ≤ k) ∧
    (∀ s : State, (s.fifo f).wr.toNat < Config.cap f ∧ (s.fifo f).rd.toNat < Config.cap f) ∧
    ∀ c : Cursor f, (nextCursor f c).toNat = (c.toNat + 1) % Config.cap f

/-! ## The laws of the ring buffer -/

/-- R90: on an instance in order, an accepted INSERT appends to the content, REMOVE returns its head and leaves its tail,
PEEK returns the head and leaves the content, FLUSH leaves it empty, the queries and an INSERT on a full instance leave
it. -/
def Obligations.ContentIsAQueue : Prop :=
  ∀ (f : Inst) (b : Byte) (s t : State), (s.fifo f).Ok → (s.fifo f).inited = true →
    (exec (.insert (selectOf f) b) s = .next t →
      t.content f = if (s.content f).length = Config.cap f then s.content f else s.content f ++ [b]) ∧
    (exec (.remove (selectOf f)) s = .next t →
      ∃ v, s.content f = v :: t.content f ∧ t.resp = some ⟨8, v.toNat⟩) ∧
    (exec (.peek (selectOf f)) s = .next t →
      t.content f = s.content f ∧ ∃ v, (s.content f).head? = some v ∧ t.resp = some ⟨8, v.toNat⟩) ∧
    (exec (.flush (selectOf f)) s = .next t → t.content f = []) ∧
    (exec (.isFull (selectOf f)) s = .next t ∨ exec (.isEmpty (selectOf f)) s = .next t ∨
        exec (.count (selectOf f)) s = .next t →
      t.content f = s.content f)

/-- R92, R96: a row of INSERTs by the producer completes, whatever its length; what the instance then holds is the first
CAP bytes of its old content followed by the bytes inserted, and the count stays at the capacity once it is there. -/
def Obligations.OverflowKeepsTheFirstBytes : Prop :=
  ∀ (f : Inst) (bs : List Byte) (s : State), (s.fifo f).Ok → (s.fifo f).inited = true → producer f = some s.ctx →
    ∃ t, execAll (bs.map (fun b => .insert (selectOf f) b)) s = .next t ∧
      t.content f = (s.content f ++ bs).take (Config.cap f) ∧
      (t.fifo f).count.toNat = min (Config.cap f) ((s.fifo f).count.toNat + bs.length) ∧
      (t.fifo f).Ok ∧ SameOtherFifos f s t ∧ SameTraces s t

/-- R96, R90: up to `count` REMOVEs by the consumer complete; they take the content away from its front, and the last of
them returns the last byte taken. -/
def Obligations.DrainReturnsBytesInOrder : Prop :=
  ∀ (f : Inst) (n : Nat) (s : State), (s.fifo f).Ok → (s.fifo f).inited = true → consumer f = some s.ctx →
    n ≤ (s.fifo f).count.toNat →
    ∃ t, execAll (List.replicate n (.remove (selectOf f))) s = .next t ∧
      t.content f = (s.content f).drop n ∧ (t.fifo f).count.toNat = (s.fifo f).count.toNat - n ∧
      (0 < n → ∃ v, (s.content f)[n - 1]? = some v ∧ t.resp = some ⟨8, v.toNat⟩)

/-! ## The UART primitives and the wire -/

/-- R98, R99: UART_SEND_READY answers 1 exactly when the transmitter is enabled and idle, and changes nothing but the
response. -/
def Obligations.SendReadyAnswersEnabledAndIdle : Prop :=
  ∀ s : State,
    exec .uartSendReady s =
      .next { s with resp := some ⟨1, if s.txen = true ∧ s.txshift = none then 1 else 0⟩ }

/-- R100: UART_SEND by a ready transmitter starts the byte and changes nothing else; otherwise it raises TX_NOT_READY
(R146). -/
def Obligations.SendStartsTheByteOrFaults : Prop :=
  ∀ (b : Byte) (s : State),
    (s.txen = true → s.txshift = none → exec (.uartSend b) s = .next { s with txshift := some b, resp := none }) ∧
    (s.txen = false ∨ s.txshift ≠ none → exec (.uartSend b) s = .fault .txNotReady)

/-- R101: UART_RX_READ completes in every state, clears `rxc` and `rxerr`, and returns the received byte; with nothing
received it returns some byte. Everything else is unchanged, and the interrupt is no longer requested (R150). -/
def Obligations.RxReadReturnsTheByteAndClearsTheFlags : Prop :=
  ∀ s : State, ∃ (t : State) (v : Byte), exec .uartRxRead s = .next t ∧
    t = { s with rxc := false, rxerr := false, resp := some ⟨8, v.toNat⟩ } ∧
    (s.rxc = true → v = s.rxdata) ∧ t.irqRequested = false

/-- R103: when ENV_WIRE_TX moves, the byte in transmission reaches `wire_out_log` unless the line is held, when it does
or does not; the transmitter is then idle. With no byte in transmission nothing happens (log 3). -/
def Obligations.TransmitterFinishesItsByte : Prop :=
  ∀ s : State, s.mover = .agent .wireTx →
    (s.txshift = none → step s = .next s.advance) ∧
    (∀ b, s.txshift = some b → s.txhold = false →
      step s = .next { s.advance with txshift := none, wireOutLog := s.wireOutLog ++ [b] }) ∧
    (∀ b, s.txshift = some b → s.txhold = true →
      step s = .next { s.advance with txshift := none, wireOutLog := s.wireOutLog ++ [b] } ∨
        step s = .next { s.advance with txshift := none })

/-- R104, R105, R106: when ENV_WIRE_RX moves, an enabled receiver with room accepts the byte and logs it; without room
it sets `rxerr` and loses it; a disabled receiver ignores it. -/
def Obligations.ArrivalIsAcceptedOverrunOrIgnored : Prop :=
  ∀ s : State, s.mover = .agent .wireRx →
    (s.rxen = true → s.rxc = false →
      step s = .next { s.advance with
        rxdata := s.draws.arrival, rxc := true, wireInLog := s.wireInLog ++ [s.draws.arrival] }) ∧
    (s.rxen = true → s.rxc = true → step s = .next { s.advance with rxerr := true }) ∧
    (s.rxen = false → step s = .next s.advance)

/-! ## The reconfiguration engine -/

/-- R108: the acceptance test, and that a rejected request presented to an idle engine changes no state element. -/
def Obligations.RejectedRequestChangesNothing : Prop :=
  ∀ r : LineReq,
    (accept r = true ↔
      (r.parity = .noParity ∨ r.parity = .odd ∨ r.parity = .even) ∧
        (r.data = 5 ∨ r.data = 6 ∨ r.data = 7 ∨ r.data = 8) ∧ r.baud ≠ 0 ∧
        1 ≤ (Config.fClk / 8 + r.baud.toNat / 2) / r.baud.toNat ∧
        (Config.fClk / 8 + r.baud.toNat / 2) / r.baud.toNat ≤ 2 ^ 12) ∧
    ∀ s : State, accept r = false → s.engine = none → exec (.reconfig r) s = .next { s with resp := none }

/-- R107: an accepted request presented to an idle engine sets `le_req` and `phase`, and nothing else; one presented
while a reconfiguration is under way waits behind those already waiting (R122, log 10). -/
def Obligations.AcceptedRequestStartsTheEngine : Prop :=
  ∀ (r : LineReq) (s : State),
    (accept r = true → s.engine = none →
      exec (.reconfig r) s = .next { s with engine := some (.p1, r), resp := none }) ∧
    (s.engine ≠ none → exec (.reconfig r) s = .next { s with evs := s.evs ++ [r], resp := none })

/-- R113 to R117: when MAIN moves with phase 1, 3, 4 or 5 next, exactly the registers of that phase are written and the
next phase follows; nothing else changes. -/
def Obligations.PhasesWriteTheirRegisters : Prop :=
  ∀ (r : LineReq) (s : State), s.mover = .agent .main → s.ctx = .main →
    (s.engine = some (.p1, r) →
      step s = .next { s.advance with txhold := true, engine := some (.p2, r) }) ∧
    (s.engine = some (.p3, r) →
      step s = .next { s.advance with
        div := BitVec.ofNat 12 ((Config.fClk / 8 + r.baud.toNat / 2) / r.baud.toNat - 1), engine := some (.p4, r) }) ∧
    (s.engine = some (.p4, r) →
      step s = .next { s.advance with ctrlC := frameMask r, engine := some (.p5, r) }) ∧
    (s.engine = some (.p5, r) →
      step s = .next { s.advance with ctrlA := 0x02, ctrlB := 0x98, engine := some (.p6, r) })

/-- R114, R121: phase 2 clears the three control registers and the receive flags and empties the transmitter; whether the
byte that was in it reaches `wire_out_log` is open, and DIV and everything else keep their values. -/
def Obligations.PhaseTwoDisablesTheUart : Prop :=
  ∀ (r : LineReq) (s : State), s.mover = .agent .main → s.ctx = .main → s.engine = some (.p2, r) →
    ∃ log, step s = .next { s.advance with
        ctrlA := 0, ctrlB := 0, ctrlC := 0, rxc := false, rxerr := false, txshift := none, wireOutLog := log,
        engine := some (.p3, r) } ∧
      (log = s.wireOutLog ∨ ∃ b, s.txshift = some b ∧ log = s.wireOutLog ++ [b])

/-- R118, R133, R134, R135: phase 6 releases the hold and records the request in `le`; then the requests that wait are
taken in order: those R108 rejects are passed over and the first acceptable one starts; with none acceptable the engine
is idle, and MAIN, if it stands in step 4, is back at step 1. -/
def Obligations.PhaseSixReleasesAndTakesTheNextRequest : Prop :=
  ∀ (r x : LineReq) (pre rest : List LineReq) (s : State), s.mover = .agent .main → s.ctx = .main →
    s.engine = some (.p6, r) → (∀ y ∈ pre, accept y = false) →
    (s.evs = pre ++ x :: rest → accept x = true →
      step s = .next { s.advance with
        txhold := false, le := some r, engine := some (.p1, x), evs := rest }) ∧
    (s.evs = pre →
      step s = .next { s.advance with
        txhold := false, le := some r, engine := none, evs := [],
        pos := if s.pos = .s42 then .s11 else s.pos })

/-- R119: the state after an accepted RECONFIG whose six phases MAIN runs with nothing else acting: the registers hold
the requested configuration, whatever they held before; the ring buffers are untouched. -/
def Obligations.ReconfigurationAppliesTheRequest : Prop :=
  ∀ (r : LineReq) (s : State) (ds : List Draws) (rest : List Input), accept r = true → s.engine = none → s.evs = [] →
    s.ctx = .main → ds.length = 6 → s.inputs = turns .main ds ++ rest →
    ∃ u t, exec (.reconfig r) s = .next u ∧ Host.Core.run Sys2Proof.core 6 u = .next t ∧
      t.ctrlA = 0x02 ∧ t.ctrlB = 0x98 ∧ t.ctrlC = frameMask r ∧
      t.div.toNat = (Config.fClk / 8 + r.baud.toNat / 2) / r.baud.toNat - 1 ∧
      t.txhold = false ∧ t.rxc = false ∧ t.rxerr = false ∧ t.txshift = none ∧ t.le = some r ∧ t.phase = 0 ∧
      SameFifos s t

/-- R109: the frame-format mask, field by field; the three fields never overlap, and 9600/even/1/8 gives 0x26 (E6). -/
def Obligations.FrameMaskIsTheOrOfItsFields : Prop :=
  (∀ r : LineReq, frameMask r = parityMask r.parity ||| stopMask r.stop ||| dataMask r.data) ∧
    parityMask .noParity = 0 ∧ parityMask .even = 0x20 ∧ parityMask .odd = 0x30 ∧
    stopMask .one = 0 ∧ stopMask .two = 0x08 ∧
    dataMask 5 = 0 ∧ dataMask 6 = 0x02 ∧ dataMask 7 = 0x04 ∧ dataMask 8 = 0x06 ∧
    frameMask ⟨9600, .even, .one, 8⟩ = 0x26 ∧ (∀ b p t, frameMask ⟨b, p, t, 5⟩ = parityMask p ||| stopMask t) ∧
    (∀ p t n, parityMask p &&& stopMask t = 0 ∧ parityMask p &&& dataMask n = 0 ∧ stopMask t &&& dataMask n = 0)

/-- R111: for an accepted request the value written to DIV is the divisor itself, truncated nowhere, and the subtraction
is never applied to 0. -/
def Obligations.AcceptedDivisorIsNotTruncated : Prop :=
  ∀ r : LineReq, accept r = true →
    r.baud.toNat ≠ 0 ∧ 1 ≤ (Config.fClk / 8 + r.baud.toNat / 2) / r.baud.toNat ∧
      (divValue r).toNat + 1 = (Config.fClk / 8 + r.baud.toNat / 2) / r.baud.toNat

/-- R120: in every state in order, while phase 3, 4 or 5 is next the interrupt cannot be requested, `send_ready` is
false, and an arriving byte changes nothing. -/
def Obligations.UartIsDeadBetweenPhaseTwoAndFive : Prop :=
  ∀ (s : State) (b : Byte), s.Inv → 3 ≤ s.phase → s.phase ≤ 5 →
    s.irqRequested = false ∧ s.sendReady = false ∧ wireArrive b s = s ∧ s.txhold = true

/-! ## The receive interrupt -/

/-- R150, R151, R155: when the handler moves, is idle, MAIN runs and the interrupt is requested, the interrupt is taken:
the context becomes ISR, DATA is read, and nothing else changes. -/
def Obligations.InterruptEntryReadsData : Prop :=
  ∀ s : State, s.mover = .agent .isr → s.isr = .idle → s.ctx = .main → s.rxcie = true → s.rxc = true →
    step s = .next { s.advance with ctx := .isr, isr := .gotByte s.rxdata, rxc := false, rxerr := false }

/-- R9, R150, R154: the handler is not entered unless MAIN runs and the interrupt is both requested and enabled, and no
action of MAIN happens while the handler runs: the turn passes and nothing else changes (log 3). -/
def Obligations.TurnsPassWhileMaskedOrHandled : Prop :=
  ∀ s : State,
    (s.mover = .agent .isr → s.isr = .idle → (s.ctx = .isr ∨ s.rxcie = false ∨ s.rxc = false) →
      step s = .next s.advance) ∧
    (s.mover = .agent .main → s.ctx = .isr → step s = .next s.advance)

/-- R151, R152, R156: three turns of the handler put the received byte at the end of `U2H`, or drop it when `U2H` is
full; MAIN then runs on at the position it was at, and no fault is raised. -/
def Obligations.HandlerStoresOrDropsTheByte : Prop :=
  ∀ (s : State) (d1 d2 d3 : Draws) (rest : List Input), s.Inv → (s.fifo Config.u2h).inited = true → s.ctx = .main →
    s.rxcie = true → s.rxc = true → s.inputs = turns .isr [d1, d2, d3] ++ rest →
    ∃ t, Host.Core.run Sys2Proof.core 3 s = .next t ∧
      (s.full Config.u2h = false → t.content Config.u2h = s.content Config.u2h ++ [s.rxdata]) ∧
      (s.full Config.u2h = true → t.fifo Config.u2h = s.fifo Config.u2h) ∧
      SameOtherFifos Config.u2h s t ∧ t.rxc = false ∧ t.rxerr = false ∧ t.pos = s.pos ∧ t.ctx = .main ∧
      t.isr = .idle ∧ SameEngine s t ∧ SameConfiguration s t ∧ t.txshift = s.txshift ∧ SameTraces s t

/-! ## The bridge sequencer, line by line -/

/-- R130: the three lines of BR_USB_RX. -/
def Obligations.UsbReceiveLines : Prop :=
  ∀ s : State, (s.fifo Config.h2u).inited = true →
    (s.pos = .s11 → exec .brUsbRx s = .next { s with pos := .s12 (s.full Config.h2u) }) ∧
    (s.pos = .s12 true → exec .brUsbRx s = .next { s with pos := .s13 none }) ∧
    (s.pos = .s12 false → s.draws.poll = none → exec .brUsbRx s = .next { s with pos := .s13 none }) ∧
    (∀ b, s.pos = .s12 false → s.draws.poll = some b →
      exec .brUsbRx s = .next { s with pos := .s13 (some b), usbInLog := s.usbInLog ++ [b] }) ∧
    (s.pos = .s13 none → exec .brUsbRx s = .next { s with pos := .s21 }) ∧
    (∀ b, s.pos = .s13 (some b) → s.ctx = .main →
      ∃ u, exec (.insert (selectOf Config.h2u) b) s = .next u ∧
        exec .brUsbRx s = .next { u with pos := .s21, resp := s.resp })

/-- R131, R137: the lines of BR_USB_TX. -/
def Obligations.UsbTransmitLines : Prop :=
  ∀ s : State, (s.fifo Config.u2h).inited = true →
    (s.pos = .s21 → exec .brUsbTx s = .next { s with pos := .s22 (s.fifo Config.u2h).count }) ∧
    (∀ n, s.pos = .s22 n →
      exec .brUsbTx s = .next { s with pos := .s23 n (if 0 < n.toNat then s.draws.ready else false) }) ∧
    (∀ n, s.pos = .s23 n false → exec .brUsbTx s = .next { s with pos := .s31 }) ∧
    (∀ n, s.pos = .s23 n true →
      ∃ k, k.toNat = min n.toNat (Config.epSize - 1) ∧
        exec .brUsbTx s = .next { s with pos := if n.toNat = 0 then .s31 else .s24 k }) ∧
    (∀ k v, s.pos = .s24 k → s.ctx = .main → (s.fifo Config.u2h).count.toNat ≠ 0 →
      (s.fifo Config.u2h).mem.read (s.fifo Config.u2h).rd.toNat = some v →
      exec .brUsbTx s = .next { s with pos := .s25 k v }) ∧
    (∀ k b, s.pos = .s25 k b → s.draws.sent = .ok →
      exec .brUsbTx s = .next { s with pos := .s26 k b .ok, usbOutLog := s.usbOutLog ++ [b] }) ∧
    (∀ k b, s.pos = .s25 k b → s.draws.sent ≠ .ok →
      exec .brUsbTx s = .next { s with pos := .s26 k b s.draws.sent }) ∧
    (∀ k b v, s.pos = .s26 k b .ok → s.ctx = .main → (s.fifo Config.u2h).count.toNat ≠ 0 →
      (s.fifo Config.u2h).mem.read (s.fifo Config.u2h).rd.toNat = some v →
      ∃ u, exec (.remove (selectOf Config.u2h)) s = .next u ∧
        exec .brUsbTx s = .next { u with pos := if (k - 1).toNat = 0 then .s31 else .s24 (k - 1), resp := s.resp }) ∧
    (∀ k b a, s.pos = .s26 k b a → a ≠ .ok → exec .brUsbTx s = .next { s with pos := .s31 })

/-- R132: the lines of BR_UART_TX. -/
def Obligations.UartTransmitLines : Prop :=
  ∀ s : State, (s.fifo Config.h2u).inited = true →
    (s.pos = .s31 → exec .brUartTx s = .next { s with pos := .s32 s.sendReady }) ∧
    (s.pos = .s32 true → exec .brUartTx s = .next { s with pos := .s33 true (s.empty Config.h2u) }) ∧
    (s.pos = .s32 false → exec .brUartTx s = .next { s with pos := .s33 false true }) ∧
    (∀ v, s.pos = .s33 true false → s.ctx = .main → (s.fifo Config.h2u).count.toNat ≠ 0 →
      (s.fifo Config.h2u).mem.read (s.fifo Config.h2u).rd.toNat = some v →
      ∃ u, exec (.remove (selectOf Config.h2u)) s = .next u ∧
        exec .brUartTx s = .next { u with pos := .s34 (some v), resp := s.resp }) ∧
    (∀ e, s.pos = .s33 false e ∨ s.pos = .s33 true true → exec .brUartTx s = .next { s with pos := .s34 none }) ∧
    (∀ b, s.pos = .s34 (some b) → s.sendReady = true →
      exec .brUartTx s = .next { s with pos := .s41, txshift := some b }) ∧
    (s.pos = .s34 none → exec .brUartTx s = .next { s with pos := .s41 })

/-- R133, R134, R135: the lines of BR_SERVICE: with no acceptable request the sequencer is back at step 1 at once; else
the first acceptable one starts and those behind it wait; then each execution is one phase of the engine. -/
def Obligations.ServiceLines : Prop :=
  ∀ (s : State) (pre rest : List LineReq) (x r : LineReq) (p : Phase), (∀ y ∈ pre, accept y = false) →
    (s.pos = .s41 → s.engine = none → s.draws.events = pre →
      exec .brService s = .next { s with pos := .s11, evs := [] }) ∧
    (s.pos = .s41 → s.engine = none → s.draws.events = pre ++ x :: rest → accept x = true →
      exec .brService s = .next { s with pos := .s42, engine := some (.p1, x), evs := rest }) ∧
    (s.pos = .s42 → s.engine = some (p, r) → s.mover = .agent .main → s.ctx = .main →
      ∃ t, exec .brService s = .next t ∧ step s = .next t.advance)

/-- R37, R69, log 23: the instruction of a sequencer step asked for while MAIN stands outside that step is refused. -/
def Obligations.StepCodesRunOnlyInTheirStep : Prop :=
  ∀ s : State,
    (s.pos.stepNo ≠ some 1 → exec .brUsbRx s = .refused .notThisStep) ∧
    (s.pos.stepNo ≠ some 2 → exec .brUsbTx s = .refused .notThisStep) ∧
    (s.pos.stepNo ≠ some 3 → exec .brUartTx s = .refused .notThisStep) ∧
    (s.pos.stepNo ≠ some 4 → exec .brService s = .refused .notThisStep)

/-! ## The bridge sequencer, step by step -/

/-- R130: step 1 as a whole, MAIN moving three times with nothing else acting: one byte at most enters `H2U`, none when
it is full, and no fault is raised. -/
def Obligations.StepOneMovesAtMostOneByte : Prop :=
  ∀ (s : State) (d1 d2 d3 : Draws) (rest : List Input), s.AgentInv → s.pos = .s11 → s.ctx = .main →
    s.inputs = turns .main [d1, d2, d3] ++ rest →
    ∃ t, Host.Core.run Sys2Proof.core 3 s = .next t ∧ t.pos = .s21 ∧
      (s.full Config.h2u = true → t.content Config.h2u = s.content Config.h2u ∧ t.usbInLog = s.usbInLog) ∧
      (s.full Config.h2u = false → t.content Config.h2u = s.content Config.h2u ++ d2.poll.toList ∧
        t.usbInLog = s.usbInLog ++ d2.poll.toList) ∧
      SameOtherFifos Config.h2u s t ∧ SameUart s t ∧ SameEngine s t ∧ SameContext s t

/-- R131, R180: the batch of step 2, MAIN moving with nothing else acting: with every answer `ok` exactly `t_k` bytes leave
`U2H` for the USB stack, in order. -/
def Obligations.BatchSendsInOrder : Prop :=
  ∀ (k : Count Config.u2h) (s : State) (ds : List Draws) (rest : List Input), s.AgentInv → s.pos = .s24 k → s.ctx = .main →
    ds.length = 3 * k.toNat → (∀ d ∈ ds, d.sent = .ok) → s.inputs = turns .main ds ++ rest →
    ∃ t, Host.Core.run Sys2Proof.core (3 * k.toNat) s = .next t ∧ t.pos = .s31 ∧
      t.content Config.u2h = (s.content Config.u2h).drop k.toNat ∧
      t.usbOutLog = s.usbOutLog ++ (s.content Config.u2h).take k.toNat ∧
      SameOtherFifos Config.u2h s t ∧ SameUart s t ∧ SameEngine s t ∧ SameContext s t

/-- R131, R129, R139: a send that does not succeed aborts the batch: the byte stays queued and nothing is logged; and with
the endpoint not ready step 2 is three actions that leave `U2H` and `usb_out_log` as they were. -/
def Obligations.UnsentBytesStayQueued : Prop :=
  ∀ (s : State) (d1 d2 d3 : Draws) (rest : List Input), s.AgentInv → s.ctx = .main →
    s.inputs = turns .main [d1, d2, d3] ++ rest →
    (∀ k, s.pos = .s24 k → d2.sent ≠ .ok →
      ∃ t, Host.Core.run Sys2Proof.core 3 s = .next t ∧ t.pos = .s31 ∧ SameFifos s t ∧ SameUart s t ∧
        SameTraces s t) ∧
    (s.pos = .s21 → d2.ready = false →
      ∃ t, Host.Core.run Sys2Proof.core 3 s = .next t ∧ t.pos = .s31 ∧ SameFifos s t ∧ SameUart s t ∧
        SameTraces s t)

/-- R132, R138: step 3 as a whole, MAIN moving four times with nothing else acting: with the transmitter ready and a byte
queued exactly the oldest byte goes to the transmitter; otherwise nothing is dequeued. -/
def Obligations.StepThreeSendsTheOldestByte : Prop :=
  ∀ (s : State) (d1 d2 d3 d4 : Draws) (rest : List Input), s.AgentInv → s.pos = .s31 → s.ctx = .main →
    s.inputs = turns .main [d1, d2, d3, d4] ++ rest →
    ∃ t, Host.Core.run Sys2Proof.core 4 s = .next t ∧ t.pos = .s41 ∧
      (∀ b q, s.sendReady = true → s.content Config.h2u = b :: q →
        t.content Config.h2u = q ∧ t.txshift = some b) ∧
      (s.sendReady = false ∨ s.content Config.h2u = [] → SameFifos s t ∧ t.txshift = s.txshift) ∧
      SameOtherFifos Config.h2u s t ∧ SameConfiguration s t ∧ SameReceiver s t ∧ SameTraces s t

/-! ## Whole-machine rules -/

/-- R16, R17, R18, R19, R30, R40, R113 to R119: the invariant is kept by every step, whatever moves: an agent, a client's
command, reset. -/
def Obligations.EveryStepKeepsTheInvariant : Prop :=
  ∀ s t : State, s.Inv → step s = .next t → t.Inv

/-- R148, R151: from every state of the agents' invariant, a step in which an agent or reset moves answers a next state,
never a fault, and keeps the invariant. -/
def Obligations.AgentsRaiseNoFault : Prop :=
  ∀ s : State, s.AgentInv → (∀ c, s.mover ≠ .command c) → ∃ t, step s = .next t ∧ t.AgentInv

/-- Both invariants hold of the state after reset. -/
def Obligations.ResetMeetsBothInvariants : Prop :=
  State.reset.Inv ∧ State.reset.AgentInv

/-- R140, R61, R180: on the way to the USB host no byte is lost, repeated or reordered: an agent's step leaves what has
been taken by the USB stack followed by what is queued for it as it was, but for the handler's last action, which may
put the byte it holds at the end. -/
def Obligations.NothingIsLostTowardsTheHost : Prop :=
  ∀ (s t : State) (a : Agent), s.AgentInv → s.mover = .agent a → step s = .next t →
    t.towardsHost = s.towardsHost ∨
      ∃ b, a = .isr ∧ s.isr = .gotFull b false ∧ t.towardsHost = s.towardsHost ++ [b]

/-- R140, R61: on the way to the wire no byte is lost, repeated or reordered: in an agent's step the bytes the USB host
hands over join the end of those queued, in the order of `usb_in_log`, and a byte that leaves the front is the one the
idle transmitter then holds. -/
def Obligations.NothingIsLostTowardsTheWire : Prop :=
  ∀ (s t : State) (a : Agent), s.AgentInv → s.mover = .agent a → step s = .next t →
    ∃ taken given : List Byte, t.usbInLog = s.usbInLog ++ taken ∧
      given ++ t.towardsWire = s.towardsWire ++ taken ∧
      (given = [] ∨ ∃ b, given = [b] ∧ s.txshift = none ∧ t.txshift = some b)

/-- R46: an instruction other than INSERT, and step 1 of the sequencer, which issues it, leaves every byte of every
storage array as it was. -/
def Obligations.OnlyInsertWritesStorage : Prop :=
  ∀ (i : Instr) (s t : State), exec i s = .next t → (∀ ff b, i ≠ .insert ff b) → i ≠ .brUsbRx → SameStorage s t

/-- R123, R177: no instruction but BR_SERVICE, which runs the engine's phases, writes a control register, the divisor,
the hold or the line-encoding register. -/
def Obligations.OnlyTheEngineConfiguresTheUart : Prop :=
  ∀ (i : Instr) (s t : State), exec i s = .next t → i ≠ .brService → SameConfiguration s t

/-- R41: but for reset, a step only appends to the four traces. -/
def Obligations.TracesOnlyGrow : Prop :=
  ∀ s t : State, step s = .next t → s.mover ≠ .reset →
    s.usbInLog <+: t.usbInLog ∧ s.usbOutLog <+: t.usbOutLog ∧
      s.wireInLog <+: t.wireInLog ∧ s.wireOutLog <+: t.wireOutLog

/-- R22, R56, R57: of the agents only the handler raises the count of `U2H` and only MAIN lowers it once it is
initialised and its count in range (R16, which `EveryStepKeepsTheInvariant` states), so what either side has seen stays
true until its own next operation. -/
def Obligations.EachSideMovesTheCountOneWay : Prop :=
  ∀ (s t : State) (a : Agent), (s.fifo Config.u2h).inited = true →
    (s.fifo Config.u2h).count.toNat ≤ Config.cap Config.u2h → s.mover = .agent a → step s = .next t →
    (a ≠ .isr → (t.fifo Config.u2h).count.toNat ≤ (s.fifo Config.u2h).count.toNat) ∧
      (a ≠ .main → (s.fifo Config.u2h).count.toNat ≤ (t.fifo Config.u2h).count.toNat)

/-! ## Decoding and the step -/

/-- R66 to R75: a word presented at a place decodes to an instruction exactly when the instruction is well formed and the
word is its encoding there: each legal word has one meaning and no bit of it is dropped. -/
def Obligations.DecodeAgreesWithEncode : Prop :=
  ∀ (p : Presented) (i : Instr), decode p = .ok i ↔ i.WellFormed = true ∧ encode i = p

/-- R80: worked encodings decode to the operations they stand for. -/
def Obligations.WorkedEncodingsDecode : Prop :=
  decode (.fifoPort 0x1000) = .ok (.init 0) ∧ decode (.fifoPort 0x1400) = .ok (.init 1) ∧
    decode (.fifoPort 0x1800) = .ok (.init 2) ∧ decode (.fifoPort 0x2441) = .ok (.insert 1 0x41) ∧
    decode (.fifoPort 0x3400) = .ok (.remove 1) ∧ decode (.fifoPort 0x4000) = .ok (.peek 0) ∧
    decode (.fifoPort 0x5000) = .ok (.isFull 0) ∧ decode (.fifoPort 0x6400) = .ok (.isEmpty 1) ∧
    decode (.fifoPort 0x7000) = .ok (.count 0) ∧ decode (.fifoPort 0x8400) = .ok (.flush 1) ∧
    decode (.uartShim 0xA000) = .ok .uartSendReady ∧ decode (.uartShim 0xB041) = .ok (.uartSend 0x41) ∧
    decode (.uartShim 0xC000) = .ok .uartRxRead ∧
    decode (.engine 0x988000002580) = .ok (.reconfig ⟨9600, .even, .one, 8⟩)

/-- R71, R75: which words are illegal in each format; that presenting an illegal word at any port raises ILLEGAL_CMD with
the format and the word; and so does a format F operation whose select is 3, which names no instance. -/
def Obligations.IllegalWordsFault : Prop :=
  (∀ w : Word16, (∃ e, decode (.fifoPort w) = .error e) ↔
    (w.toNat / 4096 = 0 ∨ 8 < w.toNat / 4096) ∨ w.toNat / 1024 % 4 = 3 ∨ w.toNat / 256 % 4 ≠ 0 ∨
      (w.toNat / 4096 ≠ 2 ∧ w.toNat % 256 ≠ 0)) ∧
  (∀ w : Word16, (∃ e, decode (.uartShim w) = .error e) ↔
    (w.toNat / 4096 < 10 ∨ 12 < w.toNat / 4096) ∨ w.toNat / 256 % 16 ≠ 0 ∨
      (w.toNat / 4096 ≠ 11 ∧ w.toNat % 256 ≠ 0)) ∧
  (∀ w : Word48, (∃ e, decode (.engine w) = .error e) ↔
    w.toNat / 2 ^ 44 ≠ 9 ∨ w.toNat / 2 ^ 40 % 2 ≠ 0 ∨ w.toNat / 2 ^ 32 % 16 ≠ 0) ∧
  (∀ (c : Command) (e : Reject) (s : State), s.mover = .command c → decode c.presented = .error e →
    step s = .fault (.illegalCmd c.presented.format c.presented.bits)) ∧
  (∀ (b : Byte) (s : State) (i : Instr),
    i ∈ [Instr.init 3, .insert 3 b, .remove 3, .peek 3, .isFull 3, .isEmpty 3, .count 3, .flush 3] →
    exec i s = .fault (.illegalCmd .F (encode i).bits))

/-- R9, R69: a step runs the instruction of the word presented: a client's command at its port; with MAIN running, no
reconfiguration under way and MAIN past boot, the step code of the sequencer's position; and the instruction that
`withFetchWord` presents. Around `exec` the step adds only its end: the input is used up and the step's number goes up. -/
def Obligations.StepRunsTheDecodedInstruction : Prop :=
  (∀ (c : Command) (i : Instr) (s : State), s.mover = .command c → decode c.presented = .ok i →
    step s = advanced (exec i s)) ∧
  (∀ (c : StepCode) (i : Instr) (s : State), s.mover = .agent .main → s.ctx = .main → s.engine = none →
    s.pos.code = some c → decode (.stepCode c) = .ok i → step s = advanced (exec i s)) ∧
  (∀ (nbits w : Nat) (i : Instr) (s : State), decodeTableWord nbits w = some i →
    step (s.withFetchWord nbits w) = advanced (exec i (s.withFetchWord nbits w)))
end

