-- ==== Sys2Proof/Laws/State.lean ====
section
/-!
SUPPORT. One lemma per field per named update of the state, and the same for the views a field is read through, so that
no later proof unfolds a record update.
-/

namespace Sys2Proof.Machine

/-! ## `respond` -/

@[simp] theorem respond_fifo0 (s : State) (r : Option Response) : (s.respond r).fifo0 = s.fifo0 := rfl
@[simp] theorem respond_fifo1 (s : State) (r : Option Response) : (s.respond r).fifo1 = s.fifo1 := rfl
@[simp] theorem respond_fifo2 (s : State) (r : Option Response) : (s.respond r).fifo2 = s.fifo2 := rfl
@[simp] theorem respond_le (s : State) (r : Option Response) : (s.respond r).le = s.le := rfl
@[simp] theorem respond_ctrlA (s : State) (r : Option Response) : (s.respond r).ctrlA = s.ctrlA := rfl
@[simp] theorem respond_ctrlB (s : State) (r : Option Response) : (s.respond r).ctrlB = s.ctrlB := rfl
@[simp] theorem respond_ctrlC (s : State) (r : Option Response) : (s.respond r).ctrlC = s.ctrlC := rfl
@[simp] theorem respond_div (s : State) (r : Option Response) : (s.respond r).div = s.div := rfl
@[simp] theorem respond_rxdata (s : State) (r : Option Response) : (s.respond r).rxdata = s.rxdata := rfl
@[simp] theorem respond_rxc (s : State) (r : Option Response) : (s.respond r).rxc = s.rxc := rfl
@[simp] theorem respond_rxerr (s : State) (r : Option Response) : (s.respond r).rxerr = s.rxerr := rfl
@[simp] theorem respond_txshift (s : State) (r : Option Response) : (s.respond r).txshift = s.txshift := rfl
@[simp] theorem respond_txhold (s : State) (r : Option Response) : (s.respond r).txhold = s.txhold := rfl
@[simp] theorem respond_pos (s : State) (r : Option Response) : (s.respond r).pos = s.pos := rfl
@[simp] theorem respond_evs (s : State) (r : Option Response) : (s.respond r).evs = s.evs := rfl
@[simp] theorem respond_engine (s : State) (r : Option Response) : (s.respond r).engine = s.engine := rfl
@[simp] theorem respond_ctx (s : State) (r : Option Response) : (s.respond r).ctx = s.ctx := rfl
@[simp] theorem respond_isr (s : State) (r : Option Response) : (s.respond r).isr = s.isr := rfl
@[simp] theorem respond_usbInLog (s : State) (r : Option Response) : (s.respond r).usbInLog = s.usbInLog := rfl
@[simp] theorem respond_usbOutLog (s : State) (r : Option Response) : (s.respond r).usbOutLog = s.usbOutLog := rfl
@[simp] theorem respond_wireInLog (s : State) (r : Option Response) : (s.respond r).wireInLog = s.wireInLog := rfl
@[simp] theorem respond_wireOutLog (s : State) (r : Option Response) : (s.respond r).wireOutLog = s.wireOutLog := rfl
@[simp] theorem respond_resp (s : State) (r : Option Response) : (s.respond r).resp = r := rfl
@[simp] theorem respond_inputs (s : State) (r : Option Response) : (s.respond r).inputs = s.inputs := rfl
@[simp] theorem respond_tick (s : State) (r : Option Response) : (s.respond r).tick = s.tick := rfl
@[simp] theorem respond_fifo (s : State) (r : Option Response) (g : Inst) : (s.respond r).fifo g = s.fifo g := by cases g <;> rfl
@[simp] theorem respond_content (s : State) (r : Option Response) (g : Inst) : (s.respond r).content g = s.content g := by cases g <;> rfl
@[simp] theorem respond_full (s : State) (r : Option Response) (g : Inst) : (s.respond r).full g = s.full g := by cases g <;> rfl
@[simp] theorem respond_empty (s : State) (r : Option Response) (g : Inst) : (s.respond r).empty g = s.empty g := by cases g <;> rfl
@[simp] theorem respond_txbusy (s : State) (r : Option Response) : (s.respond r).txbusy = s.txbusy := rfl
@[simp] theorem respond_rxcie (s : State) (r : Option Response) : (s.respond r).rxcie = s.rxcie := rfl
@[simp] theorem respond_rxen (s : State) (r : Option Response) : (s.respond r).rxen = s.rxen := rfl
@[simp] theorem respond_txen (s : State) (r : Option Response) : (s.respond r).txen = s.txen := rfl
@[simp] theorem respond_sendReady (s : State) (r : Option Response) : (s.respond r).sendReady = s.sendReady := rfl
@[simp] theorem respond_irqRequested (s : State) (r : Option Response) : (s.respond r).irqRequested = s.irqRequested := rfl
@[simp] theorem respond_draws (s : State) (r : Option Response) : (s.respond r).draws = s.draws := rfl

/-! ## `setPos` -/

@[simp] theorem setPos_fifo0 (s : State) (p : Pos) : (s.setPos p).fifo0 = s.fifo0 := rfl
@[simp] theorem setPos_fifo1 (s : State) (p : Pos) : (s.setPos p).fifo1 = s.fifo1 := rfl
@[simp] theorem setPos_fifo2 (s : State) (p : Pos) : (s.setPos p).fifo2 = s.fifo2 := rfl
@[simp] theorem setPos_le (s : State) (p : Pos) : (s.setPos p).le = s.le := rfl
@[simp] theorem setPos_ctrlA (s : State) (p : Pos) : (s.setPos p).ctrlA = s.ctrlA := rfl
@[simp] theorem setPos_ctrlB (s : State) (p : Pos) : (s.setPos p).ctrlB = s.ctrlB := rfl
@[simp] theorem setPos_ctrlC (s : State) (p : Pos) : (s.setPos p).ctrlC = s.ctrlC := rfl
@[simp] theorem setPos_div (s : State) (p : Pos) : (s.setPos p).div = s.div := rfl
@[simp] theorem setPos_rxdata (s : State) (p : Pos) : (s.setPos p).rxdata = s.rxdata := rfl
@[simp] theorem setPos_rxc (s : State) (p : Pos) : (s.setPos p).rxc = s.rxc := rfl
@[simp] theorem setPos_rxerr (s : State) (p : Pos) : (s.setPos p).rxerr = s.rxerr := rfl
@[simp] theorem setPos_txshift (s : State) (p : Pos) : (s.setPos p).txshift = s.txshift := rfl
@[simp] theorem setPos_txhold (s : State) (p : Pos) : (s.setPos p).txhold = s.txhold := rfl
@[simp] theorem setPos_pos (s : State) (p : Pos) : (s.setPos p).pos = p := rfl
@[simp] theorem setPos_evs (s : State) (p : Pos) : (s.setPos p).evs = s.evs := rfl
@[simp] theorem setPos_engine (s : State) (p : Pos) : (s.setPos p).engine = s.engine := rfl
@[simp] theorem setPos_ctx (s : State) (p : Pos) : (s.setPos p).ctx = s.ctx := rfl
@[simp] theorem setPos_isr (s : State) (p : Pos) : (s.setPos p).isr = s.isr := rfl
@[simp] theorem setPos_usbInLog (s : State) (p : Pos) : (s.setPos p).usbInLog = s.usbInLog := rfl
@[simp] theorem setPos_usbOutLog (s : State) (p : Pos) : (s.setPos p).usbOutLog = s.usbOutLog := rfl
@[simp] theorem setPos_wireInLog (s : State) (p : Pos) : (s.setPos p).wireInLog = s.wireInLog := rfl
@[simp] theorem setPos_wireOutLog (s : State) (p : Pos) : (s.setPos p).wireOutLog = s.wireOutLog := rfl
@[simp] theorem setPos_resp (s : State) (p : Pos) : (s.setPos p).resp = s.resp := rfl
@[simp] theorem setPos_inputs (s : State) (p : Pos) : (s.setPos p).inputs = s.inputs := rfl
@[simp] theorem setPos_tick (s : State) (p : Pos) : (s.setPos p).tick = s.tick := rfl
@[simp] theorem setPos_fifo (s : State) (p : Pos) (g : Inst) : (s.setPos p).fifo g = s.fifo g := by cases g <;> rfl
@[simp] theorem setPos_content (s : State) (p : Pos) (g : Inst) : (s.setPos p).content g = s.content g := by cases g <;> rfl
@[simp] theorem setPos_full (s : State) (p : Pos) (g : Inst) : (s.setPos p).full g = s.full g := by cases g <;> rfl
@[simp] theorem setPos_empty (s : State) (p : Pos) (g : Inst) : (s.setPos p).empty g = s.empty g := by cases g <;> rfl
@[simp] theorem setPos_txbusy (s : State) (p : Pos) : (s.setPos p).txbusy = s.txbusy := rfl
@[simp] theorem setPos_rxcie (s : State) (p : Pos) : (s.setPos p).rxcie = s.rxcie := rfl
@[simp] theorem setPos_rxen (s : State) (p : Pos) : (s.setPos p).rxen = s.rxen := rfl
@[simp] theorem setPos_txen (s : State) (p : Pos) : (s.setPos p).txen = s.txen := rfl
@[simp] theorem setPos_sendReady (s : State) (p : Pos) : (s.setPos p).sendReady = s.sendReady := rfl
@[simp] theorem setPos_irqRequested (s : State) (p : Pos) : (s.setPos p).irqRequested = s.irqRequested := rfl
@[simp] theorem setPos_draws (s : State) (p : Pos) : (s.setPos p).draws = s.draws := rfl

/-! ## `advance` -/

@[simp] theorem advance_fifo0 (s : State) : (s.advance).fifo0 = s.fifo0 := rfl
@[simp] theorem advance_fifo1 (s : State) : (s.advance).fifo1 = s.fifo1 := rfl
@[simp] theorem advance_fifo2 (s : State) : (s.advance).fifo2 = s.fifo2 := rfl
@[simp] theorem advance_le (s : State) : (s.advance).le = s.le := rfl
@[simp] theorem advance_ctrlA (s : State) : (s.advance).ctrlA = s.ctrlA := rfl
@[simp] theorem advance_ctrlB (s : State) : (s.advance).ctrlB = s.ctrlB := rfl
@[simp] theorem advance_ctrlC (s : State) : (s.advance).ctrlC = s.ctrlC := rfl
@[simp] theorem advance_div (s : State) : (s.advance).div = s.div := rfl
@[simp] theorem advance_rxdata (s : State) : (s.advance).rxdata = s.rxdata := rfl
@[simp] theorem advance_rxc (s : State) : (s.advance).rxc = s.rxc := rfl
@[simp] theorem advance_rxerr (s : State) : (s.advance).rxerr = s.rxerr := rfl
@[simp] theorem advance_txshift (s : State) : (s.advance).txshift = s.txshift := rfl
@[simp] theorem advance_txhold (s : State) : (s.advance).txhold = s.txhold := rfl
@[simp] theorem advance_pos (s : State) : (s.advance).pos = s.pos := rfl
@[simp] theorem advance_evs (s : State) : (s.advance).evs = s.evs := rfl
@[simp] theorem advance_engine (s : State) : (s.advance).engine = s.engine := rfl
@[simp] theorem advance_ctx (s : State) : (s.advance).ctx = s.ctx := rfl
@[simp] theorem advance_isr (s : State) : (s.advance).isr = s.isr := rfl
@[simp] theorem advance_usbInLog (s : State) : (s.advance).usbInLog = s.usbInLog := rfl
@[simp] theorem advance_usbOutLog (s : State) : (s.advance).usbOutLog = s.usbOutLog := rfl
@[simp] theorem advance_wireInLog (s : State) : (s.advance).wireInLog = s.wireInLog := rfl
@[simp] theorem advance_wireOutLog (s : State) : (s.advance).wireOutLog = s.wireOutLog := rfl
@[simp] theorem advance_resp (s : State) : (s.advance).resp = s.resp := rfl
@[simp] theorem advance_inputs (s : State) : (s.advance).inputs = s.inputs.tail := rfl
@[simp] theorem advance_tick (s : State) : (s.advance).tick = s.tick + 1 := rfl
@[simp] theorem advance_fifo (s : State) (g : Inst) : (s.advance).fifo g = s.fifo g := by cases g <;> rfl
@[simp] theorem advance_content (s : State) (g : Inst) : (s.advance).content g = s.content g := by cases g <;> rfl
@[simp] theorem advance_full (s : State) (g : Inst) : (s.advance).full g = s.full g := by cases g <;> rfl
@[simp] theorem advance_empty (s : State) (g : Inst) : (s.advance).empty g = s.empty g := by cases g <;> rfl
@[simp] theorem advance_txbusy (s : State) : (s.advance).txbusy = s.txbusy := rfl
@[simp] theorem advance_rxcie (s : State) : (s.advance).rxcie = s.rxcie := rfl
@[simp] theorem advance_rxen (s : State) : (s.advance).rxen = s.rxen := rfl
@[simp] theorem advance_txen (s : State) : (s.advance).txen = s.txen := rfl
@[simp] theorem advance_sendReady (s : State) : (s.advance).sendReady = s.sendReady := rfl
@[simp] theorem advance_irqRequested (s : State) : (s.advance).irqRequested = s.irqRequested := rfl

/-! ## `writeA` -/

@[simp] theorem writeA_fifo0 (s : State) (v : BitVec 8) : (s.writeA v).fifo0 = s.fifo0 := rfl
@[simp] theorem writeA_fifo1 (s : State) (v : BitVec 8) : (s.writeA v).fifo1 = s.fifo1 := rfl
@[simp] theorem writeA_fifo2 (s : State) (v : BitVec 8) : (s.writeA v).fifo2 = s.fifo2 := rfl
@[simp] theorem writeA_le (s : State) (v : BitVec 8) : (s.writeA v).le = s.le := rfl
@[simp] theorem writeA_ctrlA (s : State) (v : BitVec 8) : (s.writeA v).ctrlA = v &&& maskA := rfl
@[simp] theorem writeA_ctrlB (s : State) (v : BitVec 8) : (s.writeA v).ctrlB = s.ctrlB := rfl
@[simp] theorem writeA_ctrlC (s : State) (v : BitVec 8) : (s.writeA v).ctrlC = s.ctrlC := rfl
@[simp] theorem writeA_div (s : State) (v : BitVec 8) : (s.writeA v).div = s.div := rfl
@[simp] theorem writeA_rxdata (s : State) (v : BitVec 8) : (s.writeA v).rxdata = s.rxdata := rfl
@[simp] theorem writeA_rxc (s : State) (v : BitVec 8) : (s.writeA v).rxc = s.rxc := rfl
@[simp] theorem writeA_rxerr (s : State) (v : BitVec 8) : (s.writeA v).rxerr = s.rxerr := rfl
@[simp] theorem writeA_txshift (s : State) (v : BitVec 8) : (s.writeA v).txshift = s.txshift := rfl
@[simp] theorem writeA_txhold (s : State) (v : BitVec 8) : (s.writeA v).txhold = s.txhold := rfl
@[simp] theorem writeA_pos (s : State) (v : BitVec 8) : (s.writeA v).pos = s.pos := rfl
@[simp] theorem writeA_evs (s : State) (v : BitVec 8) : (s.writeA v).evs = s.evs := rfl
@[simp] theorem writeA_engine (s : State) (v : BitVec 8) : (s.writeA v).engine = s.engine := rfl
@[simp] theorem writeA_ctx (s : State) (v : BitVec 8) : (s.writeA v).ctx = s.ctx := rfl
@[simp] theorem writeA_isr (s : State) (v : BitVec 8) : (s.writeA v).isr = s.isr := rfl
@[simp] theorem writeA_usbInLog (s : State) (v : BitVec 8) : (s.writeA v).usbInLog = s.usbInLog := rfl
@[simp] theorem writeA_usbOutLog (s : State) (v : BitVec 8) : (s.writeA v).usbOutLog = s.usbOutLog := rfl
@[simp] theorem writeA_wireInLog (s : State) (v : BitVec 8) : (s.writeA v).wireInLog = s.wireInLog := rfl
@[simp] theorem writeA_wireOutLog (s : State) (v : BitVec 8) : (s.writeA v).wireOutLog = s.wireOutLog := rfl
@[simp] theorem writeA_resp (s : State) (v : BitVec 8) : (s.writeA v).resp = s.resp := rfl
@[simp] theorem writeA_inputs (s : State) (v : BitVec 8) : (s.writeA v).inputs = s.inputs := rfl
@[simp] theorem writeA_tick (s : State) (v : BitVec 8) : (s.writeA v).tick = s.tick := rfl
@[simp] theorem writeA_fifo (s : State) (v : BitVec 8) (g : Inst) : (s.writeA v).fifo g = s.fifo g := by cases g <;> rfl
@[simp] theorem writeA_content (s : State) (v : BitVec 8) (g : Inst) : (s.writeA v).content g = s.content g := by cases g <;> rfl
@[simp] theorem writeA_full (s : State) (v : BitVec 8) (g : Inst) : (s.writeA v).full g = s.full g := by cases g <;> rfl
@[simp] theorem writeA_empty (s : State) (v : BitVec 8) (g : Inst) : (s.writeA v).empty g = s.empty g := by cases g <;> rfl
@[simp] theorem writeA_txbusy (s : State) (v : BitVec 8) : (s.writeA v).txbusy = s.txbusy := rfl
@[simp] theorem writeA_rxcie (s : State) (v : BitVec 8) : (s.writeA v).rxcie = s.rxcie := rfl
@[simp] theorem writeA_rxen (s : State) (v : BitVec 8) : (s.writeA v).rxen = s.rxen := rfl
@[simp] theorem writeA_txen (s : State) (v : BitVec 8) : (s.writeA v).txen = s.txen := rfl
@[simp] theorem writeA_sendReady (s : State) (v : BitVec 8) : (s.writeA v).sendReady = s.sendReady := rfl
@[simp] theorem writeA_irqRequested (s : State) (v : BitVec 8) : (s.writeA v).irqRequested = s.irqRequested := rfl
@[simp] theorem writeA_draws (s : State) (v : BitVec 8) : (s.writeA v).draws = s.draws := rfl

/-! ## `writeB` -/

@[simp] theorem writeB_fifo0 (s : State) (v : BitVec 8) : (s.writeB v).fifo0 = s.fifo0 := rfl
@[simp] theorem writeB_fifo1 (s : State) (v : BitVec 8) : (s.writeB v).fifo1 = s.fifo1 := rfl
@[simp] theorem writeB_fifo2 (s : State) (v : BitVec 8) : (s.writeB v).fifo2 = s.fifo2 := rfl
@[simp] theorem writeB_le (s : State) (v : BitVec 8) : (s.writeB v).le = s.le := rfl
@[simp] theorem writeB_ctrlA (s : State) (v : BitVec 8) : (s.writeB v).ctrlA = s.ctrlA := rfl
@[simp] theorem writeB_ctrlB (s : State) (v : BitVec 8) : (s.writeB v).ctrlB = v &&& maskB := rfl
@[simp] theorem writeB_ctrlC (s : State) (v : BitVec 8) : (s.writeB v).ctrlC = s.ctrlC := rfl
@[simp] theorem writeB_div (s : State) (v : BitVec 8) : (s.writeB v).div = s.div := rfl
@[simp] theorem writeB_rxdata (s : State) (v : BitVec 8) : (s.writeB v).rxdata = s.rxdata := rfl
@[simp] theorem writeB_rxc (s : State) (v : BitVec 8) : (s.writeB v).rxc = s.rxc := rfl
@[simp] theorem writeB_rxerr (s : State) (v : BitVec 8) : (s.writeB v).rxerr = s.rxerr := rfl
@[simp] theorem writeB_txshift (s : State) (v : BitVec 8) : (s.writeB v).txshift = s.txshift := rfl
@[simp] theorem writeB_txhold (s : State) (v : BitVec 8) : (s.writeB v).txhold = s.txhold := rfl
@[simp] theorem writeB_pos (s : State) (v : BitVec 8) : (s.writeB v).pos = s.pos := rfl
@[simp] theorem writeB_evs (s : State) (v : BitVec 8) : (s.writeB v).evs = s.evs := rfl
@[simp] theorem writeB_engine (s : State) (v : BitVec 8) : (s.writeB v).engine = s.engine := rfl
@[simp] theorem writeB_ctx (s : State) (v : BitVec 8) : (s.writeB v).ctx = s.ctx := rfl
@[simp] theorem writeB_isr (s : State) (v : BitVec 8) : (s.writeB v).isr = s.isr := rfl
@[simp] theorem writeB_usbInLog (s : State) (v : BitVec 8) : (s.writeB v).usbInLog = s.usbInLog := rfl
@[simp] theorem writeB_usbOutLog (s : State) (v : BitVec 8) : (s.writeB v).usbOutLog = s.usbOutLog := rfl
@[simp] theorem writeB_wireInLog (s : State) (v : BitVec 8) : (s.writeB v).wireInLog = s.wireInLog := rfl
@[simp] theorem writeB_wireOutLog (s : State) (v : BitVec 8) : (s.writeB v).wireOutLog = s.wireOutLog := rfl
@[simp] theorem writeB_resp (s : State) (v : BitVec 8) : (s.writeB v).resp = s.resp := rfl
@[simp] theorem writeB_inputs (s : State) (v : BitVec 8) : (s.writeB v).inputs = s.inputs := rfl
@[simp] theorem writeB_tick (s : State) (v : BitVec 8) : (s.writeB v).tick = s.tick := rfl
@[simp] theorem writeB_fifo (s : State) (v : BitVec 8) (g : Inst) : (s.writeB v).fifo g = s.fifo g := by cases g <;> rfl
@[simp] theorem writeB_content (s : State) (v : BitVec 8) (g : Inst) : (s.writeB v).content g = s.content g := by cases g <;> rfl
@[simp] theorem writeB_full (s : State) (v : BitVec 8) (g : Inst) : (s.writeB v).full g = s.full g := by cases g <;> rfl
@[simp] theorem writeB_empty (s : State) (v : BitVec 8) (g : Inst) : (s.writeB v).empty g = s.empty g := by cases g <;> rfl
@[simp] theorem writeB_txbusy (s : State) (v : BitVec 8) : (s.writeB v).txbusy = s.txbusy := rfl
@[simp] theorem writeB_draws (s : State) (v : BitVec 8) : (s.writeB v).draws = s.draws := rfl

/-! ## `writeC` -/

@[simp] theorem writeC_fifo0 (s : State) (v : BitVec 8) : (s.writeC v).fifo0 = s.fifo0 := rfl
@[simp] theorem writeC_fifo1 (s : State) (v : BitVec 8) : (s.writeC v).fifo1 = s.fifo1 := rfl
@[simp] theorem writeC_fifo2 (s : State) (v : BitVec 8) : (s.writeC v).fifo2 = s.fifo2 := rfl
@[simp] theorem writeC_le (s : State) (v : BitVec 8) : (s.writeC v).le = s.le := rfl
@[simp] theorem writeC_ctrlA (s : State) (v : BitVec 8) : (s.writeC v).ctrlA = s.ctrlA := rfl
@[simp] theorem writeC_ctrlB (s : State) (v : BitVec 8) : (s.writeC v).ctrlB = s.ctrlB := rfl
@[simp] theorem writeC_ctrlC (s : State) (v : BitVec 8) : (s.writeC v).ctrlC = v &&& maskC := rfl
@[simp] theorem writeC_div (s : State) (v : BitVec 8) : (s.writeC v).div = s.div := rfl
@[simp] theorem writeC_rxdata (s : State) (v : BitVec 8) : (s.writeC v).rxdata = s.rxdata := rfl
@[simp] theorem writeC_rxc (s : State) (v : BitVec 8) : (s.writeC v).rxc = s.rxc := rfl
@[simp] theorem writeC_rxerr (s : State) (v : BitVec 8) : (s.writeC v).rxerr = s.rxerr := rfl
@[simp] theorem writeC_txshift (s : State) (v : BitVec 8) : (s.writeC v).txshift = s.txshift := rfl
@[simp] theorem writeC_txhold (s : State) (v : BitVec 8) : (s.writeC v).txhold = s.txhold := rfl
@[simp] theorem writeC_pos (s : State) (v : BitVec 8) : (s.writeC v).pos = s.pos := rfl
@[simp] theorem writeC_evs (s : State) (v : BitVec 8) : (s.writeC v).evs = s.evs := rfl
@[simp] theorem writeC_engine (s : State) (v : BitVec 8) : (s.writeC v).engine = s.engine := rfl
@[simp] theorem writeC_ctx (s : State) (v : BitVec 8) : (s.writeC v).ctx = s.ctx := rfl
@[simp] theorem writeC_isr (s : State) (v : BitVec 8) : (s.writeC v).isr = s.isr := rfl
@[simp] theorem writeC_usbInLog (s : State) (v : BitVec 8) : (s.writeC v).usbInLog = s.usbInLog := rfl
@[simp] theorem writeC_usbOutLog (s : State) (v : BitVec 8) : (s.writeC v).usbOutLog = s.usbOutLog := rfl
@[simp] theorem writeC_wireInLog (s : State) (v : BitVec 8) : (s.writeC v).wireInLog = s.wireInLog := rfl
@[simp] theorem writeC_wireOutLog (s : State) (v : BitVec 8) : (s.writeC v).wireOutLog = s.wireOutLog := rfl
@[simp] theorem writeC_resp (s : State) (v : BitVec 8) : (s.writeC v).resp = s.resp := rfl
@[simp] theorem writeC_inputs (s : State) (v : BitVec 8) : (s.writeC v).inputs = s.inputs := rfl
@[simp] theorem writeC_tick (s : State) (v : BitVec 8) : (s.writeC v).tick = s.tick := rfl
@[simp] theorem writeC_fifo (s : State) (v : BitVec 8) (g : Inst) : (s.writeC v).fifo g = s.fifo g := by cases g <;> rfl
@[simp] theorem writeC_content (s : State) (v : BitVec 8) (g : Inst) : (s.writeC v).content g = s.content g := by cases g <;> rfl
@[simp] theorem writeC_full (s : State) (v : BitVec 8) (g : Inst) : (s.writeC v).full g = s.full g := by cases g <;> rfl
@[simp] theorem writeC_empty (s : State) (v : BitVec 8) (g : Inst) : (s.writeC v).empty g = s.empty g := by cases g <;> rfl
@[simp] theorem writeC_txbusy (s : State) (v : BitVec 8) : (s.writeC v).txbusy = s.txbusy := rfl
@[simp] theorem writeC_rxcie (s : State) (v : BitVec 8) : (s.writeC v).rxcie = s.rxcie := rfl
@[simp] theorem writeC_rxen (s : State) (v : BitVec 8) : (s.writeC v).rxen = s.rxen := rfl
@[simp] theorem writeC_txen (s : State) (v : BitVec 8) : (s.writeC v).txen = s.txen := rfl
@[simp] theorem writeC_sendReady (s : State) (v : BitVec 8) : (s.writeC v).sendReady = s.sendReady := rfl
@[simp] theorem writeC_irqRequested (s : State) (v : BitVec 8) : (s.writeC v).irqRequested = s.irqRequested := rfl
@[simp] theorem writeC_draws (s : State) (v : BitVec 8) : (s.writeC v).draws = s.draws := rfl

/-! ## `setFifo` -/

@[simp] theorem setFifo_le (s : State) (f : Inst) (q : Fifo f) : (s.setFifo f q).le = s.le := by cases f <;> rfl
@[simp] theorem setFifo_ctrlA (s : State) (f : Inst) (q : Fifo f) : (s.setFifo f q).ctrlA = s.ctrlA := by cases f <;> rfl
@[simp] theorem setFifo_ctrlB (s : State) (f : Inst) (q : Fifo f) : (s.setFifo f q).ctrlB = s.ctrlB := by cases f <;> rfl
@[simp] theorem setFifo_ctrlC (s : State) (f : Inst) (q : Fifo f) : (s.setFifo f q).ctrlC = s.ctrlC := by cases f <;> rfl
@[simp] theorem setFifo_div (s : State) (f : Inst) (q : Fifo f) : (s.setFifo f q).div = s.div := by cases f <;> rfl
@[simp] theorem setFifo_rxdata (s : State) (f : Inst) (q : Fifo f) : (s.setFifo f q).rxdata = s.rxdata := by cases f <;> rfl
@[simp] theorem setFifo_rxc (s : State) (f : Inst) (q : Fifo f) : (s.setFifo f q).rxc = s.rxc := by cases f <;> rfl
@[simp] theorem setFifo_rxerr (s : State) (f : Inst) (q : Fifo f) : (s.setFifo f q).rxerr = s.rxerr := by cases f <;> rfl
@[simp] theorem setFifo_txshift (s : State) (f : Inst) (q : Fifo f) : (s.setFifo f q).txshift = s.txshift := by cases f <;> rfl
@[simp] theorem setFifo_txhold (s : State) (f : Inst) (q : Fifo f) : (s.setFifo f q).txhold = s.txhold := by cases f <;> rfl
@[simp] theorem setFifo_pos (s : State) (f : Inst) (q : Fifo f) : (s.setFifo f q).pos = s.pos := by cases f <;> rfl
@[simp] theorem setFifo_evs (s : State) (f : Inst) (q : Fifo f) : (s.setFifo f q).evs = s.evs := by cases f <;> rfl
@[simp] theorem setFifo_engine (s : State) (f : Inst) (q : Fifo f) : (s.setFifo f q).engine = s.engine := by cases f <;> rfl
@[simp] theorem setFifo_ctx (s : State) (f : Inst) (q : Fifo f) : (s.setFifo f q).ctx = s.ctx := by cases f <;> rfl
@[simp] theorem setFifo_isr (s : State) (f : Inst) (q : Fifo f) : (s.setFifo f q).isr = s.isr := by cases f <;> rfl
@[simp] theorem setFifo_usbInLog (s : State) (f : Inst) (q : Fifo f) : (s.setFifo f q).usbInLog = s.usbInLog := by cases f <;> rfl
@[simp] theorem setFifo_usbOutLog (s : State) (f : Inst) (q : Fifo f) : (s.setFifo f q).usbOutLog = s.usbOutLog := by cases f <;> rfl
@[simp] theorem setFifo_wireInLog (s : State) (f : Inst) (q : Fifo f) : (s.setFifo f q).wireInLog = s.wireInLog := by cases f <;> rfl
@[simp] theorem setFifo_wireOutLog (s : State) (f : Inst) (q : Fifo f) : (s.setFifo f q).wireOutLog = s.wireOutLog := by cases f <;> rfl
@[simp] theorem setFifo_resp (s : State) (f : Inst) (q : Fifo f) : (s.setFifo f q).resp = s.resp := by cases f <;> rfl
@[simp] theorem setFifo_inputs (s : State) (f : Inst) (q : Fifo f) : (s.setFifo f q).inputs = s.inputs := by cases f <;> rfl
@[simp] theorem setFifo_tick (s : State) (f : Inst) (q : Fifo f) : (s.setFifo f q).tick = s.tick := by cases f <;> rfl
@[simp] theorem setFifo_txbusy (s : State) (f : Inst) (q : Fifo f) : (s.setFifo f q).txbusy = s.txbusy := by cases f <;> rfl
@[simp] theorem setFifo_rxcie (s : State) (f : Inst) (q : Fifo f) : (s.setFifo f q).rxcie = s.rxcie := by cases f <;> rfl
@[simp] theorem setFifo_rxen (s : State) (f : Inst) (q : Fifo f) : (s.setFifo f q).rxen = s.rxen := by cases f <;> rfl
@[simp] theorem setFifo_txen (s : State) (f : Inst) (q : Fifo f) : (s.setFifo f q).txen = s.txen := by cases f <;> rfl
@[simp] theorem setFifo_sendReady (s : State) (f : Inst) (q : Fifo f) : (s.setFifo f q).sendReady = s.sendReady := by cases f <;> rfl
@[simp] theorem setFifo_irqRequested (s : State) (f : Inst) (q : Fifo f) : (s.setFifo f q).irqRequested = s.irqRequested := by cases f <;> rfl
@[simp] theorem setFifo_draws (s : State) (f : Inst) (q : Fifo f) : (s.setFifo f q).draws = s.draws := by cases f <;> rfl
@[simp] theorem setFifo_booting (s : State) (f : Inst) (q : Fifo f) : (s.setFifo f q).booting = s.booting := by cases f <;> rfl

@[simp] theorem setFifo_fifo_same (s : State) (f : Inst) (q : Fifo f) : (s.setFifo f q).fifo f = q := by cases f <;> rfl

theorem setFifo_fifo_other (s : State) (f g : Inst) (q : Fifo f) (h : g ≠ f) : (s.setFifo f q).fifo g = s.fifo g := by
  cases f <;> cases g <;> first | rfl | exact absurd rfl h

/-- What holds of the replaced instance and of each other one holds of every one. -/
theorem setFifo_fifo_all (s : State) (f : Inst) (q : Fifo f) (p : (g : Inst) → Fifo g → Prop) (hf : p f q)
    (hg : ∀ g, g ≠ f → p g (s.fifo g)) (g : Inst) : p g ((s.setFifo f q).fifo g) := by
  by_cases h : g = f
  · subst h; simpa using hf
  · rw [setFifo_fifo_other s f g q h]; exact hg g h

@[simp] theorem setFifo_content_same (s : State) (f : Inst) (q : Fifo f) :
    (s.setFifo f q).content f = contentFrom q.mem (Config.cap f) q.rd.toNat q.count.toNat := by
  simp [State.content]

theorem setFifo_content_other (s : State) (f g : Inst) (q : Fifo f) (h : g ≠ f) :
    (s.setFifo f q).content g = s.content g := by
  simp [State.content, setFifo_fifo_other s f g q h]

theorem fifo_f0 (s : State) : s.fifo .f0 = s.fifo0 := rfl
theorem fifo_f1 (s : State) : s.fifo .f1 = s.fifo1 := rfl
theorem fifo_f2 (s : State) : s.fifo .f2 = s.fifo2 := rfl
@[simp] theorem setFifo_f0_fifo0 (s : State) (q : Fifo .f0) : (s.setFifo .f0 q).fifo0 = q := rfl
@[simp] theorem setFifo_f0_fifo1 (s : State) (q : Fifo .f0) : (s.setFifo .f0 q).fifo1 = s.fifo1 := rfl
@[simp] theorem setFifo_f0_fifo2 (s : State) (q : Fifo .f0) : (s.setFifo .f0 q).fifo2 = s.fifo2 := rfl
@[simp] theorem setFifo_f1_fifo0 (s : State) (q : Fifo .f1) : (s.setFifo .f1 q).fifo0 = s.fifo0 := rfl
@[simp] theorem setFifo_f1_fifo1 (s : State) (q : Fifo .f1) : (s.setFifo .f1 q).fifo1 = q := rfl
@[simp] theorem setFifo_f1_fifo2 (s : State) (q : Fifo .f1) : (s.setFifo .f1 q).fifo2 = s.fifo2 := rfl
@[simp] theorem setFifo_f2_fifo0 (s : State) (q : Fifo .f2) : (s.setFifo .f2 q).fifo0 = s.fifo0 := rfl
@[simp] theorem setFifo_f2_fifo1 (s : State) (q : Fifo .f2) : (s.setFifo .f2 q).fifo1 = s.fifo1 := rfl
@[simp] theorem setFifo_f2_fifo2 (s : State) (q : Fifo .f2) : (s.setFifo .f2 q).fifo2 = q := rfl

/-! ## An instance's updates -/

@[simp] theorem pushed_mem {f : Inst} (q : Fifo f) (b : Byte) : (q.pushed b).mem = q.mem.write q.wr.toNat b := rfl
@[simp] theorem pushed_wr {f : Inst} (q : Fifo f) (b : Byte) : (q.pushed b).wr = nextCursor f q.wr := rfl
@[simp] theorem pushed_rd {f : Inst} (q : Fifo f) (b : Byte) : (q.pushed b).rd = q.rd := rfl
@[simp] theorem pushed_count {f : Inst} (q : Fifo f) (b : Byte) : (q.pushed b).count = q.count + 1 := rfl
@[simp] theorem pushed_inited {f : Inst} (q : Fifo f) (b : Byte) : (q.pushed b).inited = q.inited := rfl
@[simp] theorem popped_mem {f : Inst} (q : Fifo f) : (q.popped).mem = q.mem := rfl
@[simp] theorem popped_wr {f : Inst} (q : Fifo f) : (q.popped).wr = q.wr := rfl
@[simp] theorem popped_rd {f : Inst} (q : Fifo f) : (q.popped).rd = nextCursor f q.rd := rfl
@[simp] theorem popped_count {f : Inst} (q : Fifo f) : (q.popped).count = q.count - 1 := rfl
@[simp] theorem popped_inited {f : Inst} (q : Fifo f) : (q.popped).inited = q.inited := rfl
@[simp] theorem flushed_mem {f : Inst} (q : Fifo f) : q.flushed.mem = q.mem := rfl
@[simp] theorem flushed_wr {f : Inst} (q : Fifo f) : q.flushed.wr = q.wr := rfl
@[simp] theorem flushed_rd {f : Inst} (q : Fifo f) : q.flushed.rd = q.wr := rfl
@[simp] theorem flushed_count {f : Inst} (q : Fifo f) : q.flushed.count = 0 := rfl
@[simp] theorem flushed_inited {f : Inst} (q : Fifo f) : q.flushed.inited = q.inited := rfl

/-! ## Selects -/

@[simp] theorem instOfSelect_selectOf (f : Inst) : instOfSelect (selectOf f) = some f := by cases f <;> rfl

theorem instOfSelect_three : instOfSelect 3#2 = none := rfl

theorem selectOf_wellFormed (f : Inst) : wellFormedSelect (selectOf f) = true := by cases f <;> rfl

/-- A well-formed select is that of an instance (R71). -/
theorem exists_inst_of_wellFormed (ff : BitVec 2) (h : wellFormedSelect ff = true) : ∃ f, ff = selectOf f := by
  have cases4 : ff = 0#2 ∨ ff = 1#2 ∨ ff = 2#2 ∨ ff = 3#2 := by
    revert ff; decide
  rcases cases4 with rfl | rfl | rfl | rfl
  · exact ⟨.f0, rfl⟩
  · exact ⟨.f1, rfl⟩
  · exact ⟨.f2, rfl⟩
  · exact absurd h (by decide)

/-! ## Widths (R14) -/

@[simp] theorem cap_pos (f : Inst) : 0 < Config.cap f := by cases f <;> decide

/-- Every capacity is a power of two, so `AW` bits count the cells exactly. -/
theorem cap_eq (f : Inst) : Config.cap f = 2 ^ Config.aw f := by cases f <;> rfl

/-- A count's width holds the capacity. -/
theorem cap_lt (f : Inst) : Config.cap f < 2 ^ Config.cw f := by cases f <;> decide

/-- A cursor lies inside the array (R17, R51). -/
theorem cursor_lt {f : Inst} (c : Cursor f) : c.toNat < Config.cap f := by rw [cap_eq]; exact c.isLt

@[simp] theorem cursor_mod {f : Inst} (c : Cursor f) : c.toNat % Config.cap f = c.toNat := Nat.mod_eq_of_lt (cursor_lt c)

@[simp] theorem nextCursor_toNat {f : Inst} (c : Cursor f) :
    (nextCursor f c).toNat = (c.toNat + 1) % Config.cap f := by
  rw [nextCursor, BitVec.toNat_ofNat, cap_eq, Nat.mod_mod]

@[simp] theorem count_one_toNat (f : Inst) : (1 : Count f).toNat = 1 := by cases f <;> rfl

/-- The count of an instance that is not full goes up by one without wrapping (R93). -/
theorem count_succ_toNat {f : Inst} (n : Count f) (h : n.toNat < Config.cap f) : (n + 1).toNat = n.toNat + 1 := by
  have := cap_lt f
  rw [BitVec.toNat_add, count_one_toNat, Nat.mod_eq_of_lt (by omega)]

/-- A count that is not zero goes down by one without wrapping (R93). -/
theorem count_pred_toNat {f : Inst} (n : Count f) (h : n.toNat ≠ 0) : (n - 1).toNat = n.toNat - 1 := by
  rw [BitVec.toNat_sub_of_le (by rw [BitVec.le_def, count_one_toNat]; omega), count_one_toNat]

/-- The batch bound is truncated nowhere (R137). -/
@[simp] theorem batchBound_toNat (n : Count Config.u2h) :
    (batchBound n).toNat = min n.toNat (Config.epSize - 1) := by
  have := n.isLt
  rw [batchBound, BitVec.toNat_ofNat, Nat.mod_eq_of_lt (by omega)]

end Sys2Proof.Machine
end

