-- ==== Sys2Proof/Laws/Memory.lean ====
section
/-!
SUPPORT. The storage of an instance: a read after a write, and that a write keeps the canonical form and stays inside
the array. INIT, REMOVE, PEEK, FLUSH and the queries do not write storage at all, so these are all its operations.
-/

namespace Sys2Proof.Machine

/-- A cell reads as what was last written to it, and a write leaves every other cell alone. -/
theorem read_write (m : Memory) (a b : Nat) (v : Byte) :
    Memory.read (Memory.write m a v) b = if b = a then some v else Memory.read m b := by
  induction m with
  | nil => simp [Memory.write, Memory.read]
  | cons c rest ih =>
    obtain ⟨x, w⟩ := c
    simp only [Memory.write]
    split
    · simp [Memory.read]
    · split
      · subst_vars
        simp only [Memory.read]
        split <;> rfl
      · simp only [Memory.read, ih]
        by_cases hb : b = x
        · subst hb
          rw [if_pos rfl, if_neg (by omega), if_pos rfl]
        · rw [if_neg hb, if_neg hb]

@[simp] theorem read_write_same (m : Memory) (a : Nat) (v : Byte) : Memory.read (Memory.write m a v) a = some v := by
  simp [read_write]

/-- The first address of a memory after a write is the written one or the old first. -/
theorem head_write (m : Memory) (a x : Nat) (v : Byte) (hx : x < a)
    (h : m.head?.all (fun c => decide (x < c.1)) = true) :
    (Memory.write m a v).head?.all (fun c => decide (x < c.1)) = true := by
  cases m with
  | nil => simpa [Memory.write] using hx
  | cons c rest =>
    obtain ⟨y, w⟩ := c
    simp only [Memory.write]
    split
    · simpa using hx
    · split
      · simpa using hx
      · simpa using h

/-- A write keeps the canonical form. -/
theorem write_wf (m : Memory) (a : Nat) (v : Byte) (h : m.wf = true) : (Memory.write m a v).wf = true := by
  induction m with
  | nil => simp [Memory.write, Memory.wf]
  | cons c rest ih =>
    obtain ⟨x, w⟩ := c
    simp only [Memory.wf, Bool.and_eq_true] at h
    simp only [Memory.write]
    split
    · simp [Memory.wf, h.1, h.2]
      assumption
    · split
      · subst_vars
        simp [Memory.wf, h.1, h.2]
      · simp only [Memory.wf, Bool.and_eq_true]
        exact ⟨head_write rest a x v (by omega) h.1, ih h.2⟩

/-- A write inside the array stays inside it. -/
theorem write_within (m : Memory) (a cap : Nat) (v : Byte) (ha : a < cap) (h : m.within cap = true) :
    (Memory.write m a v).within cap = true := by
  induction m with
  | nil => simpa [Memory.write, Memory.within] using ha
  | cons c rest ih =>
    obtain ⟨x, w⟩ := c
    have h' : x < cap ∧ Memory.within rest cap = true := by simpa [Memory.within] using h
    simp only [Memory.write]
    split
    · simpa [Memory.within] using ⟨ha, by simpa [Memory.within] using h⟩
    · split
      · simpa [Memory.within] using ⟨ha, by simpa [Memory.within] using h'.2⟩
      · simpa [Memory.within] using ⟨h'.1, by simpa [Memory.within] using ih h'.2⟩

/-- A cell below the first listed address of a canonical memory holds no value. -/
theorem read_none_of_below (m : Memory) (a : Nat) (h : m.wf = true)
    (hb : m.head?.all (fun c => decide (a < c.1)) = true) : Memory.read m a = none := by
  induction m with
  | nil => rfl
  | cons c rest ih =>
    obtain ⟨x, w⟩ := c
    simp only [Memory.wf, Bool.and_eq_true] at h
    have hx : a < x := by simpa using hb
    simp only [Memory.read]
    rw [if_neg (by omega)]
    refine ih h.2 ?_
    cases rest with
    | nil => rfl
    | cons d tl =>
      have : x < d.1 := by simpa using h.1
      simpa using Nat.lt_trans hx this

end Sys2Proof.Machine
end

