-- ==== Sys2Proof/Laws/Content.lean ====
section
/-!
SUPPORT. The abstract content of an instance (10_state.md R19): its length is the count, and what INSERT and REMOVE do
to it. The facts are about a storage, a capacity, a cursor and a count; `Fifo.Ok` supplies their hypotheses.
-/

namespace Sys2Proof.Machine

@[simp] theorem contentFrom_zero (m : Memory) (cap c : Nat) : contentFrom m cap c 0 = [] := rfl

theorem contentFrom_succ (m : Memory) (cap c n : Nat) :
    contentFrom m cap c (n + 1) = (Memory.read m (c % cap)).toList ++ contentFrom m cap (c + 1) n := rfl

/-- The content depends on the cursor modulo the capacity. -/
theorem contentFrom_mod (m : Memory) (cap c n : Nat) : contentFrom m cap (c % cap) n = contentFrom m cap c n := by
  induction n generalizing c with
  | zero => rfl
  | succ k ih =>
    rw [contentFrom_succ, contentFrom_succ, Nat.mod_mod, ← ih (c % cap + 1), ← ih (c + 1), Nat.mod_add_mod]

/-- When every cell of the content holds a value, the content has as many bytes as the count says. -/
theorem contentFrom_length (m : Memory) (cap c n : Nat)
    (h : ∀ k, k < n → (Memory.read m ((c + k) % cap)).isSome = true) : (contentFrom m cap c n).length = n := by
  induction n generalizing c with
  | zero => rfl
  | succ k ih =>
    have h0 : (Memory.read m (c % cap)).isSome = true := by simpa using h 0 (by omega)
    obtain ⟨v, hv⟩ := Option.isSome_iff_exists.mp h0
    have ht := ih (c + 1) (fun j hj => by
      have := h (j + 1) (by omega)
      rwa [show c + 1 + j = c + (j + 1) by omega])
    rw [contentFrom_succ, hv, List.length_append, ht]
    simp; omega

/-- The content with its last cell split off. -/
theorem contentFrom_snoc (m : Memory) (cap c n : Nat) :
    contentFrom m cap c (n + 1) = contentFrom m cap c n ++ (Memory.read m ((c + n) % cap)).toList := by
  induction n generalizing c with
  | zero => simp [contentFrom_succ]
  | succ k ih =>
    rw [contentFrom_succ, ih (c + 1), contentFrom_succ, List.append_assoc]
    rw [show c + 1 + k = c + (k + 1) by omega]

/-- Two positions of the content lie in different cells. -/
theorem cell_ne (cap c i j : Nat) (hi : i < j) (hj : j < i + cap) : (c + i) % cap ≠ (c + j) % cap := by
  intro h
  have : (c + j) - (c + i) = j - i := by omega
  have hd : cap ∣ j - i := by
    rw [← this]
    exact (Nat.modEq_iff_dvd' (by omega)).mp h
  have := Nat.le_of_dvd (by omega) hd
  omega

/-- Writing the cell just behind the content leaves the content alone. -/
theorem contentFrom_write_behind (m : Memory) (cap c n : Nat) (v : Byte) (hn : n < cap) :
    contentFrom (Memory.write m ((c + n) % cap) v) cap c n = contentFrom m cap c n := by
  have key : ∀ k d, k ≤ n → d = n - k →
      contentFrom (Memory.write m ((c + n) % cap) v) cap (c + d) k = contentFrom m cap (c + d) k := by
    intro k
    induction k with
    | zero => intros; rfl
    | succ j ih =>
      intro d hk hd
      have hcell : (c + d) % cap ≠ (c + n) % cap := cell_ne cap c d n (by omega) (by omega)
      rw [contentFrom_succ, contentFrom_succ, read_write, if_neg hcell,
        show c + d + 1 = c + (d + 1) by omega, ih (d + 1) (by omega) (by omega)]
  simpa using key n 0 (by omega) (by omega)

/-- INSERT appends (R90): the byte written behind the content is its new last byte. -/
theorem contentFrom_push (m : Memory) (cap c n : Nat) (v : Byte) (hn : n < cap) :
    contentFrom (Memory.write m ((c + n) % cap) v) cap c (n + 1) = contentFrom m cap c n ++ [v] := by
  rw [contentFrom_snoc, contentFrom_write_behind m cap c n v hn, read_write_same]
  rfl

/-- REMOVE takes the head (R90): the content from the next cursor on is the tail. -/
theorem contentFrom_pop (m : Memory) (cap c n : Nat) (v : Byte) (hv : Memory.read m (c % cap) = some v) :
    contentFrom m cap c (n + 1) = v :: contentFrom m cap ((c + 1) % cap) n := by
  rw [contentFrom_succ, hv, contentFrom_mod]
  rfl

end Sys2Proof.Machine
end

