-- ==== Sys2Proof/Laws/Ops.lean ====
section
/-!
SUPPORT. One lemma per shared operation that says everything it can do when it answers, and one that says when it
answers; then that each of the ring-buffer operations keeps an instance in order (`Fifo.Ok`) and what it does to the
content (R90).
-/

namespace Sys2Proof.Machine

@[simp] theorem settle_ok {α : Type} (a : α) (k : α → Out) : settle (.ok a) k = k a := rfl

@[simp] theorem settle_error {α : Type} (e : Fault) (k : α → Out) : settle (.error e) k = .fault e := rfl

/-- A settled operation that answers a next state did not fault. -/
theorem settle_next {α : Type} {r : Except Fault α} {k : α → Out} {t : State} (h : settle r k = .next t) :
    ∃ a, r = .ok a ∧ k a = .next t := by
  cases r with
  | ok a => exact ⟨a, rfl, h⟩
  | error e => simp at h

/-! ## The checks -/

theorem guarded_ok {α : Type} {op : FifoOp} {f : Inst} {s : State} {r : Except Fault α} {a : α}
    (h : guarded op f s r = .ok a) : (s.fifo f).inited = true ∧ s.mayIssue op f = true ∧ r = .ok a := by
  unfold guarded at h
  split at h
  · cases h
  · split at h
    · cases h
    · rename_i h1 h2
      exact ⟨by simpa using h1, by simpa using h2, h⟩

theorem guarded_pass {α : Type} (op : FifoOp) (f : Inst) (s : State) (r : Except Fault α)
    (hi : (s.fifo f).inited = true) (ho : s.mayIssue op f = true) : guarded op f s r = r := by
  simp [guarded, hi, ho]

@[simp] theorem mayIssue_query (s : State) (f : Inst) : s.mayIssue .query f = true := rfl

@[simp] theorem full_iff (s : State) (f : Inst) : s.full f = true ↔ (s.fifo f).count.toNat = Config.cap f := by
  simp [State.full]

@[simp] theorem full_false_iff (s : State) (f : Inst) : s.full f = false ↔ (s.fifo f).count.toNat ≠ Config.cap f := by
  simp [State.full]

@[simp] theorem empty_iff (s : State) (f : Inst) : s.empty f = true ↔ (s.fifo f).count.toNat = 0 := by
  simp [State.empty]

@[simp] theorem empty_false_iff (s : State) (f : Inst) : s.empty f = false ↔ (s.fifo f).count.toNat ≠ 0 := by
  simp [State.empty]

/-! ## What an operation that answers has done -/

theorem opInit_ok {f : Inst} {s t : State} (h : opInit f s = .ok t) :
    (s.fifo f).inited = false ∧ s.mayIssue .init f = true ∧
      t = s.setFifo f { s.fifo f with count := 0, wr := 0, rd := 0, inited := true } := by
  unfold opInit at h
  split at h
  · cases h
  · split at h
    · cases h
    · rename_i h1 h2
      cases h
      exact ⟨by simpa using h1, by simpa using h2, rfl⟩

theorem opInsert_ok {f : Inst} {b : Byte} {s t : State} (h : opInsert f b s = .ok t) :
    (s.fifo f).inited = true ∧ s.mayIssue .insert f = true ∧
      (((s.fifo f).count.toNat = Config.cap f ∧ t = s) ∨
        ((s.fifo f).count.toNat ≠ Config.cap f ∧ t = s.setFifo f ((s.fifo f).pushed b))) := by
  obtain ⟨hi, ho, h⟩ := guarded_ok h
  refine ⟨hi, ho, ?_⟩
  split at h
  · rename_i hf
    cases h
    exact .inl ⟨by simpa using hf, rfl⟩
  · rename_i hf
    cases h
    exact .inr ⟨by simpa using hf, rfl⟩

theorem memRead_ok {f : Inst} {i : Cursor f} {s : State} {v : Byte} (h : memRead f i s = .ok v) :
    (s.fifo f).mem.read i.toNat = some v := by
  unfold memRead at h
  split at h
  · rename_i hv
    cases h
    exact hv
  · cases h

theorem headByte_ok {op : FifoOp} {f : Inst} {s : State} {v : Byte} (h : headByte op f s = .ok v) :
    (s.fifo f).count.toNat ≠ 0 ∧ (s.fifo f).mem.read (s.fifo f).rd.toNat = some v := by
  unfold headByte at h
  split at h
  · cases h
  · rename_i he
    exact ⟨by simpa using he, memRead_ok h⟩

theorem opRemove_ok {f : Inst} {s : State} {v : Byte} {t : State} (h : opRemove f s = .ok (v, t)) :
    (s.fifo f).inited = true ∧ s.mayIssue .remove f = true ∧ (s.fifo f).count.toNat ≠ 0 ∧
      (s.fifo f).mem.read (s.fifo f).rd.toNat = some v ∧
      t = s.setFifo f ((s.fifo f).popped) := by
  obtain ⟨hi, ho, h⟩ := guarded_ok h
  split at h
  · cases h
  · rename_i w hw
    cases h
    obtain ⟨hc, hv⟩ := headByte_ok hw
    exact ⟨hi, ho, hc, hv, rfl⟩

theorem opPeek_ok {f : Inst} {s : State} {v : Byte} (h : opPeek f s = .ok v) :
    (s.fifo f).inited = true ∧ s.mayIssue .peek f = true ∧ (s.fifo f).count.toNat ≠ 0 ∧
      (s.fifo f).mem.read (s.fifo f).rd.toNat = some v := by
  obtain ⟨hi, ho, h⟩ := guarded_ok h
  exact ⟨hi, ho, headByte_ok h⟩

theorem opIsFull_ok {f : Inst} {s : State} {b : Bool} (h : opIsFull f s = .ok b) :
    (s.fifo f).inited = true ∧ b = s.full f := by
  obtain ⟨hi, _, h⟩ := guarded_ok h
  cases h
  exact ⟨hi, rfl⟩

theorem opIsEmpty_ok {f : Inst} {s : State} {b : Bool} (h : opIsEmpty f s = .ok b) :
    (s.fifo f).inited = true ∧ b = s.empty f := by
  obtain ⟨hi, _, h⟩ := guarded_ok h
  cases h
  exact ⟨hi, rfl⟩

theorem opCount_ok {f : Inst} {s : State} {n : Count f} (h : opCount f s = .ok n) :
    (s.fifo f).inited = true ∧ n = (s.fifo f).count := by
  obtain ⟨hi, _, h⟩ := guarded_ok h
  cases h
  exact ⟨hi, rfl⟩

theorem opFlush_ok {f : Inst} {s t : State} (h : opFlush f s = .ok t) :
    (s.fifo f).inited = true ∧ s.mayIssue .flush f = true ∧ t = s.setFifo f (s.fifo f).flushed := by
  obtain ⟨hi, ho, h⟩ := guarded_ok h
  cases h
  exact ⟨hi, ho, rfl⟩

theorem opSend_ok {b : Byte} {s t : State} (h : opSend b s = .ok t) :
    s.sendReady = true ∧ t = { s with txshift := some b } := by
  unfold opSend at h
  split at h
  · cases h
  · rename_i hs
    cases h
    exact ⟨by simpa using hs, rfl⟩

/-! ## When an operation answers -/

theorem opInit_pass (f : Inst) (s : State) (hi : (s.fifo f).inited = false) (ho : s.mayIssue .init f = true) :
    opInit f s = .ok (s.setFifo f { s.fifo f with count := 0, wr := 0, rd := 0, inited := true }) := by
  simp [opInit, hi, ho]

theorem opInsert_accept (f : Inst) (b : Byte) (s : State) (hi : (s.fifo f).inited = true)
    (ho : s.mayIssue .insert f = true) (hc : (s.fifo f).count.toNat ≠ Config.cap f) :
    opInsert f b s = .ok (s.setFifo f ((s.fifo f).pushed b)) := by
  rw [opInsert, guarded_pass _ _ _ _ hi ho]
  simp [State.full, hc]

theorem opInsert_full (f : Inst) (b : Byte) (s : State) (hi : (s.fifo f).inited = true)
    (ho : s.mayIssue .insert f = true) (hc : (s.fifo f).count.toNat = Config.cap f) : opInsert f b s = .ok s := by
  rw [opInsert, guarded_pass _ _ _ _ hi ho]
  simp [State.full, hc]

theorem headByte_pass (op : FifoOp) (f : Inst) (s : State) (v : Byte) (hc : (s.fifo f).count.toNat ≠ 0)
    (hv : (s.fifo f).mem.read (s.fifo f).rd.toNat = some v) :
    headByte op f s = .ok v := by
  simp [headByte, State.empty, hc, memRead, hv]

theorem opRemove_pass (f : Inst) (s : State) (v : Byte) (hi : (s.fifo f).inited = true)
    (ho : s.mayIssue .remove f = true) (hc : (s.fifo f).count.toNat ≠ 0)
    (hv : (s.fifo f).mem.read (s.fifo f).rd.toNat = some v) :
    opRemove f s = .ok (v, s.setFifo f ((s.fifo f).popped)) := by
  rw [opRemove, guarded_pass _ _ _ _ hi ho, headByte_pass _ _ _ v hc hv]

theorem opPeek_pass (f : Inst) (s : State) (v : Byte) (hi : (s.fifo f).inited = true)
    (ho : s.mayIssue .peek f = true) (hc : (s.fifo f).count.toNat ≠ 0)
    (hv : (s.fifo f).mem.read (s.fifo f).rd.toNat = some v) : opPeek f s = .ok v := by
  rw [opPeek, guarded_pass _ _ _ _ hi ho, headByte_pass _ _ _ v hc hv]

theorem opIsFull_pass (f : Inst) (s : State) (hi : (s.fifo f).inited = true) : opIsFull f s = .ok (s.full f) := by
  rw [opIsFull, guarded_pass _ _ _ _ hi rfl]

theorem opIsEmpty_pass (f : Inst) (s : State) (hi : (s.fifo f).inited = true) : opIsEmpty f s = .ok (s.empty f) := by
  rw [opIsEmpty, guarded_pass _ _ _ _ hi rfl]

theorem opCount_pass (f : Inst) (s : State) (hi : (s.fifo f).inited = true) : opCount f s = .ok (s.fifo f).count := by
  rw [opCount, guarded_pass _ _ _ _ hi rfl]

theorem opFlush_pass (f : Inst) (s : State) (hi : (s.fifo f).inited = true) (ho : s.mayIssue .flush f = true) :
    opFlush f s = .ok (s.setFifo f (s.fifo f).flushed) := by
  rw [opFlush, guarded_pass _ _ _ _ hi ho]

theorem opSend_pass (b : Byte) (s : State) (h : s.sendReady = true) :
    opSend b s = .ok { s with txshift := some b } := by
  simp [opSend, h]

/-! ## Each operation keeps an instance in order -/

/-- The head byte of an instance in order with a positive count. -/
theorem ok_head {f : Inst} {q : Fifo f} (h : q.Ok) (hi : q.inited = true) (hc : q.count.toNat ≠ 0) :
    ∃ v, q.mem.read q.rd.toNat = some v := by
  have := h.held hi 0 (by omega)
  rw [Nat.add_zero, cursor_mod] at this
  exact Option.isSome_iff_exists.mp this

theorem reset_ok (f : Inst) : (Fifo.reset f).Ok where
  wf := rfl
  within := rfl
  fresh := fun _ => rfl
  countLe := by simp [Fifo.reset]
  wrEq := by simp [Fifo.reset]
  held := by simp [Fifo.reset]

theorem inited_ok {f : Inst} {q : Fifo f} (h : q.Ok) :
    ({ q with count := 0, wr := 0, rd := 0, inited := true } : Fifo f).Ok where
  wf := h.wf
  within := h.within
  fresh := by simp
  countLe := by simp
  wrEq := by simp
  held := by simp

/-- The count of an accepting instance in order goes up by one. -/
theorem pushed_count_toNat {f : Inst} {q : Fifo f} (b : Byte) (h : q.Ok) (hi : q.inited = true)
    (hc : q.count.toNat ≠ Config.cap f) : (q.pushed b).count.toNat = q.count.toNat + 1 :=
  count_succ_toNat _ (Nat.lt_of_le_of_ne (h.countLe hi) hc)

theorem pushed_ok {f : Inst} {q : Fifo f} (b : Byte) (h : q.Ok) (hi : q.inited = true)
    (hc : q.count.toNat ≠ Config.cap f) : (q.pushed b).Ok where
  wf := write_wf _ _ _ h.wf
  within := write_within _ _ _ _ (cursor_lt _) h.within
  fresh := fun hn => by simp [hi] at hn
  countLe := fun _ => by
    have := h.countLe hi
    rw [pushed_count_toNat b h hi hc]
    omega
  wrEq := fun _ => by
    rw [pushed_count_toNat b h hi hc]
    simp [h.wrEq hi, Nat.add_assoc]
  held := fun _ k hk => by
    rw [pushed_count_toNat b h hi hc] at hk
    simp only [pushed_mem, pushed_rd, read_write]
    split
    · rfl
    · rename_i hne
      rcases Nat.lt_or_ge k q.count.toNat with hlt | hge
      · exact h.held hi k hlt
      · have : k = q.count.toNat := by omega
        subst this
        exact absurd (h.wrEq hi).symm hne

theorem popped_ok {f : Inst} {q : Fifo f} (h : q.Ok) (hi : q.inited = true) (hc : q.count.toNat ≠ 0) :
    q.popped.Ok where
  wf := h.wf
  within := h.within
  fresh := fun hn => by simp [hi] at hn
  countLe := fun _ => by
    have := h.countLe hi
    rw [popped_count, count_pred_toNat _ hc]
    omega
  wrEq := fun _ => by
    rw [popped_wr, popped_rd, popped_count, count_pred_toNat _ hc, nextCursor_toNat, Nat.mod_add_mod, h.wrEq hi]
    congr 1
    omega
  held := fun _ k hk => by
    rw [popped_count, count_pred_toNat _ hc] at hk
    simp only [popped_mem, popped_rd, nextCursor_toNat, Nat.mod_add_mod]
    have := h.held hi (k + 1) (by omega)
    rwa [show q.rd.toNat + 1 + k = q.rd.toNat + (k + 1) by omega]

theorem flushed_ok {f : Inst} {q : Fifo f} (h : q.Ok) (hi : q.inited = true) : q.flushed.Ok where
  wf := h.wf
  within := h.within
  fresh := fun hn => by simp [hi] at hn
  countLe := by simp
  wrEq := fun _ => by simp
  held := by simp

/-! ## What each operation does to the content (R90) -/

theorem content_length {f : Inst} {s : State} (h : (s.fifo f).Ok) (hi : (s.fifo f).inited = true) :
    (s.content f).length = (s.fifo f).count.toNat :=
  contentFrom_length _ _ _ _ (h.held hi)

theorem content_pushed {f : Inst} {s : State} (b : Byte) (h : (s.fifo f).Ok) (hi : (s.fifo f).inited = true)
    (hc : (s.fifo f).count.toNat ≠ Config.cap f) :
    (s.setFifo f ((s.fifo f).pushed b)).content f = s.content f ++ [b] := by
  have hlt : (s.fifo f).count.toNat < Config.cap f := Nat.lt_of_le_of_ne (h.countLe hi) hc
  rw [setFifo_content_same, pushed_count_toNat b h hi hc, pushed_mem, pushed_rd, h.wrEq hi]
  exact contentFrom_push _ _ _ _ b hlt

theorem content_popped {f : Inst} {s : State} {v : Byte} (hc : (s.fifo f).count.toNat ≠ 0)
    (hv : (s.fifo f).mem.read (s.fifo f).rd.toNat = some v) :
    s.content f = v :: (s.setFifo f (s.fifo f).popped).content f := by
  rw [setFifo_content_same, popped_mem, popped_rd, popped_count, count_pred_toNat _ hc, nextCursor_toNat]
  obtain ⟨n, hn⟩ : ∃ n, (s.fifo f).count.toNat = n + 1 := ⟨(s.fifo f).count.toNat - 1, by omega⟩
  unfold State.content
  rw [hn, Nat.add_sub_cancel]
  exact contentFrom_pop _ _ _ _ v (by rwa [cursor_mod])

theorem content_flushed (f : Inst) (s : State) : (s.setFifo f (s.fifo f).flushed).content f = [] := by
  simp

theorem head_content {f : Inst} {s : State} {v : Byte} (hc : (s.fifo f).count.toNat ≠ 0)
    (hv : (s.fifo f).mem.read (s.fifo f).rd.toNat = some v) : (s.content f).head? = some v := by
  rw [content_popped hc hv]
  rfl

/-! ## The engine -/

/-- What starting on a list of requests does (R108, R133, R135): the first acceptable one starts and those behind it
wait; with none acceptable nothing waits, and MAIN, if it stands at 4.2, goes back to step 1. -/
theorem startNext_cases (rs : List LineReq) (s : State) :
    (∃ pre r rest, rs = pre ++ r :: rest ∧ (∀ x ∈ pre, accept x = false) ∧ accept r = true ∧
      startNext rs s = { s with engine := some (.p1, r), evs := rest }) ∨
    ((∀ x ∈ rs, accept x = false) ∧
      startNext rs s = { s with evs := [], pos := if s.pos = .s42 then .s11 else s.pos }) := by
  induction rs with
  | nil => exact .inr ⟨by simp, rfl⟩
  | cons r rest ih =>
    simp only [startNext]
    split
    · rename_i ha
      exact .inl ⟨[], r, rest, rfl, by simp, ha, rfl⟩
    · rename_i ha
      have ha' : accept r = false := by simpa using ha
      rcases ih with ⟨pre, x, tl, rfl, hpre, hx, heq⟩ | ⟨hall, heq⟩
      · refine .inl ⟨r :: pre, x, tl, rfl, ?_, hx, heq⟩
        intro y hy
        rcases List.mem_cons.mp hy with rfl | hy
        · exact ha'
        · exact hpre y hy
      · refine .inr ⟨?_, heq⟩
        intro y hy
        rcases List.mem_cons.mp hy with rfl | hy
        · exact ha'
        · exact hall y hy

/-- Rejected requests at the front of a list are passed over (R108). -/
theorem startNext_skip (pre rest : List LineReq) (s : State) (h : ∀ y ∈ pre, accept y = false) :
    startNext (pre ++ rest) s = startNext rest s := by
  induction pre with
  | nil => rfl
  | cons a tl ih => simp [startNext, h a (by simp), ih (fun y hy => h y (by simp [hy]))]

/-- With every request of a list rejected nothing starts (R108). -/
theorem startNext_none (rs : List LineReq) (s : State) (h : ∀ y ∈ rs, accept y = false) :
    startNext rs s = { s with evs := [], pos := if s.pos = .s42 then .s11 else s.pos } := by
  have := startNext_skip rs [] s h
  rwa [List.append_nil] at this

/-- The named bits of each control register are kept by its reserved-bit mask (R30). -/
theorem enableA_masked : enableA &&& maskA = enableA := by decide

theorem enableB_masked : enableB &&& maskB = enableB := by decide

theorem frameMask_masked (r : LineReq) : frameMask r &&& maskC = frameMask r := by
  obtain ⟨b, p, t, n⟩ := r
  have key : ∀ n : BitVec 4, (parityMask p ||| stopMask t ||| dataMask n) &&& maskC
      = parityMask p ||| stopMask t ||| dataMask n := by
    cases p <;> cases t <;> decide
  exact key n

end Sys2Proof.Machine
end

