-- ==== Sys2Proof/Laws/Agents.lean ====
section
/-!
SUPPORT. What a step does, said once: the inversion of `step` and of a presented word, what MAIN does at each position,
a run of one more step by a listed agent, and what the engine, the wire and the handler leave alone. Proofs about steps
and runs cite these and do not unfold `step`.
-/

namespace Sys2Proof.Machine

/-! ## Inversion -/

/-- A step that answers is the action of its mover, then the end of the step. -/
theorem step_next {s t : State} (h : step s = .next t) : ∃ u, moverAct s.mover s = .next u ∧ t = u.advance := by
  unfold step at h
  cases hm : moverAct s.mover s <;> rw [hm] at h <;> cases h
  exact ⟨_, rfl, rfl⟩

/-- A presented word that answers is an instruction that answers. -/
theorem runPresented_next {p : Presented} {s t : State} (h : runPresented p s = .next t) :
    ∃ i, decode p = .ok i ∧ exec i s = .next t := by
  unfold runPresented at h
  split at h
  · exact ⟨_, by assumption, h⟩
  · cases h

/-- An operation on a selected instance that answers names an instance. -/
theorem onInstance_next {ff : BitVec 2} {i : Instr} {k : Inst → Out} {t : State} (h : onInstance ff i k = .next t) :
    ∃ f, instOfSelect ff = some f ∧ k f = .next t := by
  unfold onInstance at h
  split at h
  · exact ⟨_, by assumption, h⟩
  · cases h

@[simp] theorem onInstance_selectOf (f : Inst) (i : Instr) (k : Inst → Out) : onInstance (selectOf f) i k = k f := by
  simp [onInstance]

/-! ## What MAIN does at each position -/

/-- MAIN with a reconfiguration under way runs its next phase (R122). -/
theorem mainAct_engine {s : State} {p : Phase} {r : LineReq} (hc : s.ctx = .main) (he : s.engine = some (p, r)) :
    mainAct s = .next (phaseAct p r s) := by
  simp [mainAct, hc, he, engineAct]

/-- MAIN in boot runs its next line (R169). -/
theorem mainAct_boot {s : State} (hc : s.ctx = .main) (he : s.engine = none) (hp : s.pos.code = none) :
    mainAct s = bootAct s := by
  simp [mainAct, hc, he, hp]

/-- MAIN past boot runs the instruction of its position's step code (R69). -/
theorem mainAct_code {s : State} {c : StepCode} (hc : s.ctx = .main) (he : s.engine = none) (hp : s.pos.code = some c) :
    mainAct s = exec (decodeS c) s := by
  simp [mainAct, hc, he, hp, runPresented, decode]

/-! ## Runs -/

/-- A run of one more step, by the agent the next input names. -/
theorem run_turn {s u : State} {a : Agent} {d : Draws} {rest : List Input} {k : Nat}
    (h : s.inputs = ⟨.agent a, d⟩ :: rest) (e : agentAct a s = .next u) :
    Host.Core.run Sys2Proof.core (k + 1) s = Host.Core.run Sys2Proof.core k u.advance := by
  have hs : Sys2Proof.core.step s = .next u.advance := by
    show step s = _
    unfold step State.mover
    rw [h]
    simp only [moverAct, e]
    rfl
  simp only [Host.Core.run, hs]

/-- The answers of a step are those of its input. -/
theorem draws_of_inputs {s : State} {m : Mover} {d : Draws} {rest : List Input} (h : s.inputs = ⟨m, d⟩ :: rest) :
    s.draws = d := by
  simp [State.draws, h]

/-! ## What the engine leaves alone -/

theorem startNext_fifo (rs : List LineReq) (s : State) (g : Inst) : (startNext rs s).fifo g = s.fifo g := by
  rcases startNext_cases rs s with ⟨pre, r, rest, -, -, -, heq⟩ | ⟨-, heq⟩ <;> rw [heq] <;> cases g <;> rfl

theorem startNext_traces (rs : List LineReq) (s : State) : SameTraces s (startNext rs s) := by
  rcases startNext_cases rs s with ⟨pre, r, rest, -, -, -, heq⟩ | ⟨-, heq⟩ <;> rw [heq] <;> exact ⟨rfl, rfl, rfl, rfl⟩

theorem startNext_pos (rs : List LineReq) (s : State) :
    (startNext rs s).pos = s.pos ∨ (startNext rs s).pos = .s11 ∧ s.pos = .s42 := by
  rcases startNext_cases rs s with ⟨pre, r, rest, -, -, -, heq⟩ | ⟨-, heq⟩ <;> rw [heq]
  · exact .inl rfl
  · simp only
    split
    · exact .inr ⟨rfl, by assumption⟩
    · exact .inl rfl

/-- Cutting a byte off writes `txshift` and `wire_out_log` only (R114). -/
theorem cutOff_eq (s : State) : ∃ log, cutOff s = { s with txshift := none, wireOutLog := log } ∧ s.wireOutLog <+: log := by
  cases h : s.txshift with
  | none =>
    refine ⟨s.wireOutLog, ?_, List.prefix_rfl⟩
    unfold cutOff
    rw [h]
    obtain ⟨⟩ := s
    simp_all
  | some b =>
    refine ⟨appendIf s.draws.seen s.wireOutLog b, by simp [cutOff, h], ?_⟩
    unfold appendIf
    split
    · exact List.prefix_append _ _
    · exact List.prefix_rfl

/-- No phase touches a ring buffer. -/
theorem phaseAct_fifo (p : Phase) (r : LineReq) (s : State) (g : Inst) : (phaseAct p r s).fifo g = s.fifo g := by
  cases p
  · cases g <;> rfl
  · obtain ⟨log, h, -⟩ := cutOff_eq (disableUart s)
    simp only [phaseAct, h]
    cases g <;> rfl
  · cases g <;> rfl
  · cases g <;> rfl
  · cases g <;> rfl
  · simp only [phaseAct, startNext_fifo]
    cases g <;> rfl

theorem engineAct_fifo (s : State) (g : Inst) : (engineAct s).fifo g = s.fifo g := by
  unfold engineAct
  split
  · exact phaseAct_fifo _ _ _ _
  · exact startNext_fifo _ _ _

theorem handOver_fifo (rs : List LineReq) (s : State) (g : Inst) : (handOver rs s).fifo g = s.fifo g := by
  unfold handOver
  split
  · cases g <;> rfl
  · exact startNext_fifo _ _ _

/-! ## The wire and the handler -/

@[simp] theorem wireArrive_fifo (b : Byte) (s : State) (g : Inst) : (wireArrive b s).fifo g = s.fifo g := by
  unfold wireArrive
  split
  · rfl
  · split <;> cases g <;> rfl

@[simp] theorem wireFinish_fifo (s : State) (g : Inst) : (wireFinish s).fifo g = s.fifo g := by
  unfold wireFinish
  split
  · rfl
  · cases g <;> rfl

@[simp] theorem takeInterrupt_fifo (s : State) (g : Inst) : (takeInterrupt s).fifo g = s.fifo g := by cases g <;> rfl

@[simp] theorem returnFromInterrupt_fifo (s : State) (g : Inst) : (returnFromInterrupt s).fifo g = s.fifo g := by
  cases g <;> rfl

/-! ## The invariant -/

/-- A state with the same configuration and engine as one of the invariant is of the invariant, if its instances are in
order and its context and position are. -/
theorem inv_of_same {s t : State} (h : s.Inv) (hf : ∀ f, (t.fifo f).Ok) (hc : SameConfiguration s t)
    (he : SameEngine s t) (hx : t.ctx = .isr ↔ t.isr ≠ .idle) (hp : t.pos = .s42 → t.engine.isSome = true) : t.Inv := by
  obtain ⟨hA, hB, hC, hD, hH, hL⟩ := hc
  obtain ⟨hE, hV⟩ := he
  refine ⟨hf, ?_, ?_, ?_, ?_, hp, hx⟩
  · have := h.registers
    unfold State.RegistersFollow State.Settled at *
    rw [hA, hB, hC, hD, hH, hL, hE]
    exact this
  · rw [hE]; exact h.engineAccepted
  · rw [hL]; exact h.leAccepted
  · rw [hE, hV]; exact h.idleEvs

/-- Replacing one instance by one in order keeps the invariant. -/
theorem inv_setFifo {s : State} (h : s.Inv) (f : Inst) (q : Fifo f) (hq : q.Ok) : (s.setFifo f q).Inv := by
  refine inv_of_same h (setFifo_fifo_all s f q (fun _ r => r.Ok) hq fun g _ => h.fifos g) (by simp [SameConfiguration])
    (by simp [SameEngine]) (by simpa using h.handler) (by simpa using h.at42)

end Sys2Proof.Machine
end

