-- ==== Sys2Proof/Laws/Decode.lean ====
section
/-!
SUPPORT. The fields of an encoded word are the operands it was built from, and a word with its reserved bits zero is
built from its fields: the two halves of the agreement of decoder and encoder.
-/

namespace Sys2Proof

/-! ## Format F (R66) -/

@[simp] theorem opField_wordF (op : BitVec 4) (ff : BitVec 2) (d : Byte) : opField (wordF op ff d) = op := by
  apply BitVec.eq_of_getLsbD_eq
  intro i hi
  simp only [opField, wordF, BitVec.getLsbD_extractLsb', BitVec.getLsbD_append, hi, decide_true, Bool.true_and]
  repeat' (split <;> try omega)
  congr 1; omega

@[simp] theorem ffField_wordF (op : BitVec 4) (ff : BitVec 2) (d : Byte) : ffField (wordF op ff d) = ff := by
  apply BitVec.eq_of_getLsbD_eq
  intro i hi
  simp only [ffField, wordF, BitVec.getLsbD_extractLsb', BitVec.getLsbD_append, hi, decide_true, Bool.true_and]
  repeat' (split <;> try omega)
  congr 1; omega

@[simp] theorem reservedF_wordF (op : BitVec 4) (ff : BitVec 2) (d : Byte) : reservedF (wordF op ff d) = 0#2 := by
  apply BitVec.eq_of_getLsbD_eq
  intro i hi
  simp only [reservedF, wordF, BitVec.getLsbD_extractLsb', BitVec.getLsbD_append, hi, decide_true, Bool.true_and]
  repeat' (split <;> try omega)
  simp

@[simp] theorem dField_wordF (op : BitVec 4) (ff : BitVec 2) (d : Byte) : dField (wordF op ff d) = d := by
  apply BitVec.eq_of_getLsbD_eq
  intro i hi
  simp only [dField, wordF, BitVec.getLsbD_extractLsb', BitVec.getLsbD_append, hi, decide_true, Bool.true_and]
  repeat' (split <;> try omega)
  congr 1; omega

theorem wordF_of_fields (w : Word16) (h : reservedF w = 0#2) : wordF (opField w) (ffField w) (dField w) = w := by
  apply BitVec.eq_of_getLsbD_eq
  intro i hi
  unfold wordF opField ffField dField
  unfold reservedF at h
  rw [← h]
  simp only [BitVec.getLsbD_extractLsb', BitVec.getLsbD_append]
  repeat' (split <;> try omega)
  all_goals simp (disch := omega) only [decide_eq_true, Bool.true_and]
  all_goals congr 1; omega

/-! ## Format U (R67) -/

@[simp] theorem opField_wordU (op : BitVec 4) (d : Byte) : opField (wordU op d) = op := by
  apply BitVec.eq_of_getLsbD_eq
  intro i hi
  simp only [opField, wordU, BitVec.getLsbD_extractLsb', BitVec.getLsbD_append, hi, decide_true, Bool.true_and]
  repeat' (split <;> try omega)
  congr 1; omega

@[simp] theorem reservedU_wordU (op : BitVec 4) (d : Byte) : reservedU (wordU op d) = 0#4 := by
  apply BitVec.eq_of_getLsbD_eq
  intro i hi
  simp only [reservedU, wordU, BitVec.getLsbD_extractLsb', BitVec.getLsbD_append, hi, decide_true, Bool.true_and]
  repeat' (split <;> try omega)
  simp

@[simp] theorem dField_wordU (op : BitVec 4) (d : Byte) : dField (wordU op d) = d := by
  apply BitVec.eq_of_getLsbD_eq
  intro i hi
  simp only [dField, wordU, BitVec.getLsbD_extractLsb', BitVec.getLsbD_append, hi, decide_true, Bool.true_and]
  repeat' (split <;> try omega)
  congr 1; omega

theorem wordU_of_fields (w : Word16) (h : reservedU w = 0#4) : wordU (opField w) (dField w) = w := by
  apply BitVec.eq_of_getLsbD_eq
  intro i hi
  unfold wordU opField dField
  unfold reservedU at h
  rw [← h]
  simp only [BitVec.getLsbD_extractLsb', BitVec.getLsbD_append]
  repeat' (split <;> try omega)
  all_goals simp (disch := omega) only [decide_eq_true, Bool.true_and]
  all_goals congr 1; omega

/-! ## Format L (R68, R73) -/

@[simp] theorem parityOfCode_code (p : Parity) : parityOfCode p.code = p := by cases p <;> rfl

@[simp] theorem stopOfCode_code (t : StopBits) : stopOfCode t.code = t := by cases t <;> rfl

@[simp] theorem code_parityOfCode (c : BitVec 2) : (parityOfCode c).code = c := by
  revert c; decide

@[simp] theorem code_stopOfCode (c : BitVec 1) : (stopOfCode c).code = c := by
  revert c; decide

@[simp] theorem op_wordL (r : LineReq) : (wordL r).extractLsb' 44 4 = 0b1001#4 := by
  apply BitVec.eq_of_getLsbD_eq
  intro i hi
  simp only [wordL, BitVec.getLsbD_extractLsb', BitVec.getLsbD_append, hi, decide_true, Bool.true_and]
  repeat' (split <;> try omega)
  congr 1; omega

@[simp] theorem parity_wordL (r : LineReq) : (wordL r).extractLsb' 42 2 = r.parity.code := by
  apply BitVec.eq_of_getLsbD_eq
  intro i hi
  simp only [wordL, BitVec.getLsbD_extractLsb', BitVec.getLsbD_append, hi, decide_true, Bool.true_and]
  repeat' (split <;> try omega)
  congr 1; omega

@[simp] theorem stop_wordL (r : LineReq) : (wordL r).extractLsb' 41 1 = r.stop.code := by
  apply BitVec.eq_of_getLsbD_eq
  intro i hi
  simp only [wordL, BitVec.getLsbD_extractLsb', BitVec.getLsbD_append, hi, decide_true, Bool.true_and]
  repeat' (split <;> try omega)
  congr 1; omega

@[simp] theorem reserved40_wordL (r : LineReq) : (wordL r).extractLsb' 40 1 = 0#1 := by
  apply BitVec.eq_of_getLsbD_eq
  intro i hi
  simp only [wordL, BitVec.getLsbD_extractLsb', BitVec.getLsbD_append, hi, decide_true, Bool.true_and]
  repeat' (split <;> try omega)
  simp

@[simp] theorem data_wordL (r : LineReq) : (wordL r).extractLsb' 36 4 = r.data := by
  apply BitVec.eq_of_getLsbD_eq
  intro i hi
  simp only [wordL, BitVec.getLsbD_extractLsb', BitVec.getLsbD_append, hi, decide_true, Bool.true_and]
  repeat' (split <;> try omega)
  congr 1; omega

@[simp] theorem reserved32_wordL (r : LineReq) : (wordL r).extractLsb' 32 4 = 0#4 := by
  apply BitVec.eq_of_getLsbD_eq
  intro i hi
  simp only [wordL, BitVec.getLsbD_extractLsb', BitVec.getLsbD_append, hi, decide_true, Bool.true_and]
  repeat' (split <;> try omega)
  simp

@[simp] theorem baud_wordL (r : LineReq) : (wordL r).extractLsb' 0 32 = r.baud := by
  apply BitVec.eq_of_getLsbD_eq
  intro i hi
  simp only [wordL, BitVec.getLsbD_extractLsb', BitVec.getLsbD_append, hi, decide_true, Bool.true_and]
  repeat' (split <;> try omega)
  congr 1; omega

@[simp] theorem reqOfWord_wordL (r : LineReq) : reqOfWord (wordL r) = r := by
  simp [reqOfWord]

theorem wordL_of_fields (w : Word48) (hop : w.extractLsb' 44 4 = 0b1001#4) (h40 : w.extractLsb' 40 1 = 0#1)
    (h32 : w.extractLsb' 32 4 = 0#4) : wordL (reqOfWord w) = w := by
  unfold wordL reqOfWord
  rw [code_parityOfCode, code_stopOfCode, ← hop, ← h40, ← h32]
  apply BitVec.eq_of_getLsbD_eq
  intro i hi
  simp only [BitVec.getLsbD_extractLsb', BitVec.getLsbD_append]
  repeat' (split <;> try omega)
  all_goals simp (disch := omega) only [decide_eq_true, Bool.true_and]
  all_goals congr 1; omega

end Sys2Proof
end

