-- ==== Sys2Proof/Laws/PerInstr.lean ====
section
/-!
SUPPORT. Statements made per instruction. The family `RoundTrip`: decoding the word the encoder gives a well-formed
instruction, at the place it is presented, gives the instruction back, whatever its operands.
-/

namespace Sys2Proof.Laws.RoundTrip

/-- No bit of the instruction's encoding is dropped (R66 to R73). -/
def Statement (i : Instr) : Prop := i.WellFormed = true → decode (encode i) = .ok i

/-- A format F operation without a byte operand. -/
theorem plain (op : BitVec 4) (ff : BitVec 2) (i : BitVec 2 → Instr) (h : wellFormedSelect ff = true) :
    plainF (wordF op ff 0#8) i = .ok (i ff) := by
  have hne : ff ≠ 3#2 := by simpa [wellFormedSelect] using h
  simp [plainF, hne]

theorem init (ff : BitVec 2) : Statement (.init ff) := fun h => by
  simpa [encode, decode, decodeF] using plain _ ff .init h

theorem insert (ff : BitVec 2) (b : Byte) : Statement (.insert ff b) := fun h => by
  have hne : ff ≠ 3#2 := by simpa [Instr.WellFormed, wellFormedSelect] using h
  simp [encode, decode, decodeF, byteF, hne]

theorem remove (ff : BitVec 2) : Statement (.remove ff) := fun h => by
  simpa [encode, decode, decodeF] using plain _ ff .remove h

theorem peek (ff : BitVec 2) : Statement (.peek ff) := fun h => by
  simpa [encode, decode, decodeF] using plain _ ff .peek h

theorem isFull (ff : BitVec 2) : Statement (.isFull ff) := fun h => by
  simpa [encode, decode, decodeF] using plain _ ff .isFull h

theorem isEmpty (ff : BitVec 2) : Statement (.isEmpty ff) := fun h => by
  simpa [encode, decode, decodeF] using plain _ ff .isEmpty h

theorem count (ff : BitVec 2) : Statement (.count ff) := fun h => by
  simpa [encode, decode, decodeF] using plain _ ff .count h

theorem flush (ff : BitVec 2) : Statement (.flush ff) := fun h => by
  simpa [encode, decode, decodeF] using plain _ ff .flush h

theorem reconfig (req : LineReq) : Statement (.reconfig req) := fun _ => by
  simp [encode, decode, decodeL]

theorem uartSendReady : Statement .uartSendReady := fun _ => by
  simp [encode, decode, decodeU, plainU]

theorem uartSend (b : Byte) : Statement (.uartSend b) := fun _ => by
  simp [encode, decode, decodeU, byteU]

theorem uartRxRead : Statement .uartRxRead := fun _ => by
  simp [encode, decode, decodeU, plainU]

theorem brUsbRx : Statement .brUsbRx := fun _ => by rfl

theorem brUsbTx : Statement .brUsbTx := fun _ => by rfl

theorem brUartTx : Statement .brUartTx := fun _ => by rfl

theorem brService : Statement .brService := fun _ => by rfl

end Sys2Proof.Laws.RoundTrip
end

