-- ==== Sys2Proof/Tests/Slice0.lean ====
section
/-!
SUPPORT. Tests. Every expected value comes from the spec (95_test_vectors.md, by the vector's name, or a rule), none from
the model. The last part shows, for each obligation with hypotheses, a state and operands that meet them.
-/

namespace Sys2Proof.Tests

open Sys2Proof.Machine

/-! ## Helpers -/

/-- An initialised instance whose cursors started at `c` and which then took these bytes. -/
def holding (f : Inst) (c : Cursor f) (bs : List Byte) : Fifo f :=
  bs.foldl Fifo.pushed { mem := [], wr := c, rd := c, count := 0, inited := true }

/-- An environment that answers nothing. -/
def quiet : Draws := ⟨0, false, 0, none, false, .ok, []⟩

/-- The machine after boot (V-Z2). -/
def booted : State :=
  { State.reset with
    fifo0 := holding .f0 0 []
    fifo1 := holding .f1 0 []
    fifo2 := holding .f2 0 []
    pos := .s11 }

/-- The same with these instances 0 and 1, at this position and with these inputs. -/
def standing (s : State) (q0 : Fifo .f0) (q1 : Fifo .f1) (p : Pos) (ins : List Input) : State :=
  { s with fifo0 := q0, fifo1 := q1, pos := p, inputs := ins }

/-- A request every clock the model allows accepts: the fastest rate the divisor can give. -/
def okReq : LineReq := ⟨BitVec.ofNat 32 (min (Config.fClk / 8) (2 ^ 32 - 1)), .noParity, .one, 8⟩

/-- A request R108 rejects whatever the clock: code 3 is no parity. -/
def badReq : LineReq := ⟨9600, .inv3, .one, 8⟩

/-- The machine after boot and one applied request: the UART is enabled (R119). -/
def configured : State :=
  { booted with
    le := some okReq
    ctrlA := enableA
    ctrlB := enableB
    ctrlC := frameMask okReq
    div := divValue okReq }

/-- The outcome is a next state of which this holds. -/
def after (o : Out) (p : State → Bool) : Bool :=
  match o with
  | .next t => p t
  | _ => false

/-- The outcome is this fault. -/
def faults (o : Out) (e : Fault) : Bool :=
  match o with
  | .fault d => decide (d = e)
  | _ => false

theorem exists_next {o : Out} (h : after o (fun _ => true) = true) : ∃ t, o = .next t := by
  cases o with
  | next t => exact ⟨t, rfl⟩
  | fault e => cases h
  | refused r => cases h

/-! ## Well-formedness: each check refuses an ill-formed term -/

theorem test_wf_select_three_refused :
    (Instr.init 3).WellFormed = false ∧ (Instr.insert 3 0x41).WellFormed = false ∧
      (Instr.remove 3).WellFormed = false ∧ (Instr.peek 3).WellFormed = false ∧
      (Instr.isFull 3).WellFormed = false ∧ (Instr.isEmpty 3).WellFormed = false ∧
      (Instr.count 3).WellFormed = false ∧ (Instr.flush 3).WellFormed = false := by decide

theorem test_wf_legal_accepted :
    (Instr.init 2).WellFormed = true ∧ (Instr.insert 0 0xFF).WellFormed = true ∧
      (Instr.reconfig badReq).WellFormed = true := by decide

/-! ## Decoding: the words of V-E1 to V-E6, one at least for every constructor -/

theorem test_decode_fifo_plain :
    decode (.fifoPort 0x1000) = .ok (.init 0) ∧ decode (.fifoPort 0x1800) = .ok (.init 2) ∧
      decode (.fifoPort 0x3400) = .ok (.remove 1) ∧ decode (.fifoPort 0x4400) = .ok (.peek 1) ∧
      decode (.fifoPort 0x5000) = .ok (.isFull 0) ∧ decode (.fifoPort 0x6400) = .ok (.isEmpty 1) ∧
      decode (.fifoPort 0x7800) = .ok (.count 2) ∧ decode (.fifoPort 0x8400) = .ok (.flush 1) := by
  exact ⟨rfl, rfl, rfl, rfl, rfl, rfl, rfl, rfl⟩

theorem test_decode_insert :
    decode (.fifoPort 0x2000) = .ok (.insert 0 0x00) ∧ decode (.fifoPort 0x2441) = .ok (.insert 1 0x41) ∧
      decode (.fifoPort 0x28FF) = .ok (.insert 2 0xFF) := by
  exact ⟨rfl, rfl, rfl⟩

theorem test_decode_uart :
    decode (.uartShim 0xA000) = .ok .uartSendReady ∧ decode (.uartShim 0xB041) = .ok (.uartSend 0x41) ∧
      decode (.uartShim 0xB0FF) = .ok (.uartSend 0xFF) ∧ decode (.uartShim 0xC000) = .ok .uartRxRead := by
  exact ⟨rfl, rfl, rfl, rfl⟩

theorem test_decode_reconfig :
    decode (.engine 0x988000002580) = .ok (.reconfig ⟨9600, .even, .one, 8⟩) ∧
      decode (.engine 0x96700000E100) = .ok (.reconfig ⟨57600, .odd, .two, 7⟩) ∧
      decode (.engine 0x9A500000012C) = .ok (.reconfig ⟨300, .even, .two, 5⟩) ∧
      decode (.engine 0x9C8000002580) = .ok (.reconfig ⟨9600, .inv3, .one, 8⟩) ∧
      decode (.engine 0x909000002580) = .ok (.reconfig ⟨9600, .noParity, .one, 9⟩) := by
  exact ⟨rfl, rfl, rfl, rfl, rfl⟩

theorem test_decode_step_codes :
    decode (.stepCode 0b00) = .ok .brUsbRx ∧ decode (.stepCode 0b01) = .ok .brUsbTx ∧
      decode (.stepCode 0b10) = .ok .brUartTx ∧ decode (.stepCode 0b11) = .ok .brService := by
  exact ⟨rfl, rfl, rfl, rfl⟩

theorem test_decode_illegal_fifo :
    decode (.fifoPort 0x0000) = .error .unknownOp ∧ decode (.fifoPort 0x1C00) = .error .noSuchInstance ∧
      decode (.fifoPort 0x1100) = .error .reservedBit ∧ decode (.fifoPort 0x1200) = .error .reservedBit ∧
      decode (.fifoPort 0x3401) = .error .strayOperand ∧ decode (.fifoPort 0x1001) = .error .strayOperand ∧
      decode (.fifoPort 0x9000) = .error .unknownOp ∧ decode (.fifoPort 0xF000) = .error .unknownOp := by
  exact ⟨rfl, rfl, rfl, rfl, rfl, rfl, rfl, rfl⟩

theorem test_decode_illegal_uart_and_engine :
    decode (.uartShim 0xA001) = .error .strayOperand ∧ decode (.uartShim 0xC0FF) = .error .strayOperand ∧
      decode (.uartShim 0xB141) = .error .reservedBit ∧ decode (.uartShim 0x2441) = .error .unknownOp ∧
      decode (.engine 0x998000002580) = .error .reservedBit ∧ decode (.engine 0x988100002580) = .error .reservedBit ∧
      decode (.engine 0x188000002580) = .error .unknownOp := by
  exact ⟨rfl, rfl, rfl, rfl, rfl, rfl, rfl⟩

theorem test_encode_worked :
    encode (.insert 1 0x41) = .fifoPort 0x2441 ∧ encode (.uartSend 0x41) = .uartShim 0xB041 ∧
      encode (.reconfig ⟨57600, .odd, .two, 7⟩) = .engine 0x96700000E100 ∧ encode .brService = .stepCode 3 := by decide

theorem test_table_words :
    decodeTableWord 2 0 = some .brUsbRx ∧ decodeTableWord 8 3 = some .brService ∧
      decodeTableWord 16 0x2441 = some (.insert 1 0x41) ∧ decodeTableWord 16 0xB041 = some (.uartSend 0x41) ∧
      decodeTableWord 48 0x988000002580 = some (.reconfig ⟨9600, .even, .one, 8⟩) ∧
      decodeTableWord 16 0x1C00 = none := by decide

/-! ## Ring buffer operations (V-F1 to V-F10) -/

/-- V-F1. -/
theorem test_init : after (exec (.init 1) State.reset) (fun t => t.fifo1.inited && t.fifo1.count == 0 &&
    t.fifo1.wr == 0 && t.fifo1.rd == 0 && t.fifo1.mem == [] && !t.fifo0.inited) = true := by decide

/-- V-F1, the second INIT. -/
theorem test_init_twice : faults (exec (.init 1) { State.reset with fifo1 := holding .f1 0 [] }) (.reinit .f1) = true := by
  decide

/-- V-F3, V-F4: the cursor wraps. -/
theorem test_insert_wraps :
    after (exec (.insert 1 0x7F) { booted with fifo1 := ⟨[(126, 0x7E)], 127, 126, 1, true⟩ }) (fun t =>
      t.fifo1.mem.read 127 == some 0x7F && t.fifo1.mem.read 126 == some 0x7E && t.fifo1.wr == 0 &&
        t.fifo1.count == 2 && t.fifo1.rd == 126) = true := by decide

/-- V-F10. -/
theorem test_insert_ownership : faults (exec (.insert 0 0x01) booted) (.ownership .f0 .insert .main) = true := by decide

/-- V-F4: the oldest byte comes out and its cell keeps it. -/
theorem test_remove_wraps :
    after (exec (.remove 1) { booted with fifo1 := ⟨[(0, 0x80), (127, 0x7F)], 1, 127, 2, true⟩ }) (fun t =>
      t.resp == some ⟨8, 0x7F⟩ && t.fifo1.rd == 0 && t.fifo1.count == 1 && t.fifo1.wr == 1 &&
        t.fifo1.mem.read 127 == some 0x7F) = true := by decide

/-- V-F6. -/
theorem test_remove_empty : faults (exec (.remove 1) booted) (.underflow .f1 .remove) = true := by decide

/-- V-F7. -/
theorem test_peek :
    after (exec (.peek 0) { booted with fifo0 := holding .f0 5 [0x10, 0x11] }) (fun t =>
      t.resp == some ⟨8, 0x10⟩ && t.fifo0.rd == 5 && t.fifo0.count == 2) = true := by decide

/-- V-F6. -/
theorem test_peek_empty : faults (exec (.peek 1) booted) (.underflow .f1 .peek) = true := by decide

/-- V-F5: 255 bytes are not full, 256 are (the count needs nine bits, R14). -/
theorem test_is_full :
    after (exec (.isFull 0) { booted with fifo0 := ⟨[], 255, 0, 255, true⟩ }) (fun t => t.resp == some ⟨1, 0⟩) = true ∧
      after (exec (.isFull 0) { booted with fifo0 := ⟨[], 0, 0, 256, true⟩ }) (fun t => t.resp == some ⟨1, 1⟩) = true := by
  decide

/-- V-F2. -/
theorem test_is_full_before_init : faults (exec (.isFull 0) State.reset) (.notInit .f0) = true := by decide

/-- V-F6. -/
theorem test_is_empty :
    after (exec (.isEmpty 1) booted) (fun t => t.resp == some ⟨1, 1⟩) = true ∧
      after (exec (.isEmpty 1) { booted with fifo1 := holding .f1 0 [0xAA] }) (fun t => t.resp == some ⟨1, 0⟩) = true := by
  decide

/-- V-F5, V-F10: COUNT answers in either context, with CW bits. -/
theorem test_count :
    after (exec (.count 0) { booted with ctx := .isr, fifo0 := ⟨[], 0, 0, 256, true⟩ })
        (fun t => t.resp == some ⟨9, 256⟩) = true ∧
      after (exec (.count 1) { booted with fifo1 := ⟨[], 0, 0, 128, true⟩ }) (fun t => t.resp == some ⟨8, 128⟩) = true := by
  decide

/-- V-F8. -/
theorem test_flush :
    after (exec (.flush 1) { booted with fifo1 := ⟨[(1, 0xB0), (2, 0xB1)], 3, 1, 2, true⟩ }) (fun t =>
      t.fifo1.rd == 3 && t.fifo1.count == 0 && t.fifo1.wr == 3 && t.fifo1.mem.read 1 == some 0xB0) = true := by decide

/-- V-F8, then the byte inserted next is the one removed. -/
theorem test_flush_then_insert :
    after (execAll [.flush 1, .insert 1 0x99, .remove 1]
        { booted with fifo1 := ⟨[(1, 0xB0), (2, 0xB1)], 3, 1, 2, true⟩ })
      (fun t => t.resp == some ⟨8, 0x99⟩ && t.fifo1.rd == 4) = true := by decide

/-! ## The UART (V-U1 to V-U5) -/

/-- V-U2. -/
theorem test_send_ready :
    after (exec .uartSendReady { booted with ctrlB := 0x98 }) (fun t => t.resp == some ⟨1, 1⟩) = true ∧
      after (exec .uartSendReady { booted with ctrlB := 0x98, txshift := some 0x41 })
        (fun t => t.resp == some ⟨1, 0⟩) = true := by decide

/-- V-U1: the transmitter is off after reset. -/
theorem test_send_after_reset : faults (exec (.uartSend 0x41) booted) .txNotReady = true := by decide

/-- V-U2. -/
theorem test_send :
    after (exec (.uartSend 0x41) { booted with ctrlB := 0x98 }) (fun t => t.txshift == some 0x41 && t.txbusy) = true := by
  decide

/-- V-U4: the read returns the first byte and clears both flags. -/
theorem test_rx_read :
    after (exec .uartRxRead { booted with ctrlB := 0x98, rxc := true, rxerr := true, rxdata := 0x5A }) (fun t =>
      t.resp == some ⟨8, 0x5A⟩ && !t.rxc && !t.rxerr && !t.irqRequested) = true := by decide

/-- V-U4: an overrun keeps the first byte and logs nothing. -/
theorem test_overrun :
    (wireArrive 0x5B { booted with ctrlB := 0x98, rxc := true, rxdata := 0x5A }).rxerr = true ∧
      (wireArrive 0x5B { booted with ctrlB := 0x98, rxc := true, rxdata := 0x5A }).rxdata = 0x5A ∧
      (wireArrive 0x5B { booted with ctrlB := 0x98, rxc := true, rxdata := 0x5A }).wireInLog = [] := by decide

/-! ## RECONFIG (V-R1, V-R2, V-R3) -/

/-- V-R1, eight of its entries. -/
theorem test_masks :
    frameMask ⟨1, .noParity, .one, 5⟩ = 0x00 ∧ frameMask ⟨1, .noParity, .one, 8⟩ = 0x06 ∧
      frameMask ⟨1, .noParity, .two, 6⟩ = 0x0A ∧ frameMask ⟨1, .even, .one, 8⟩ = 0x26 ∧
      frameMask ⟨1, .even, .two, 7⟩ = 0x2C ∧ frameMask ⟨1, .odd, .one, 5⟩ = 0x30 ∧
      frameMask ⟨1, .odd, .two, 7⟩ = 0x3C ∧ frameMask ⟨1, .odd, .two, 8⟩ = 0x3E := by decide

/-- V-R2, divisors. -/
theorem test_divisors :
    divisor 16000000 9600 = 207 ∧ divisor 16000000 489 = 4089 ∧ divisor 16000000 115200 = 16 ∧
      divisor 16000000 4000000 = 0 ∧ divisor 8000000 245 = 4081 ∧ divisor 8000000 230400 = 3 := by decide

/-- V-R2 and V-R4, rejections at the ends of the range. -/
theorem test_acceptance :
    acceptAt 16000000 ⟨488, .noParity, .one, 8⟩ = false ∧ acceptAt 16000000 ⟨489, .noParity, .one, 8⟩ = true ∧
      acceptAt 16000000 ⟨4000000, .noParity, .one, 8⟩ = true ∧
      acceptAt 16000000 ⟨4000001, .noParity, .one, 8⟩ = false ∧ acceptAt 16000000 ⟨0, .noParity, .one, 8⟩ = false ∧
      acceptAt 16000000 ⟨9600, .inv3, .one, 8⟩ = false ∧ acceptAt 16000000 ⟨9600, .noParity, .one, 4⟩ = false ∧
      acceptAt 16000000 ⟨9600, .noParity, .one, 9⟩ = false ∧ acceptAt 16000000 ⟨9600, .noParity, .one, 5⟩ = true := by
  decide

/-- V-R7 and V-R3, phase 2. -/
theorem test_phase_two :
    after (step { configured with
        engine := some (.p2, okReq), txhold := true, rxc := true, txshift := some 0x55, pos := .s42,
        inputs := [⟨.agent .main, { quiet with seen := true }⟩] }) (fun t =>
      t.ctrlA == 0 && t.ctrlB == 0 && t.ctrlC == 0 && !t.rxc && !t.txbusy && t.txhold &&
        t.wireOutLog == [0x55] && t.phase == 3) = true := by decide

/-! ## The bridge steps (V-B1 to V-B4) -/

/-- V-B1 (a), line 1.2. -/
theorem test_usb_rx_poll :
    after (step { booted with pos := .s12 false, inputs := [⟨.agent .main, { quiet with poll := some 0x41 }⟩] })
      (fun t => t.pos == .s13 (some 0x41) && t.usbInLog == [0x41]) = true := by decide

/-- V-B1 (a), line 1.3. -/
theorem test_usb_rx_insert :
    after (exec .brUsbRx { booted with pos := .s13 (some 0x41) })
      (fun t => t.pos == .s21 && t.content .f1 == [0x41]) = true := by decide

/-- V-B2 (c): a byte that was not taken stays queued. -/
theorem test_usb_tx_error :
    after (exec .brUsbTx { booted with fifo0 := holding .f0 0 [0x12], pos := .s26 1 0x12 .error })
      (fun t => t.pos == .s31 && t.content .f0 == [0x12]) = true := by decide

/-- V-B2 (b): a byte that was taken is removed and the batch goes on. -/
theorem test_usb_tx_ok :
    after (exec .brUsbTx { booted with fifo0 := holding .f0 0 [0x11, 0x12], pos := .s26 2 0x11 .ok })
      (fun t => t.pos == .s24 1 && t.content .f0 == [0x12]) = true := by decide

/-- V-B3 (b): with the transmitter busy IS_EMPTY is not issued. -/
theorem test_uart_tx_busy :
    after (exec .brUartTx { booted with fifo1 := holding .f1 0 [0x41], pos := .s32 false })
      (fun t => t.pos == .s33 false true) = true := by decide

/-- V-B3 (a), line 3.3. -/
theorem test_uart_tx_dequeue :
    after (exec .brUartTx { booted with fifo1 := holding .f1 0 [0x41, 0x42], pos := .s33 true false })
      (fun t => t.pos == .s34 (some 0x41) && t.content .f1 == [0x42]) = true := by decide

/-- V-B4 (a). -/
theorem test_service_no_events :
    after (step { booted with pos := .s41, inputs := [⟨.agent .main, quiet⟩] })
      (fun t => t.pos == .s11 && t.engine == none) = true := by decide

/-- V-B4 (c): a rejected request is passed over. -/
theorem test_service_rejected :
    after (step { booted with pos := .s41, inputs := [⟨.agent .main, { quiet with events := [badReq] }⟩] })
      (fun t => t.pos == .s11 && t.engine == none && t.le == none) = true := by decide

/-! ## The interrupt (V-I1, V-I2) -/

/-- V-I1, action i.1. -/
theorem test_interrupt_entry :
    after (step { configured with rxc := true, rxdata := 0x5A, inputs := [⟨.agent .isr, quiet⟩] })
      (fun t => t.ctx == .isr && t.isr == .gotByte 0x5A && !t.rxc) = true := by decide

/-- V-I1, action i.3. -/
theorem test_interrupt_store :
    after (step { configured with ctx := .isr, isr := .gotFull 0x5A false, inputs := [⟨.agent .isr, quiet⟩] })
      (fun t => t.ctx == .main && t.isr == .idle && t.content .f0 == [0x5A]) = true := by decide

/-! ## The host's entry points -/

/-- `withFetchWord` presents exactly the word: its instruction is what the next step runs. -/
theorem test_fetch_word_runs :
    after (step (State.reset.withFetchWord 16 0x1000)) (fun t => t.fifo0.inited && t.inputs == []) = true ∧
      after (step (State.reset.withFetchWord 16 0xC000)) (fun t => t.resp.isSome) = true ∧
      faults (step (State.reset.withFetchWord 16 0x7000)) (.notInit .f0) = true := by decide

/-! ## States in order, for the witnesses -/

theorem foldl_ok {f : Inst} (bs : List Byte) (q : Fifo f) (h : q.Ok) (hi : q.inited = true)
    (hc : q.count.toNat + bs.length ≤ Config.cap f) :
    (bs.foldl Fifo.pushed q).Ok ∧ (bs.foldl Fifo.pushed q).inited = true ∧
      (bs.foldl Fifo.pushed q).count.toNat = q.count.toNat + bs.length := by
  induction bs generalizing q with
  | nil => exact ⟨h, hi, rfl⟩
  | cons b bs ih =>
    have hl : q.count.toNat + (bs.length + 1) ≤ Config.cap f := hc
    have hp := pushed_count_toNat b h hi (by omega)
    obtain ⟨h1, h2, h3⟩ := ih (q.pushed b) (pushed_ok b h hi (by omega)) hi (by omega)
    exact ⟨h1, h2, by rw [List.foldl_cons, h3, hp, List.length_cons]; omega⟩

/-- An instance that took no more bytes than it holds is in order. -/
theorem holding_ok (f : Inst) (c : Cursor f) (bs : List Byte) (hb : bs.length ≤ Config.cap f) :
    (holding f c bs).Ok ∧ (holding f c bs).inited = true ∧ (holding f c bs).count.toNat = bs.length := by
  have := foldl_ok bs { mem := [], wr := c, rd := c, count := 0, inited := true }
    ⟨rfl, rfl, by simp, by simp, fun _ => by simp, by simp⟩ rfl (by simpa using hb)
  simpa [holding] using this

/-- Whatever `F_CLK` is, some request is acceptable (R6, R108). -/
theorem okReq_accepted : accept okReq = true := by
  have hlo : 1 ≤ Config.fClk / 8 := by unfold Config.fClk; omega
  have hhi : Config.fClk / 8 ≤ 2 ^ 43 := by unfold Config.fClk; have := Config.fClkAboveLeast.isLt; omega
  have hb : okReq.baud.toNat = min (Config.fClk / 8) (2 ^ 32 - 1) := by
    simp only [okReq, BitVec.toNat_ofNat]
    omega
  have hq : 1 ≤ divQuotient Config.fClk okReq.baud.toNat ∧ divQuotient Config.fClk okReq.baud.toNat ≤ 2 ^ 12 := by
    rw [hb]
    unfold divQuotient
    constructor
    · rw [Nat.le_div_iff_mul_le (by omega)]; omega
    · rw [Nat.div_le_iff_le_mul_add_pred (by omega)]; omega
  have hne : okReq.baud ≠ 0#32 := by
    intro h
    have : okReq.baud.toNat = 0 := by rw [h]; rfl
    omega
  simp only [accept, acceptAt, Bool.and_eq_true, bne_iff_ne, decide_eq_true_eq]
  exact ⟨⟨⟨by decide, by decide⟩, hne⟩, hq⟩

theorem booted_inv : booted.Inv where
  fifos := fun f => by cases f <;> exact (holding_ok _ 0 [] (by decide)).1
  registers := ⟨rfl, rfl, rfl, rfl, rfl⟩
  engineAccepted := by intro p r h; cases h
  leAccepted := by intro r h; cases h
  idleEvs := fun _ => rfl
  at42 := by intro h; cases h
  handler := by simp [booted, State.reset]

theorem configured_inv : configured.Inv where
  fifos := booted_inv.fifos
  registers := ⟨rfl, rfl, rfl, rfl, rfl⟩
  engineAccepted := by intro p r h; cases h
  leAccepted := by intro r h; cases h; exact okReq_accepted
  idleEvs := fun _ => rfl
  at42 := by intro h; cases h
  handler := booted_inv.handler

/-- A base state with other content, at another position, with other inputs: every position of steps 1 to 3 whose locals'
promises hold is one of the agents' invariant. -/
theorem standing_agentInv {s : State} (h : s.Inv) (he : s.engine = none) (hx : s.ctx = .main)
    (h2 : s.fifo2.inited = true) {q0 : Fifo .f0} {q1 : Fifo .f1} (o0 : q0.Ok) (o1 : q1.Ok) (i0 : q0.inited = true)
    (i1 : q1.inited = true) (p : Pos) (ins : List Input) (hp : p.stepNo.isSome = true) (hn : p ≠ .s42)
    (hl : (standing s q0 q1 p ins).LocalsHold) : (standing s q0 q1 p ins).AgentInv where
  inv := by
    refine inv_of_same h (fun f => ?_) ⟨rfl, rfl, rfl, rfl, rfl, rfl⟩ ⟨rfl, rfl⟩ h.handler (fun hq => absurd hq hn)
    cases f
    · exact o0
    · exact o1
    · exact h.fifos .f2
  inits := by
    cases p <;> first | exact ⟨i0, i1, h2⟩ | cases hp
  bootQuiet := fun hb => by
    have : p.stepNo.isNone = true := hb
    simp [Option.isNone_iff_eq_none] at this
    simp [this] at hp
  locals := hl
  handlerRoom := fun b hb => by
    have hb' : s.isr = .gotFull b false := hb
    have := h.handler
    simp [hx, hb'] at this
  engineAt42 := fun hs => by
    have hs' : s.engine.isSome = true := hs
    simp [he] at hs'

/-- Bytes enough to fill instance 1. -/
def fill : List Byte := List.replicate 128 0x55

theorem fill_ok :
    (holding .f1 0 fill).Ok ∧ (holding .f1 0 fill).inited = true ∧ (holding .f1 0 fill).count.toNat = 128 := by
  have h : fill.length = 128 := List.length_replicate
  have := holding_ok .f1 0 fill (Nat.le_of_eq h)
  rwa [h] at this

/-- An instance 1 in order that is full. -/
theorem full_instance : ∃ q : Fifo .f1, q.Ok ∧ q.inited = true ∧ q.count.toNat = 128 := ⟨_, fill_ok⟩

theorem standing_full (s : State) (q0 : Fifo .f0) (q1 : Fifo .f1) (p : Pos) (ins : List Input) (h : q1.count.toNat = 128) :
    (standing s q0 q1 p ins).full Config.h2u = true := by
  rw [full_iff]
  exact h

theorem reset_agentInv (ins : List Input) : ({ State.reset with inputs := ins } : State).AgentInv where
  inv :=
    { fifos := fun f => by cases f <;> exact reset_ok _
      registers := ⟨rfl, rfl, rfl, rfl, rfl⟩
      engineAccepted := by intro p r h; cases h
      leAccepted := by intro r h; cases h
      idleEvs := fun _ => rfl
      at42 := by intro h; cases h
      handler := by simp [State.reset] }
  inits := ⟨rfl, rfl, rfl⟩
  bootQuiet := fun _ => ⟨rfl, rfl, rfl⟩
  locals := trivial
  handlerRoom := by intro b h; cases h
  engineAt42 := by intro h; cases h

/-! ## Witnesses: states and operands that meet the hypotheses of each obligation -/

theorem met_ResetEventRestoresEveryElement :
    ({ configured with inputs := [⟨.reset, quiet⟩] } : State).mover = .reset := rfl

theorem met_BootInitialisesAndReachesStepOne : (List.replicate 5 quiet).length = 5 := rfl

theorem met_InitEmptiesTheInstance :
    ∀ f, (State.reset.fifo f).inited = false ∧ State.reset.ctx = .main ∧ State.reset.booting = true ∧
      State.reset.rxcie = false := by
  intro f; cases f <;> decide

/-- Both producers, at the last cell of the array. -/
theorem met_InsertStoresAtTheWriteCursor :
    ∃ s t : State, ((s.fifo .f1).inited = true ∧ producer .f1 = some s.ctx ∧ (s.fifo .f1).count.toNat ≠ Config.cap .f1 ∧
        (s.fifo .f1).wr.toNat = 127) ∧
      (t.fifo .f0).inited = true ∧ producer .f0 = some t.ctx ∧ (t.fifo .f0).count.toNat ≠ Config.cap .f0 ∧
        (t.fifo .f0).wr.toNat = 255 :=
  ⟨{ booted with fifo1 := holding .f1 127 [] }, { booted with fifo0 := holding .f0 255 [], ctx := .isr }, by decide⟩

theorem met_InsertOnFullCompletesWithoutEffect :
    ∃ s : State, (s.fifo .f1).inited = true ∧ producer .f1 = some s.ctx ∧ (s.fifo .f1).count.toNat = Config.cap .f1 :=
  ⟨{ booted with fifo1 := ⟨[], 9, 9, 128, true⟩ }, by decide⟩

theorem met_FullAcceptsNothingEmptyYieldsNothing :
    ∃ s : State, (s.fifo .f1).count.toNat = Config.cap .f1 ∧ (s.fifo .f0).count.toNat = 0 ∧
      ∃ t, exec (.insert (selectOf .f1) 0xEE) s = .next t :=
  ⟨{ booted with fifo1 := ⟨[], 9, 9, 128, true⟩ }, by decide, by decide, exists_next (by decide)⟩

/-- Both consumers' instances, at the last cell and at one byte. -/
theorem met_RemoveReturnsTheByteAtTheReadCursor :
    ∃ s : State, ((s.fifo .f1).inited = true ∧ consumer .f1 = some s.ctx ∧ (s.fifo .f1).count.toNat = 1 ∧
        (s.fifo .f1).rd.toNat = 127 ∧ (s.fifo .f1).mem.read (s.fifo .f1).rd.toNat = some 0x7F) ∧
      (s.fifo .f0).inited = true ∧ consumer .f0 = some s.ctx ∧ (s.fifo .f0).count.toNat ≠ 0 ∧
        (s.fifo .f0).rd.toNat = 255 ∧ (s.fifo .f0).mem.read (s.fifo .f0).rd.toNat = some 0x10 :=
  ⟨{ booted with fifo1 := holding .f1 127 [0x7F], fifo0 := holding .f0 255 [0x10, 0x11] }, by decide⟩

theorem met_PeekReturnsTheByteAndChangesNothing :
    ∃ s : State, (s.fifo .f0).inited = true ∧ consumer .f0 = some s.ctx ∧ (s.fifo .f0).count.toNat ≠ 0 ∧
      (s.fifo .f0).rd.toNat = 255 ∧ (s.fifo .f0).mem.read (s.fifo .f0).rd.toNat = some 0x10 :=
  ⟨{ booted with fifo0 := holding .f0 255 [0x10, 0x11] }, by decide⟩

theorem met_QueriesAnswerFromTheCount : ∀ f, (booted.fifo f).inited = true := by
  intro f; cases f <;> decide

/-- An empty instance and a full one. -/
theorem met_FlagsSpeakOfTheContent :
    ∃ s : State, (∀ f, (s.fifo f).Ok ∧ (s.fifo f).inited = true) ∧ (s.fifo .f1).count.toNat = 128 ∧ (s.fifo .f0).count.toNat = 0 := by
  obtain ⟨q, ho, hi, hc⟩ := full_instance
  refine ⟨standing booted (holding .f0 0 []) q .s11 [], fun f => ?_, hc, rfl⟩
  cases f
  · exact ⟨booted_inv.fifos .f0, rfl⟩
  · exact ⟨ho, hi⟩
  · exact ⟨booted_inv.fifos .f2, rfl⟩

theorem met_FlushDiscardsTheContent :
    ∀ f, f ≠ .f2 → (booted.fifo f).inited = true ∧ consumer f = some booted.ctx := by
  intro f; cases f <;> decide

theorem met_UninitialisedInstanceFaults : ∀ f, (State.reset.fifo f).inited = false := by
  intro f; cases f <;> decide

/-- Each of the ways an INIT is out of place. -/
theorem met_InitOutOfPlaceFaults :
    (booted.fifo .f1).inited = true ∧
      (∃ s : State, (s.fifo .f0).inited = false ∧ s.ctx = .isr) ∧
      (∃ s : State, (s.fifo .f0).inited = false ∧ s.booting = false) ∧
      ∃ s : State, (s.fifo .f0).inited = false ∧ s.rxcie = true :=
  ⟨by decide, ⟨{ State.reset with ctx := .isr }, by decide⟩, ⟨{ State.reset with pos := .s11 }, by decide⟩,
    ⟨{ State.reset with ctrlB := 0x80 }, by decide⟩⟩

theorem met_EmptyInstanceUnderflows :
    ∀ f, f ≠ .f2 → (booted.fifo f).inited = true ∧ consumer f = some booted.ctx ∧ (booted.fifo f).count.toNat = 0 := by
  intro f; cases f <;> decide

theorem met_ForeignContextFaults :
    (booted.fifo .f0).inited = true ∧ producer .f0 ≠ some booted.ctx ∧
      ({ booted with ctx := .isr } : State).fifo0.inited = true ∧
      consumer .f0 ≠ some ({ booted with ctx := .isr } : State).ctx := by decide

theorem met_ValuelessCellFaults :
    ∃ s : State, (s.fifo .f1).inited = true ∧ consumer .f1 = some s.ctx ∧ (s.fifo .f1).count.toNat ≠ 0 ∧
      (s.fifo .f1).mem.read (s.fifo .f1).rd.toNat = none :=
  ⟨{ booted with fifo1 := ⟨[], 0, 127, 1, true⟩ }, by decide⟩

/-- One state in which every operation of the law answers. -/
theorem met_ContentIsAQueue :
    ∃ s : State, (s.fifo .f1).Ok ∧ (s.fifo .f1).inited = true ∧
      (∃ t, exec (.insert (selectOf .f1) 0x12) s = .next t) ∧ (∃ t, exec (.remove (selectOf .f1)) s = .next t) ∧
      (∃ t, exec (.peek (selectOf .f1)) s = .next t) ∧ (∃ t, exec (.flush (selectOf .f1)) s = .next t) ∧
      (∃ t, exec (.isFull (selectOf .f1)) s = .next t) ∧ (∃ t, exec (.isEmpty (selectOf .f1)) s = .next t) ∧
      ∃ t, exec (.count (selectOf .f1)) s = .next t :=
  ⟨{ booted with fifo1 := holding .f1 127 [0x10, 0x11] }, (holding_ok .f1 127 _ (by decide)).1, rfl,
    exists_next (by decide), exists_next (by decide), exists_next (by decide), exists_next (by decide),
    exists_next (by decide), exists_next (by decide), exists_next (by decide)⟩

theorem met_OverflowKeepsTheFirstBytes :
    ∃ s : State, (s.fifo .f1).Ok ∧ (s.fifo .f1).inited = true ∧ producer .f1 = some s.ctx ∧
      (s.fifo .f1).count.toNat = 128 := by
  obtain ⟨q, ho, hi, hc⟩ := full_instance
  exact ⟨standing booted (holding .f0 0 []) q .s11 [], ho, hi, rfl, hc⟩

theorem met_DrainReturnsBytesInOrder :
    ∃ s : State, (s.fifo .f0).Ok ∧ (s.fifo .f0).inited = true ∧ consumer .f0 = some s.ctx ∧ 2 ≤ (s.fifo .f0).count.toNat :=
  ⟨{ booted with fifo0 := holding .f0 255 [0x10, 0x11] }, (holding_ok .f0 255 _ (by decide)).1, by decide⟩

/-- A ready transmitter, one that is off and one that is busy. -/
theorem met_SendStartsTheByteOrFaults :
    (configured.txen = true ∧ configured.txshift = none) ∧ booted.txen = false ∧
      ({ configured with txshift := some 0x41 } : State).txshift ≠ none := by decide

theorem met_RxReadReturnsTheByteAndClearsTheFlags : ({ configured with rxc := true } : State).rxc = true := rfl

/-- Idle, busy and busy under the hold. -/
theorem met_TransmitterFinishesItsByte :
    (∃ s : State, s.mover = .agent .wireTx ∧ s.txshift = none) ∧
      (∃ s : State, s.mover = .agent .wireTx ∧ s.txshift = some 0x33 ∧ s.txhold = false) ∧
      ∃ s : State, s.mover = .agent .wireTx ∧ s.txshift = some 0x33 ∧ s.txhold = true :=
  ⟨⟨{ configured with inputs := [⟨.agent .wireTx, quiet⟩] }, by decide⟩,
    ⟨{ configured with txshift := some 0x33, inputs := [⟨.agent .wireTx, quiet⟩] }, by decide⟩,
    ⟨{ configured with txshift := some 0x33, txhold := true, inputs := [⟨.agent .wireTx, quiet⟩] }, by decide⟩⟩

/-- A receiver with room, one without, one that is off. -/
theorem met_ArrivalIsAcceptedOverrunOrIgnored :
    (∃ s : State, s.mover = .agent .wireRx ∧ s.rxen = true ∧ s.rxc = false) ∧
      (∃ s : State, s.mover = .agent .wireRx ∧ s.rxen = true ∧ s.rxc = true) ∧
      ∃ s : State, s.mover = .agent .wireRx ∧ s.rxen = false :=
  ⟨⟨{ configured with inputs := [⟨.agent .wireRx, quiet⟩] }, by decide⟩,
    ⟨{ configured with rxc := true, inputs := [⟨.agent .wireRx, quiet⟩] }, by decide⟩,
    ⟨{ booted with inputs := [⟨.agent .wireRx, quiet⟩] }, by decide⟩⟩

theorem met_RejectedRequestChangesNothing : accept badReq = false ∧ configured.engine = none := by decide

theorem met_AcceptedRequestStartsTheEngine :
    (accept okReq = true ∧ configured.engine = none) ∧
      ({ configured with engine := some (.p4, okReq) } : State).engine ≠ none :=
  ⟨⟨okReq_accepted, rfl⟩, by simp⟩

/-- Each of the four phases. -/
theorem met_PhasesWriteTheirRegisters :
    ∀ p, ∃ s : State, s.mover = .agent .main ∧ s.ctx = .main ∧ s.engine = some (p, okReq) :=
  fun p => ⟨{ configured with engine := some (p, okReq), inputs := [⟨.agent .main, quiet⟩] }, rfl, rfl, rfl⟩

theorem met_PhaseTwoDisablesTheUart :
    ∃ s : State, s.mover = .agent .main ∧ s.ctx = .main ∧ s.engine = some (.p2, okReq) ∧ s.txshift = some 0x55 :=
  ⟨{ configured with engine := some (.p2, okReq), txshift := some 0x55, inputs := [⟨.agent .main, quiet⟩] },
    rfl, rfl, rfl, rfl⟩

/-- A rejected request in front of an acceptable one, and nothing but a rejected one. -/
theorem met_PhaseSixReleasesAndTakesTheNextRequest :
    (∀ y ∈ [badReq], accept y = false) ∧ accept okReq = true ∧
      (∃ s : State, s.mover = .agent .main ∧ s.ctx = .main ∧ s.engine = some (.p6, okReq) ∧
        s.evs = [badReq] ++ okReq :: [badReq]) ∧
      ∃ s : State, s.mover = .agent .main ∧ s.ctx = .main ∧ s.engine = some (.p6, okReq) ∧ s.evs = [badReq] :=
  ⟨by simp; decide, okReq_accepted,
    ⟨{ configured with
        engine := some (.p6, okReq), evs := [badReq, okReq, badReq], inputs := [⟨.agent .main, quiet⟩] },
      rfl, rfl, rfl, rfl⟩,
    ⟨{ configured with engine := some (.p6, okReq), evs := [badReq], inputs := [⟨.agent .main, quiet⟩] },
      rfl, rfl, rfl, rfl⟩⟩

theorem met_ReconfigurationAppliesTheRequest :
    ∃ (s : State) (ds : List Draws), accept okReq = true ∧ s.engine = none ∧ s.evs = [] ∧ s.ctx = .main ∧
      ds.length = 6 ∧ s.inputs = turns .main ds ++ [] :=
  ⟨{ booted with inputs := turns .main (List.replicate 6 quiet) }, List.replicate 6 quiet, okReq_accepted,
    rfl, rfl, rfl, rfl, rfl⟩

theorem met_AcceptedDivisorIsNotTruncated : accept okReq = true := okReq_accepted

/-- The first and the last of the three phases. -/
theorem met_UartIsDeadBetweenPhaseTwoAndFive :
    (∃ s : State, s.Inv ∧ s.phase = 3) ∧ ∃ s : State, s.Inv ∧ s.phase = 5 := by
  have base := booted_inv
  have acc : ∀ (p q : Phase) (r : LineReq), some (p, okReq) = some (q, r) → accept r = true := by
    intro p q r h; cases h; exact okReq_accepted
  refine ⟨⟨{ booted with pos := .s42, txhold := true, engine := some (.p3, okReq) }, ?_, rfl⟩,
    ⟨{ booted with pos := .s42, txhold := true, engine := some (.p5, okReq), ctrlC := frameMask okReq, div := divValue okReq },
      ?_, rfl⟩⟩
  · exact ⟨base.fifos, ⟨rfl, rfl, rfl, rfl⟩, acc _, base.leAccepted, (fun h => by cases h), fun _ => rfl, base.handler⟩
  · exact ⟨base.fifos, ⟨rfl, rfl, rfl, rfl, rfl⟩, acc _, base.leAccepted, (fun h => by cases h), fun _ => rfl, base.handler⟩

theorem met_InterruptEntryReadsData :
    ∃ s : State, s.mover = .agent .isr ∧ s.isr = .idle ∧ s.ctx = .main ∧ s.rxcie = true ∧ s.rxc = true :=
  ⟨{ configured with rxc := true, inputs := [⟨.agent .isr, quiet⟩] }, by decide⟩

/-- Not requested, not enabled, and with the handler running. -/
theorem met_TurnsPassWhileMaskedOrHandled :
    (∃ s : State, s.mover = .agent .isr ∧ s.isr = .idle ∧ s.rxcie = true ∧ s.rxc = false) ∧
      (∃ s : State, s.mover = .agent .isr ∧ s.isr = .idle ∧ s.rxcie = false ∧ s.rxc = true) ∧
      (∃ s : State, s.mover = .agent .isr ∧ s.isr = .idle ∧ s.ctx = .isr) ∧
      ∃ s : State, s.mover = .agent .main ∧ s.ctx = .isr :=
  ⟨⟨{ configured with inputs := [⟨.agent .isr, quiet⟩] }, by decide⟩,
    ⟨{ booted with rxc := true, inputs := [⟨.agent .isr, quiet⟩] }, by decide⟩,
    ⟨{ configured with ctx := .isr, inputs := [⟨.agent .isr, quiet⟩] }, by decide⟩,
    ⟨{ configured with ctx := .isr, inputs := [⟨.agent .main, quiet⟩] }, by decide⟩⟩

theorem met_HandlerStoresOrDropsTheByte :
    ∃ s : State, s.Inv ∧ (s.fifo Config.u2h).inited = true ∧ s.ctx = .main ∧ s.rxcie = true ∧ s.rxc = true ∧
      s.inputs = turns .isr [quiet, quiet, quiet] ++ [] :=
  ⟨{ configured with rxc := true, inputs := turns .isr [quiet, quiet, quiet] },
    inv_of_same configured_inv configured_inv.fifos ⟨rfl, rfl, rfl, rfl, rfl, rfl⟩ ⟨rfl, rfl⟩ configured_inv.handler
      (fun h => by cases h), rfl, rfl, by decide, rfl, rfl⟩

/-- Each line of step 1: at every position the other hypotheses hold together, with either answer of the oracle. -/
theorem met_UsbReceiveLines :
    ∀ p (o : Option Byte), ∃ s : State, (s.fifo Config.h2u).inited = true ∧ s.pos = p ∧ s.draws.poll = o ∧
      s.ctx = .main :=
  fun p o => ⟨{ booted with pos := p, inputs := [⟨.agent .main, { quiet with poll := o }⟩] }, rfl, rfl, rfl, rfl⟩

/-- The lines of step 2: each position, with each answer of the oracle, and a byte to PEEK or REMOVE. -/
theorem met_UsbTransmitLines :
    (∃ s : State, (s.fifo Config.u2h).inited = true ∧ s.pos = .s24 1 ∧ s.ctx = .main ∧ (s.fifo Config.u2h).count.toNat ≠ 0 ∧
        (s.fifo Config.u2h).mem.read (s.fifo Config.u2h).rd.toNat = some 0x10) ∧
      (∀ p a, ∃ s : State, (s.fifo Config.u2h).inited = true ∧ s.pos = p ∧ s.draws.sent = a) ∧
      ∃ s : State, (s.fifo Config.u2h).inited = true ∧ s.pos = .s26 1 0x10 .ok ∧ s.ctx = .main ∧
        (s.fifo Config.u2h).count.toNat ≠ 0 ∧ (s.fifo Config.u2h).mem.read (s.fifo Config.u2h).rd.toNat = some 0x10 :=
  ⟨⟨standing booted (holding .f0 255 [0x10]) (holding .f1 0 []) (.s24 1) [], by decide⟩,
    fun p a => ⟨{ booted with pos := p, inputs := [⟨.agent .main, { quiet with sent := a }⟩] }, rfl, rfl, rfl⟩,
    ⟨standing booted (holding .f0 255 [0x10]) (holding .f1 0 []) (.s26 1 0x10 .ok) [], by decide⟩⟩

/-- The lines of step 3: each position, and a byte to REMOVE and to send. -/
theorem met_UartTransmitLines :
    (∃ s : State, (s.fifo Config.h2u).inited = true ∧ s.pos = .s33 true false ∧ s.ctx = .main ∧
        (s.fifo Config.h2u).count.toNat ≠ 0 ∧ (s.fifo Config.h2u).mem.read (s.fifo Config.h2u).rd.toNat = some 0x41) ∧
      (∃ s : State, (s.fifo Config.h2u).inited = true ∧ s.pos = .s34 (some 0x41) ∧ s.sendReady = true) ∧
      ∀ p, ∃ s : State, (s.fifo Config.h2u).inited = true ∧ s.pos = p :=
  ⟨⟨standing booted (holding .f0 0 []) (holding .f1 127 [0x41]) (.s33 true false) [], by decide⟩,
    ⟨{ configured with pos := .s34 (some 0x41) }, by decide⟩, fun p => ⟨{ booted with pos := p }, rfl, rfl⟩⟩

/-- No acceptable request, a rejected one in front of an acceptable one, and a phase under way. -/
theorem met_ServiceLines :
    (∀ y ∈ [badReq], accept y = false) ∧
      (∃ s : State, s.pos = .s41 ∧ s.engine = none ∧ s.draws.events = [badReq]) ∧
      (∃ s : State, s.pos = .s41 ∧ s.engine = none ∧ s.draws.events = [badReq] ++ okReq :: [badReq] ∧
        accept okReq = true) ∧
      ∃ s : State, s.pos = .s42 ∧ s.engine = some (.p1, okReq) ∧ s.mover = .agent .main ∧ s.ctx = .main :=
  ⟨by simp; decide,
    ⟨{ configured with pos := .s41, inputs := [⟨.agent .main, { quiet with events := [badReq] }⟩] }, rfl, rfl, rfl⟩,
    ⟨{ configured with pos := .s41, inputs := [⟨.agent .main, { quiet with events := [badReq, okReq, badReq] }⟩] },
      rfl, rfl, rfl, okReq_accepted⟩,
    ⟨{ configured with pos := .s42, engine := some (.p1, okReq), inputs := [⟨.agent .main, quiet⟩] }, rfl, rfl, rfl, rfl⟩⟩

theorem met_StepCodesRunOnlyInTheirStep :
    State.reset.pos.stepNo ≠ some 1 ∧ booted.pos.stepNo ≠ some 2 ∧ booted.pos.stepNo ≠ some 3 ∧
      booted.pos.stepNo ≠ some 4 := by decide

/-- Step 1 with the buffer full and with it empty. -/
theorem met_StepOneMovesAtMostOneByte :
    (∃ s : State, s.AgentInv ∧ s.pos = .s11 ∧ s.ctx = .main ∧ s.inputs = turns .main [quiet, quiet, quiet] ++ [] ∧
        s.full Config.h2u = true) ∧
      ∃ s : State, s.AgentInv ∧ s.pos = .s11 ∧ s.ctx = .main ∧ s.inputs = turns .main [quiet, quiet, quiet] ++ [] ∧
        s.full Config.h2u = false := by
  obtain ⟨q, ho, hi, hc⟩ := full_instance
  exact ⟨⟨standing booted (holding .f0 0 []) q .s11 (turns .main [quiet, quiet, quiet]),
      standing_agentInv booted_inv rfl rfl rfl (booted_inv.fifos .f0) ho rfl hi _ _ rfl (by simp) trivial,
      rfl, rfl, rfl, standing_full _ _ _ _ _ hc⟩,
    ⟨standing booted (holding .f0 0 []) (holding .f1 0 []) .s11 (turns .main [quiet, quiet, quiet]),
      standing_agentInv booted_inv rfl rfl rfl (booted_inv.fifos .f0) (booted_inv.fifos .f1) rfl rfl _ _ rfl (by simp)
        trivial,
      rfl, rfl, rfl, by decide⟩⟩

/-- Two bytes queued, the head of a batch of two. -/
theorem batch_agentInv (k : Count Config.u2h) (hk : 0 < k.toNat) (hk2 : k.toNat ≤ 2) (ins : List Input) :
    (standing booted (holding .f0 255 [0x10, 0x11]) (holding .f1 0 []) (.s24 k) ins).AgentInv :=
  standing_agentInv booted_inv rfl rfl rfl (holding_ok .f0 255 _ (by decide)).1 (booted_inv.fifos .f1) rfl rfl
    _ _ rfl (by simp) ⟨hk, hk2⟩

theorem met_BatchSendsInOrder :
    ∃ (s : State) (ds : List Draws), s.AgentInv ∧ s.pos = .s24 2 ∧ s.ctx = .main ∧ ds.length = 3 * 2 ∧
      (∀ d ∈ ds, d.sent = .ok) ∧ s.inputs = turns .main ds ++ [] :=
  ⟨standing booted (holding .f0 255 [0x10, 0x11]) (holding .f1 0 []) (.s24 2) (turns .main (List.replicate 6 quiet)),
    List.replicate 6 quiet, batch_agentInv 2 (by decide) (by decide) _, rfl, rfl, rfl,
    by intro d hd; rw [List.eq_of_mem_replicate hd]; rfl, rfl⟩

/-- A send that fails, and an endpoint that is not ready. -/
theorem met_UnsentBytesStayQueued :
    (∃ (s : State) (d : Draws), s.AgentInv ∧ s.ctx = .main ∧ s.inputs = turns .main [quiet, d, quiet] ++ [] ∧
        s.pos = .s24 2 ∧ d.sent ≠ .ok) ∧
      ∃ (s : State) (d : Draws), s.AgentInv ∧ s.ctx = .main ∧ s.inputs = turns .main [quiet, d, quiet] ++ [] ∧
        s.pos = .s21 ∧ d.ready = false :=
  ⟨⟨standing booted (holding .f0 255 [0x10, 0x11]) (holding .f1 0 []) (.s24 2)
        (turns .main [quiet, { quiet with sent := .error }, quiet]), { quiet with sent := .error },
      batch_agentInv 2 (by decide) (by decide) _, rfl, rfl, rfl, by simp⟩,
    ⟨standing booted (holding .f0 255 [0x10, 0x11]) (holding .f1 0 []) .s21 (turns .main [quiet, quiet, quiet]), quiet,
      standing_agentInv booted_inv rfl rfl rfl (holding_ok .f0 255 _ (by decide)).1 (booted_inv.fifos .f1)
        rfl rfl _ _ rfl (by simp) trivial, rfl, rfl, rfl, rfl⟩⟩

/-- A ready transmitter with two bytes queued, and a transmitter that is off. -/
theorem met_StepThreeSendsTheOldestByte :
    (∃ s : State, s.AgentInv ∧ s.pos = .s31 ∧ s.ctx = .main ∧
        s.inputs = turns .main [quiet, quiet, quiet, quiet] ++ [] ∧ s.sendReady = true ∧
        s.content Config.h2u = [0x41, 0x42]) ∧
      ∃ s : State, s.AgentInv ∧ s.pos = .s31 ∧ s.ctx = .main ∧
        s.inputs = turns .main [quiet, quiet, quiet, quiet] ++ [] ∧ s.sendReady = false :=
  ⟨⟨standing configured (holding .f0 0 []) (holding .f1 127 [0x41, 0x42]) .s31 (turns .main [quiet, quiet, quiet, quiet]),
      standing_agentInv configured_inv rfl rfl rfl (booted_inv.fifos .f0)
        (holding_ok .f1 127 _ (by decide)).1 rfl rfl _ _ rfl (by simp) trivial, rfl, rfl, rfl, by decide,
      by decide⟩,
    ⟨standing booted (holding .f0 0 []) (holding .f1 0 []) .s31 (turns .main [quiet, quiet, quiet, quiet]),
      standing_agentInv booted_inv rfl rfl rfl (booted_inv.fifos .f0) (booted_inv.fifos .f1) rfl rfl _ _ rfl (by simp)
        trivial, rfl, rfl, rfl, by decide⟩⟩

theorem met_EveryStepKeepsTheInvariant :
    ∃ s t : State, s.Inv ∧ step s = .next t :=
  let s : State := { State.reset with inputs := [⟨.agent .main, quiet⟩] }
  ⟨s, _, (reset_agentInv _).inv, (exists_next (o := step s) (by decide)).choose_spec⟩

theorem met_AgentsRaiseNoFault :
    ∀ m : Mover, ∃ s : State, s.AgentInv ∧ s.mover = m :=
  fun m => ⟨{ State.reset with inputs := [⟨m, quiet⟩] }, reset_agentInv _, rfl⟩

/-- A byte on its way into `U2H`: the handler's last action. -/
theorem met_NothingIsLostTowardsTheHost :
    ∃ s t : State, s.AgentInv ∧ s.mover = .agent .isr ∧ s.isr = .gotFull 0x5A false ∧ step s = .next t := by
  let s : State := { configured with ctx := .isr, isr := .gotFull 0x5A false, inputs := [⟨.agent .isr, quiet⟩] }
  obtain ⟨t, ht⟩ := exists_next (o := step s) (by decide)
  refine ⟨s, t, ⟨?_, ⟨rfl, rfl, rfl⟩, ?_, trivial, ?_, ?_⟩, rfl, rfl, ht⟩
  · refine inv_of_same configured_inv configured_inv.fifos ⟨rfl, rfl, rfl, rfl, rfl, rfl⟩ ⟨rfl, rfl⟩ ?_ (fun h => by cases h)
    simp [s]
  · intro h; cases h
  · intro b _; show (holding .f0 0 []).count < 256; decide
  · intro h; cases h

/-- A byte handed over by the host, and a byte given to the transmitter. -/
theorem met_NothingIsLostTowardsTheWire :
    (∃ s t : State, s.AgentInv ∧ s.mover = .agent .main ∧ s.draws.poll = some 0x41 ∧ s.pos = .s12 false ∧
        step s = .next t) ∧
      ∃ s t : State, s.AgentInv ∧ s.mover = .agent .main ∧ s.pos = .s34 (some 0x41) ∧ step s = .next t := by
  let s : State := standing booted (holding .f0 0 []) (holding .f1 0 []) (.s12 false)
    [⟨.agent .main, { quiet with poll := some 0x41 }⟩]
  let u : State := standing configured (holding .f0 0 []) (holding .f1 0 []) (.s34 (some 0x41)) [⟨.agent .main, quiet⟩]
  obtain ⟨t, ht⟩ := exists_next (o := step s) (by decide)
  obtain ⟨v, hv⟩ := exists_next (o := step u) (by decide)
  refine ⟨⟨s, t, ?_, rfl, rfl, rfl, ht⟩, ⟨u, v, ?_, rfl, rfl, hv⟩⟩
  · exact standing_agentInv booted_inv rfl rfl rfl (booted_inv.fifos .f0) (booted_inv.fifos .f1) rfl rfl _ _ rfl (by simp)
      (fun _ => by decide)
  · exact standing_agentInv configured_inv rfl rfl rfl (booted_inv.fifos .f0) (booted_inv.fifos .f1) rfl rfl _ _ rfl
      (by simp) (fun _ => by decide)

theorem met_OnlyInsertWritesStorage :
    ∃ (i : Instr) (s t : State), exec i s = .next t ∧ (∀ ff b, i ≠ .insert ff b) ∧ i ≠ .brUsbRx :=
  ⟨.remove 1, { booted with fifo1 := holding .f1 0 [0xAA] }, _,
    (exists_next (o := exec (.remove 1) { booted with fifo1 := holding .f1 0 [0xAA] }) (by decide)).choose_spec,
    by simp, by simp⟩

theorem met_OnlyTheEngineConfiguresTheUart :
    ∃ (i : Instr) (s t : State), exec i s = .next t ∧ i ≠ .brService :=
  ⟨.reconfig okReq, booted, _, (exists_next (o := exec (.reconfig okReq) booted) (by decide)).choose_spec, by simp⟩

theorem met_TracesOnlyGrow : ∃ s t : State, step s = .next t ∧ s.mover ≠ .reset :=
  let s : State := { configured with inputs := [⟨.agent .wireRx, quiet⟩] }
  ⟨s, _, (exists_next (o := step s) (by decide)).choose_spec, by simp [s, State.mover]⟩

/-- A step of the handler and one of MAIN. -/
theorem met_EachSideMovesTheCountOneWay :
    ∀ a, a = .isr ∨ a = .main → ∃ s t : State, (s.fifo Config.u2h).inited = true ∧
      (s.fifo Config.u2h).count.toNat ≤ Config.cap Config.u2h ∧ s.mover = .agent a ∧ step s = .next t := by
  rintro a (rfl | rfl)
  · exact ⟨{ configured with rxc := true, inputs := [⟨.agent .isr, quiet⟩] }, _, rfl, by decide, rfl,
      (exists_next (o := step { configured with rxc := true, inputs := [⟨.agent .isr, quiet⟩] }) (by decide)).choose_spec⟩
  · exact ⟨{ configured with inputs := [⟨.agent .main, quiet⟩] }, _, rfl, by decide, rfl,
      (exists_next (o := step { configured with inputs := [⟨.agent .main, quiet⟩] }) (by decide)).choose_spec⟩

/-- A word each side of the equivalence holds of. -/
theorem met_DecodeAgreesWithEncode :
    decode (.fifoPort 0x28FF) = .ok (.insert 2 0xFF) ∧ (Instr.insert 2 0xFF).WellFormed = true ∧
      encode (.insert 2 0xFF) = .fifoPort 0x28FF :=
  ⟨rfl, rfl, by decide⟩

theorem met_IllegalWordsFault :
    ∃ s : State, s.mover = .command (.fifo 0x1C00) ∧ decode (Command.fifo 0x1C00).presented = .error .noSuchInstance :=
  ⟨{ booted with inputs := [⟨.command (.fifo 0x1C00), quiet⟩] }, rfl, rfl⟩

/-- A client's command, a step code MAIN fetches, and a word of the table. -/
theorem met_StepRunsTheDecodedInstruction :
    (∃ s : State, s.mover = .command (.fifo 0x2441) ∧ decode (Command.fifo 0x2441).presented = .ok (.insert 1 0x41)) ∧
      (∃ s : State, s.mover = .agent .main ∧ s.ctx = .main ∧ s.engine = none ∧ s.pos.code = some 3 ∧
        decode (.stepCode 3) = .ok .brService) ∧
      decodeTableWord 48 0x988000002580 = some (.reconfig ⟨9600, .even, .one, 8⟩) :=
  ⟨⟨{ booted with inputs := [⟨.command (.fifo 0x2441), quiet⟩] }, rfl, rfl⟩,
    ⟨{ booted with pos := .s41, inputs := [⟨.agent .main, quiet⟩] }, rfl, rfl, rfl, rfl, rfl⟩, by decide⟩

end Sys2Proof.Tests
end

section
/-!
PROOFS. The family of 00_scope.md: turns that pass, and the instruction a step runs. First what a step is for each mover,
as equations (the laws of Agents state the inversions), then the two statements.
-/

namespace Sys2Proof.Machine

/-! ## The step of each mover -/

theorem step_of_agent {s : State} {a : Agent} (h : s.mover = .agent a) : step s = advanced (agentAct a s) := by
  simp only [step, h, moverAct]

theorem step_of_command {s : State} {c : Command} (h : s.mover = .command c) :
    step s = advanced (runPresented c.presented s) := by
  simp only [step, h, moverAct]

/-- A legal word at a place runs its instruction (R65, R75). -/
theorem runPresented_ok {p : Presented} {i : Instr} (h : decode p = .ok i) (s : State) : runPresented p s = exec i s := by
  simp only [runPresented, h]

theorem step_of_legal_command {s : State} {c : Command} {i : Instr} (hm : s.mover = .command c)
    (hd : decode c.presented = .ok i) : step s = advanced (exec i s) := by
  rw [step_of_command hm, runPresented_ok hd]

/-- MAIN past boot with an idle engine runs the instruction its position's step code decodes to (R69). -/
theorem step_of_main_code {s : State} {c : StepCode} {i : Instr} (hm : s.mover = .agent .main) (hc : s.ctx = .main)
    (he : s.engine = none) (hp : s.pos.code = some c) (hd : decode (.stepCode c) = .ok i) :
    step s = advanced (exec i s) := by
  have hi : decodeS c = i := Except.ok.inj hd
  rw [step_of_agent hm, agentAct, mainAct_code hc he hp, hi]

/-! ## Turns that pass (R9, R150; log 3) -/

/-- No action of MAIN happens while the handler runs (R9). -/
theorem mainAct_isr {s : State} (hc : s.ctx = .isr) : mainAct s = .next s := by
  simp only [mainAct, hc, if_true]

/-- The idle handler is entered only from MAIN, with the interrupt requested and enabled (R150). -/
theorem isrAct_idle_masked {s : State} (hi : s.isr = .idle) (h : s.ctx = .isr ∨ s.rxcie = false ∨ s.rxc = false) :
    isrAct s = .next s := by
  have hno : ¬ (s.ctx = .main ∧ s.irqRequested = true) := by
    rintro ⟨hmain, hirq⟩
    rcases h with hisr | hmask | hrxc
    · simp [hmain] at hisr
    · simp [State.irqRequested, hmask] at hirq
    · simp [State.irqRequested, hrxc] at hirq
  simp only [isrAct, hi, if_neg hno]

/-- Settles O37: the handler's turn and MAIN's turn each pass when the action has nothing to do. -/
theorem turnsPassWhileMaskedOrHandled : Obligations.TurnsPassWhileMaskedOrHandled := by
  refine fun s => ⟨fun hm hi h => ?_, fun hm hc => ?_⟩
  · rw [step_of_agent hm, agentAct, isrAct_idle_masked hi h, advanced]
  · rw [step_of_agent hm, agentAct, mainAct_isr hc, advanced]

/-! ## The instruction of a presented word (R9, R69; log 4) -/

/-- The first line of a step is a line of that step (R69). -/
@[simp] theorem code_firstLine (c : StepCode) : (firstLine c).code = some c := by
  revert c; decide

/-- A word of the table is legal at the place the table gives it. -/
theorem decodeTableWord_some {nbits w : Nat} {i : Instr} (h : decodeTableWord nbits w = some i) :
    ∃ p, tablePresented nbits w = some p ∧ decode p = .ok i := by
  unfold decodeTableWord at h
  split at h
  next p hp =>
    refine ⟨p, hp, ?_⟩
    cases hd : decode p <;> rw [hd] at h <;> cases h
    rfl
  next => cases h

/-- The state `present` builds runs the presented word's instruction next, whatever the place (log 4). -/
theorem step_present {p : Presented} {i : Instr} (h : decode p = .ok i) (s : State) :
    step (present p s) = advanced (exec i (present p s)) := by
  cases p with
  | fifoPort w => exact step_of_legal_command (c := .fifo w) rfl h
  | uartShim w => exact step_of_legal_command (c := .uart w) rfl h
  | engine w => exact step_of_legal_command (c := .engine w) rfl h
  | stepCode c => exact step_of_main_code (c := c) rfl rfl rfl (code_firstLine c) h

/-- Settles O60: the three ways a word comes to be run, each by the lemma of its mover. -/
theorem stepRunsTheDecodedInstruction : Obligations.StepRunsTheDecodedInstruction := by
  refine ⟨fun c i s => step_of_legal_command, fun c i s => step_of_main_code, fun nbits w i s h => ?_⟩
  obtain ⟨p, hp, hd⟩ := decodeTableWord_some h
  simp only [State.withFetchWord, hp]
  exact step_present hd s

end Sys2Proof.Machine
end

section
/-!
PROOFS. The family of 10_state.md, in three parts: what a step can do, as a chain of elementary updates (`Update`); what
each update keeps, which gives the statements about every step; and the statements about single instructions.
-/

namespace Sys2Proof.Machine

/-! ## What each meaning can do when it answers -/

/-- A format F meaning that answers ran its operation, without a fault, on the FIFO its select names. -/
theorem onInstance_settle_next {ff : BitVec 2} {i : Instr} {α : Inst → Type} {op : (f : Inst) → Except Fault (α f)}
    {k : (f : Inst) → α f → Out} {t : State} (h : onInstance ff i (fun f => settle (op f) (k f)) = .next t) :
    ∃ f a, op f = .ok a ∧ k f a = .next t := by
  obtain ⟨f, -, hf⟩ := onInstance_next h
  exact ⟨f, settle_next hf⟩

/-- A line of boot moves MAIN on, after an INIT or none (R169). -/
theorem bootAct_cases {s t : State} (h : bootAct s = .next t) :
    ∃ u p, t = u.setPos p ∧ p ≠ .s42 ∧ (u = s ∨ ∃ f, opInit f s = .ok u) := by
  unfold bootAct at h
  split at h
  case h_1 | h_5 => cases h; exact ⟨s, _, rfl, nofun, .inl rfl⟩
  all_goals
    obtain ⟨u, hu, ⟨⟩⟩ := settle_next h
    exact ⟨u, _, rfl, nofun, .inr ⟨_, hu⟩⟩

/-- A line of step 1 moves MAIN on, after logging a byte from the host, an INSERT into `H2U`, or neither (R130). -/
theorem execBrUsbRx_cases {s t : State} (h : execBrUsbRx s = .next t) :
    ∃ u p, t = u.setPos p ∧ p ≠ .s42 ∧
      (u = s ∨ (∃ b, u = { s with usbInLog := s.usbInLog ++ [b] }) ∨ ∃ b, opInsert Config.h2u b s = .ok u) := by
  unfold execBrUsbRx at h
  split at h
  next =>
    obtain ⟨full, -, ⟨⟩⟩ := settle_next h
    exact ⟨s, _, rfl, nofun, .inl rfl⟩
  next =>
    unfold line12 at h
    split at h
    · cases h; exact ⟨s, _, rfl, nofun, .inl rfl⟩
    · split at h <;> cases h
      · exact ⟨_, _, rfl, nofun, .inr (.inl ⟨_, rfl⟩)⟩
      · exact ⟨s, _, rfl, nofun, .inl rfl⟩
  next b _ =>
    cases b with
    | none => cases h; exact ⟨s, _, rfl, nofun, .inl rfl⟩
    | some b =>
      obtain ⟨u, hu, ⟨⟩⟩ := settle_next h
      exact ⟨u, _, rfl, nofun, .inr (.inr ⟨b, hu⟩)⟩
  next => cases h

theorem batchPos_ne_s42 (k : Count Config.u2h) : batchPos k ≠ .s42 := by
  unfold batchPos
  split <;> nofun

/-- A line of step 2 moves MAIN on, after logging a byte the host took, a REMOVE from `U2H`, or neither (R131). -/
theorem execBrUsbTx_cases {s t : State} (h : execBrUsbTx s = .next t) :
    ∃ u p, t = u.setPos p ∧ p ≠ .s42 ∧
      (u = s ∨ (∃ seen b, u = { s with usbOutLog := appendIf seen s.usbOutLog b }) ∨
        ∃ b, opRemove Config.u2h s = .ok (b, u)) := by
  unfold execBrUsbTx at h
  split at h
  next =>
    obtain ⟨n, -, ⟨⟩⟩ := settle_next h
    exact ⟨s, _, rfl, nofun, .inl rfl⟩
  next => cases h; exact ⟨s, _, rfl, nofun, .inl rfl⟩
  next => cases h; exact ⟨s, _, rfl, batchPos_ne_s42 _, .inl rfl⟩
  next =>
    obtain ⟨b, -, ⟨⟩⟩ := settle_next h
    exact ⟨s, _, rfl, nofun, .inl rfl⟩
  next => cases h; exact ⟨_, _, rfl, nofun, .inr (.inl ⟨_, _, rfl⟩)⟩
  next =>
    unfold line26 at h
    split at h
    · obtain ⟨⟨b, u⟩, hu, ⟨⟩⟩ := settle_next h
      exact ⟨u, _, rfl, batchPos_ne_s42 _, .inr (.inr ⟨b, hu⟩)⟩
    · cases h; exact ⟨s, _, rfl, batchPos_ne_s42 _, .inl rfl⟩
  next => cases h

/-- A line of step 3 moves MAIN on, after a REMOVE from `H2U`, a UART_SEND, or neither (R132). -/
theorem execBrUartTx_cases {s t : State} (h : execBrUartTx s = .next t) :
    ∃ u p, t = u.setPos p ∧ p ≠ .s42 ∧
      (u = s ∨ (∃ b, opRemove Config.h2u s = .ok (b, u)) ∨ ∃ b, opSend b s = .ok u) := by
  unfold execBrUartTx at h
  split at h
  next => cases h; exact ⟨s, _, rfl, nofun, .inl rfl⟩
  next =>
    unfold line32 at h
    split at h
    · obtain ⟨e, -, ⟨⟩⟩ := settle_next h
      exact ⟨s, _, rfl, nofun, .inl rfl⟩
    · cases h; exact ⟨s, _, rfl, nofun, .inl rfl⟩
  next =>
    unfold line33 at h
    split at h
    · obtain ⟨⟨b, u⟩, hu, ⟨⟩⟩ := settle_next h
      exact ⟨u, _, rfl, nofun, .inr (.inl ⟨b, hu⟩)⟩
    · cases h; exact ⟨s, _, rfl, nofun, .inl rfl⟩
  next b _ =>
    cases b with
    | none => cases h; exact ⟨s, _, rfl, nofun, .inl rfl⟩
    | some b =>
      obtain ⟨u, hu, ⟨⟩⟩ := settle_next h
      exact ⟨u, _, rfl, nofun, .inr (.inr ⟨b, hu⟩)⟩
  next => cases h

/-- A line of step 4 hands the requests over or runs the engine (R133). -/
theorem execBrService_cases {s t : State} (h : execBrService s = .next t) :
    t = handOver s.draws.events (s.setPos .s42) ∨ t = engineAct s := by
  unfold execBrService at h
  split at h <;> cases h
  · exact .inl rfl
  · exact .inr rfl

/-- MAIN passes its turn, runs the engine, is in boot, or runs the instruction of its position (R9, R122, R69). -/
theorem mainAct_cases {s t : State} (h : mainAct s = .next t) :
    (s.ctx = .isr ∧ t = s) ∨ (s.ctx ≠ .isr ∧ s.engine.isSome = true ∧ t = engineAct s) ∨
      (s.ctx ≠ .isr ∧ s.engine = none ∧
        ((s.pos.code = none ∧ bootAct s = .next t) ∨ ∃ c, s.pos.code = some c ∧ exec (decodeS c) s = .next t)) := by
  unfold mainAct at h
  split at h
  next hx => cases h; exact .inl ⟨hx, rfl⟩
  next hx =>
    split at h
    next he => cases h; exact .inr (.inl ⟨hx, he, rfl⟩)
    next he =>
      refine .inr (.inr ⟨hx, by simpa using he, ?_⟩)
      split at h
      next hp => exact .inl ⟨hp, h⟩
      next c hp => exact .inr ⟨c, hp, h⟩

/-- The instruction of a step code is one of the four sequencer steps (R69). -/
theorem decodeS_cases (c : StepCode) :
    decodeS c = .brUsbRx ∨ decodeS c = .brUsbTx ∨ decodeS c = .brUartTx ∨ decodeS c = .brService := by
  revert c; decide

/-- The handler passes its turn, is entered, observes `full`, or returns, after an INSERT into `U2H` or none (R151). -/
theorem isrAct_cases {s t : State} (h : isrAct s = .next t) :
    (s.isr = .idle ∧ t = s) ∨
      (s.isr = .idle ∧ s.ctx = .main ∧ s.irqRequested = true ∧ t = takeInterrupt s) ∨
      (∃ b, s.isr = .gotByte b ∧ t = { s with isr := .gotFull b (s.full Config.u2h) }) ∨
      (∃ b, s.isr = .gotFull b true ∧ t = returnFromInterrupt s) ∨
      ∃ b u, s.isr = .gotFull b false ∧ opInsert Config.u2h b s = .ok u ∧ t = returnFromInterrupt u := by
  unfold isrAct at h
  split at h
  next hi =>
    split at h <;> cases h
    next hirq => exact .inr (.inl ⟨hi, hirq.1, hirq.2, rfl⟩)
    next => exact .inl ⟨hi, rfl⟩
  next b hi =>
    obtain ⟨full, hfull, ⟨⟩⟩ := settle_next h
    obtain ⟨-, rfl⟩ := opIsFull_ok hfull
    exact .inr (.inr (.inl ⟨b, hi, rfl⟩))
  next b full hi =>
    cases full with
    | true => cases h; exact .inr (.inr (.inr (.inl ⟨b, hi, rfl⟩)))
    | false =>
      obtain ⟨u, hu, ⟨⟩⟩ := settle_next h
      exact .inr (.inr (.inr (.inr ⟨b, u, hi, hu, rfl⟩)))

/-! ## A step is a chain of elementary updates -/

/-- The elementary updates every action but reset is made of, each with the part of its guard the invariant needs. -/
inductive Update : State → State → Prop where
  | init (s : State) (f : Inst) : Update s (s.setFifo f { s.fifo f with count := 0, wr := 0, rd := 0, inited := true })
  | push {s : State} {f : Inst} (b : Byte) : (s.fifo f).inited = true → (s.fifo f).count.toNat ≠ Config.cap f →
      Update s (s.setFifo f ((s.fifo f).pushed b))
  | pop {s : State} {f : Inst} : (s.fifo f).inited = true → (s.fifo f).count.toNat ≠ 0 →
      Update s (s.setFifo f (s.fifo f).popped)
  | flush {s : State} {f : Inst} : (s.fifo f).inited = true → Update s (s.setFifo f (s.fifo f).flushed)
  | respond (s : State) (r : Option Response) : Update s (s.respond r)
  | setPos (s : State) {p : Pos} : p ≠ .s42 → Update s (s.setPos p)
  | send (s : State) (b : Byte) : Update s { s with txshift := some b }
  | rxRead (s : State) : Update s (rxRead s).2
  | usbIn (s : State) (b : Byte) : Update s { s with usbInLog := s.usbInLog ++ [b] }
  | usbOut (s : State) (seen : Bool) (b : Byte) : Update s { s with usbOutLog := appendIf seen s.usbOutLog b }
  | wireArrive (s : State) (b : Byte) : Update s (wireArrive b s)
  | wireFinish (s : State) : Update s (wireFinish s)
  | engine (s : State) : Update s (engineAct s)
  | handOver (s : State) (reqs : List LineReq) : Update s (handOver reqs (s.setPos .s42))
  | reconfig (s : State) (r : LineReq) : Update s (requestReconfig r s)
  | takeInterrupt (s : State) : Update s (takeInterrupt s)
  | gotFull {s : State} (b : Byte) (full : Bool) : s.isr ≠ .idle → Update s { s with isr := .gotFull b full }
  | returnFromInterrupt (s : State) : Update s (returnFromInterrupt s)
  | advance (s : State) : Update s s.advance

/-- A chain of elementary updates. -/
abbrev Updates : State → State → Prop := Relation.ReflTransGen Update

theorem opInit_updates {f : Inst} {s t : State} (h : opInit f s = .ok t) : Updates s t := by
  obtain ⟨-, -, rfl⟩ := opInit_ok h
  exact .single (.init s f)

theorem opInsert_updates {f : Inst} {b : Byte} {s t : State} (h : opInsert f b s = .ok t) : Updates s t := by
  obtain ⟨hi, -, ⟨-, rfl⟩ | ⟨hc, rfl⟩⟩ := opInsert_ok h
  · exact .refl
  · exact .single (.push b hi hc)

theorem opRemove_updates {f : Inst} {b : Byte} {s t : State} (h : opRemove f s = .ok (b, t)) : Updates s t := by
  obtain ⟨hi, -, hc, -, rfl⟩ := opRemove_ok h
  exact .single (.pop hi hc)

theorem opFlush_updates {f : Inst} {s t : State} (h : opFlush f s = .ok t) : Updates s t := by
  obtain ⟨hi, -, rfl⟩ := opFlush_ok h
  exact .single (.flush hi)

theorem opSend_updates {b : Byte} {s t : State} (h : opSend b s = .ok t) : Updates s t := by
  obtain ⟨-, rfl⟩ := opSend_ok h
  exact .single (.send s b)

/-- An instruction that answers makes elementary updates only. -/
theorem exec_updates {i : Instr} {s t : State} (h : exec i s = .next t) : Updates s t := by
  cases i with
  | init ff =>
    obtain ⟨f, u, hu, ⟨⟩⟩ := onInstance_settle_next h
    exact (opInit_updates hu).tail (.respond u _)
  | insert ff b =>
    obtain ⟨f, u, hu, ⟨⟩⟩ := onInstance_settle_next h
    exact (opInsert_updates hu).tail (.respond u _)
  | remove ff =>
    obtain ⟨f, ⟨b, u⟩, hu, ⟨⟩⟩ := onInstance_settle_next h
    exact (opRemove_updates hu).tail (.respond u _)
  | flush ff =>
    obtain ⟨f, u, hu, ⟨⟩⟩ := onInstance_settle_next h
    exact (opFlush_updates hu).tail (.respond u _)
  | peek ff | isFull ff | isEmpty ff | count ff =>
    obtain ⟨f, a, -, ⟨⟩⟩ := onInstance_settle_next h
    exact .single (.respond s _)
  | reconfig r => cases h; exact (Relation.ReflTransGen.single (.reconfig s r)).tail (.respond _ _)
  | uartSendReady => cases h; exact .single (.respond s _)
  | uartSend b =>
    obtain ⟨u, hu, ⟨⟩⟩ := settle_next h
    exact (opSend_updates hu).tail (.respond u _)
  | uartRxRead => cases h; exact (Relation.ReflTransGen.single (.rxRead s)).tail (.respond _ _)
  | brUsbRx =>
    obtain ⟨u, p, rfl, hp, hu⟩ := execBrUsbRx_cases h
    refine .tail ?_ (.setPos u hp)
    obtain rfl | ⟨b, rfl⟩ | ⟨b, hu⟩ := hu
    · exact .refl
    · exact .single (.usbIn s b)
    · exact opInsert_updates hu
  | brUsbTx =>
    obtain ⟨u, p, rfl, hp, hu⟩ := execBrUsbTx_cases h
    refine .tail ?_ (.setPos u hp)
    obtain rfl | ⟨seen, b, rfl⟩ | ⟨b, hu⟩ := hu
    · exact .refl
    · exact .single (.usbOut s seen b)
    · exact opRemove_updates hu
  | brUartTx =>
    obtain ⟨u, p, rfl, hp, hu⟩ := execBrUartTx_cases h
    refine .tail ?_ (.setPos u hp)
    obtain rfl | ⟨b, hu⟩ | ⟨b, hu⟩ := hu
    · exact .refl
    · exact opRemove_updates hu
    · exact opSend_updates hu
  | brService =>
    obtain rfl | rfl := execBrService_cases h
    · exact .single (.handOver s _)
    · exact .single (.engine s)

theorem mainAct_updates {s t : State} (h : mainAct s = .next t) : Updates s t := by
  obtain ⟨-, rfl⟩ | ⟨-, -, rfl⟩ | ⟨-, -, ⟨-, hb⟩ | ⟨c, -, hc⟩⟩ := mainAct_cases h
  · exact .refl
  · exact .single (.engine s)
  · obtain ⟨u, p, rfl, hp, rfl | ⟨f, hu⟩⟩ := bootAct_cases hb
    · exact .single (.setPos u hp)
    · exact (opInit_updates hu).tail (.setPos u hp)
  · exact exec_updates hc

theorem isrAct_updates {s t : State} (h : isrAct s = .next t) : Updates s t := by
  obtain ⟨-, rfl⟩ | ⟨-, -, -, rfl⟩ | ⟨b, hi, rfl⟩ | ⟨-, -, rfl⟩ | ⟨b, u, -, hu, rfl⟩ := isrAct_cases h
  · exact .refl
  · exact .single (.takeInterrupt s)
  · exact .single (.gotFull b _ (by simp [hi]))
  · exact .single (.returnFromInterrupt s)
  · exact (opInsert_updates hu).tail (.returnFromInterrupt u)

/-- Whatever moves but reset makes elementary updates only. -/
theorem moverAct_updates {m : Mover} {s t : State} (hm : m ≠ .reset) (h : moverAct m s = .next t) : Updates s t := by
  cases m with
  | reset => exact absurd rfl hm
  | command c =>
    obtain ⟨i, -, hi⟩ := runPresented_next h
    exact exec_updates hi
  | agent a =>
    cases a with
    | main => exact mainAct_updates h
    | isr => exact isrAct_updates h
    | wireRx => cases h; exact .single (.wireArrive s _)
    | wireTx => cases h; exact .single (.wireFinish s)

/-- A step in which reset does not move is a chain of elementary updates. -/
theorem step_updates {s t : State} (hm : s.mover ≠ .reset) (h : step s = .next t) : Updates s t := by
  obtain ⟨u, hu, rfl⟩ := step_next h
  exact (moverAct_updates hm hu).tail (.advance u)

/-! ## The invariant: the engine -/

/-- With the engine idle and the rest of the invariant met, starting on requests meets it, whatever waited before and
wherever MAIN stands. -/
theorem startNext_inv {s : State} (rs : List LineReq) (hf : ∀ f, (s.fifo f).Ok) (hh : s.txhold = false)
    (hs : s.Settled) (he : s.engine = none) (hl : ∀ r, s.le = some r → accept r = true)
    (hx : s.ctx = .isr ↔ s.isr ≠ .idle) : (startNext rs s).Inv := by
  have hfifo : ∀ f, ((startNext rs s).fifo f).Ok := fun f => by rw [startNext_fifo]; exact hf f
  rcases startNext_cases rs s with ⟨pre, r, rest, -, -, ha, heq⟩ | ⟨-, heq⟩ <;> rw [heq] at hfifo ⊢
  · exact
      { fifos := hfifo
        registers := ⟨hh, hs⟩
        engineAccepted := by rintro p x ⟨⟩; exact ha
        leAccepted := hl
        idleEvs := nofun
        at42 := fun _ => rfl
        handler := hx }
  · exact
      { fifos := hfifo
        registers := by simp only [State.RegistersFollow, he]; exact ⟨hh, hs⟩
        engineAccepted := by simp [he]
        leAccepted := hl
        idleEvs := fun _ => rfl
        at42 := by dsimp only; split <;> simp_all
        handler := hx }

/-- The part of the invariant `startNext_inv` asks for, in a state of the invariant with the engine idle. -/
theorem idle_settled {s : State} (h : s.Inv) (he : s.engine = none) : s.txhold = false ∧ s.Settled := by
  simpa only [State.RegistersFollow, he] using h.registers

/-- An action that leaves the engine at a phase of an accepted record, with the registers of that phase, and touches no
FIFO, neither `le` nor the context, keeps the invariant. -/
theorem inv_of_running {s t : State} {p : Phase} {r : LineReq} (h : s.Inv) (he : t.engine = some (p, r))
    (ha : accept r = true) (hr : t.RegistersFollow) (hf : ∀ g, t.fifo g = s.fifo g) (hl : t.le = s.le)
    (hx : SameContext s t) : t.Inv where
  fifos := fun f => by rw [hf]; exact h.fifos f
  registers := hr
  engineAccepted := by rw [he]; rintro _ _ ⟨⟩; exact ha
  leAccepted := by rw [hl]; exact h.leAccepted
  idleEvs := by simp [he]
  at42 := by simp [he]
  handler := by rw [hx.1, hx.2]; exact h.handler

theorem phaseAct_inv {s : State} {p : Phase} {r : LineReq} (h : s.Inv) (he : s.engine = some (p, r)) :
    (phaseAct p r s).Inv := by
  have ha : accept r = true := h.engineAccepted p r he
  have hf := phaseAct_fifo p r s
  have hr := h.registers
  simp only [State.RegistersFollow, he] at hr
  cases p with
  | p1 =>
    exact inv_of_running h rfl ha ⟨rfl, hr.2⟩ hf rfl ⟨rfl, rfl⟩
  | p2 =>
    obtain ⟨log, hlog, -⟩ := cutOff_eq (disableUart s)
    simp only [phaseAct, hlog] at hf ⊢
    exact inv_of_running h rfl ha ⟨hr.1, rfl, rfl, rfl⟩ hf rfl ⟨rfl, rfl⟩
  | p3 =>
    obtain ⟨hh, hA, hB, hC⟩ := hr
    exact inv_of_running h rfl ha ⟨hh, hA, hB, hC, rfl⟩ hf rfl ⟨rfl, rfl⟩
  | p4 =>
    obtain ⟨hh, hA, hB, -, hD⟩ := hr
    exact inv_of_running h rfl ha ⟨hh, hA, hB, frameMask_masked r, hD⟩ hf rfl ⟨rfl, rfl⟩
  | p5 =>
    obtain ⟨hh, -, -, hC, hD⟩ := hr
    exact inv_of_running h rfl ha ⟨hh, enableA_masked, enableB_masked, hC, hD⟩ hf rfl ⟨rfl, rfl⟩
  | p6 =>
    have hfifos : ∀ f, (({ s with txhold := false, le := some r, engine := none } : State).fifo f).Ok := fun f => by
      cases f <;> exact h.fifos _
    exact startNext_inv s.evs hfifos rfl hr.2 rfl (by rintro _ ⟨⟩; exact ha) h.handler

theorem engineAct_inv {s : State} (h : s.Inv) : (engineAct s).Inv := by
  unfold engineAct
  split
  next p r he => exact phaseAct_inv h he
  next he =>
    obtain ⟨hh, hs⟩ := idle_settled h he
    exact startNext_inv s.evs h.fifos hh hs he h.leAccepted h.handler

theorem handOver_inv {s : State} (h : s.Inv) (reqs : List LineReq) : (handOver reqs (s.setPos .s42)).Inv := by
  have hf := handOver_fifo reqs (s.setPos .s42)
  unfold handOver at hf ⊢
  split at hf
  next e he =>
    exact inv_of_running h he (h.engineAccepted _ _ he) h.registers (fun g => by rw [hf, setPos_fifo]) rfl ⟨rfl, rfl⟩
  next he =>
    obtain ⟨hh, hs⟩ := idle_settled h he
    exact startNext_inv reqs (fun f => by rw [setPos_fifo]; exact h.fifos f) hh hs he h.leAccepted h.handler

theorem requestReconfig_inv {s : State} (h : s.Inv) (r : LineReq) : (requestReconfig r s).Inv := by
  unfold requestReconfig
  split
  next e he =>
    exact inv_of_running h he (h.engineAccepted _ _ he) h.registers (fun g => by cases g <;> rfl) rfl ⟨rfl, rfl⟩
  next he =>
    split
    next ha =>
      obtain ⟨hh, hs⟩ := idle_settled h he
      exact inv_of_running h rfl ha ⟨hh, hs⟩ (fun g => by cases g <;> rfl) rfl ⟨rfl, rfl⟩
    next => exact h

/-! ## The invariant: every update -/

/-- An action that moves the context and the handler at most, together, keeps the invariant. -/
theorem inv_of_handler {s t : State} (h : s.Inv) (hf : SameFifos s t) (hc : SameConfiguration s t)
    (he : SameEngine s t) (hp : t.pos = s.pos) (hx : t.ctx = .isr ↔ t.isr ≠ .idle) : t.Inv :=
  inv_of_same h (fun f => by rw [hf]; exact h.fifos f) hc he hx (by rw [hp, he.1]; exact h.at42)

/-- An action that touches no FIFO, neither the configuration nor the control, keeps the invariant. -/
theorem inv_of_sameControl {s t : State} (h : s.Inv) (hf : SameFifos s t) (hc : SameConfiguration s t)
    (hk : SameControl s t) : t.Inv := by
  obtain ⟨hp, he, hx, hi⟩ := hk
  exact inv_of_handler h hf hc he hp (by rw [hx, hi]; exact h.handler)

theorem wireArrive_frame (b : Byte) (s : State) : SameConfiguration s (wireArrive b s) ∧ SameControl s (wireArrive b s) := by
  unfold wireArrive
  split
  · exact ⟨⟨rfl, rfl, rfl, rfl, rfl, rfl⟩, rfl, ⟨rfl, rfl⟩, rfl, rfl⟩
  · split <;> exact ⟨⟨rfl, rfl, rfl, rfl, rfl, rfl⟩, rfl, ⟨rfl, rfl⟩, rfl, rfl⟩

theorem wireFinish_frame (s : State) : SameConfiguration s (wireFinish s) ∧ SameControl s (wireFinish s) := by
  unfold wireFinish
  split <;> exact ⟨⟨rfl, rfl, rfl, rfl, rfl, rfl⟩, rfl, ⟨rfl, rfl⟩, rfl, rfl⟩

/-- Every elementary update keeps the invariant. -/
theorem update_inv {s t : State} (h : s.Inv) (hu : Update s t) : t.Inv := by
  cases hu with
  | init f => exact inv_setFifo h f _ (inited_ok (h.fifos f))
  | push b hi hc => exact inv_setFifo h _ _ (pushed_ok b (h.fifos _) hi hc)
  | pop hi hc => exact inv_setFifo h _ _ (popped_ok (h.fifos _) hi hc)
  | flush hi => exact inv_setFifo h _ _ (flushed_ok (h.fifos _) hi)
  | setPos hp =>
    exact inv_of_same h (fun f => by rw [setPos_fifo]; exact h.fifos f) ⟨rfl, rfl, rfl, rfl, rfl, rfl⟩ ⟨rfl, rfl⟩
      h.handler (fun h42 => absurd h42 hp)
  | respond | send | rxRead | usbIn | usbOut | advance =>
    exact inv_of_sameControl h (fun g => by cases g <;> rfl) ⟨rfl, rfl, rfl, rfl, rfl, rfl⟩ ⟨rfl, ⟨rfl, rfl⟩, rfl, rfl⟩
  | wireArrive b =>
    obtain ⟨hc, hk⟩ := wireArrive_frame b s
    exact inv_of_sameControl h (wireArrive_fifo b s) hc hk
  | wireFinish =>
    obtain ⟨hc, hk⟩ := wireFinish_frame s
    exact inv_of_sameControl h (wireFinish_fifo s) hc hk
  | engine => exact engineAct_inv h
  | handOver reqs => exact handOver_inv h reqs
  | reconfig r => exact requestReconfig_inv h r
  | takeInterrupt =>
    exact inv_of_handler h (takeInterrupt_fifo s) ⟨rfl, rfl, rfl, rfl, rfl, rfl⟩ ⟨rfl, rfl⟩ rfl
      ⟨fun _ => nofun, fun _ => rfl⟩
  | gotFull b full hi =>
    exact inv_of_handler h (fun g => by cases g <;> rfl) ⟨rfl, rfl, rfl, rfl, rfl, rfl⟩ ⟨rfl, rfl⟩ rfl
      ⟨fun _ => nofun, fun _ => h.handler.mpr hi⟩
  | returnFromInterrupt =>
    exact inv_of_handler h (returnFromInterrupt_fifo s) ⟨rfl, rfl, rfl, rfl, rfl, rfl⟩ ⟨rfl, rfl⟩ rfl
      ⟨nofun, fun hne => absurd rfl hne⟩

theorem updates_inv {s t : State} (h : s.Inv) (hu : Updates s t) : t.Inv := by
  induction hu with
  | refl => exact h
  | tail _ hlast ih => exact update_inv ih hlast

/-- Reset meets the invariant, whatever inputs are still to come. -/
theorem resetEvent_inv (s : State) : (resetEvent s).Inv where
  fifos := fun f => by cases f <;> exact reset_ok _
  registers := ⟨rfl, rfl, rfl, rfl, rfl⟩
  engineAccepted := nofun
  leAccepted := nofun
  idleEvs := fun _ => rfl
  at42 := nofun
  handler := by simp [resetEvent, State.reset]

/-- Settles O48: a step is reset, which meets the invariant, or a chain of updates, each of which keeps it. -/
theorem everyStepKeepsTheInvariant : Obligations.EveryStepKeepsTheInvariant := by
  intro s t h hst
  by_cases hm : s.mover = .reset
  · obtain ⟨u, hu, rfl⟩ := step_next hst
    rw [hm] at hu
    cases hu
    exact update_inv (resetEvent_inv s) (.advance _)
  · exact updates_inv h (step_updates hm hst)

/-- Settles O50: the clauses about the instances are `reset_ok`; every other one is a fixed value. -/
theorem resetMeetsBothInvariants : Obligations.ResetMeetsBothInvariants := by
  have hinv : State.reset.Inv := resetEvent_inv State.reset
  exact ⟨hinv,
    { inv := hinv
      inits := ⟨rfl, rfl, rfl⟩
      bootQuiet := fun _ => ⟨rfl, rfl, rfl⟩
      locals := trivial
      handlerRoom := nofun
      engineAt42 := nofun }⟩

/-! ## The traces (R41) -/

/-- Each trace after is the one before, with bytes appended or none. -/
def TracesGrow (s t : State) : Prop :=
  s.usbInLog <+: t.usbInLog ∧ s.usbOutLog <+: t.usbOutLog ∧ s.wireInLog <+: t.wireInLog ∧ s.wireOutLog <+: t.wireOutLog

theorem SameTraces.grow {s t : State} (h : SameTraces s t) : TracesGrow s t := by
  obtain ⟨h1, h2, h3, h4⟩ := h
  simp only [TracesGrow, h1, h2, h3, h4, List.prefix_rfl, and_self]

theorem TracesGrow.trans {s t u : State} (h : TracesGrow s t) (h' : TracesGrow t u) : TracesGrow s u := by
  obtain ⟨h1, h2, h3, h4⟩ := h
  obtain ⟨k1, k2, k3, k4⟩ := h'
  exact ⟨h1.trans k1, h2.trans k2, h3.trans k3, h4.trans k4⟩

theorem prefix_appendIf (seen : Bool) (log : List Byte) (b : Byte) : log <+: appendIf seen log b := by
  unfold appendIf
  split
  · exact List.prefix_append _ _
  · exact List.prefix_rfl

theorem setFifo_sameTraces (s : State) (f : Inst) (q : Fifo f) : SameTraces s (s.setFifo f q) := by
  simp [SameTraces]

theorem engineAct_tracesGrow (s : State) : TracesGrow s (engineAct s) := by
  unfold engineAct
  split
  next p r he =>
    cases p with
    | p1 | p3 | p4 | p5 => exact SameTraces.grow ⟨rfl, rfl, rfl, rfl⟩
    | p2 =>
      obtain ⟨log, hlog, hpre⟩ := cutOff_eq (disableUart s)
      simp only [phaseAct, hlog]
      exact ⟨List.prefix_rfl, List.prefix_rfl, List.prefix_rfl, hpre⟩
    | p6 => exact SameTraces.grow (startNext_traces s.evs _)
  next => exact SameTraces.grow (startNext_traces s.evs s)

theorem handOver_sameTraces (s : State) (reqs : List LineReq) : SameTraces s (handOver reqs (s.setPos .s42)) := by
  unfold handOver
  split
  · exact ⟨rfl, rfl, rfl, rfl⟩
  · exact startNext_traces reqs (s.setPos .s42)

theorem requestReconfig_sameTraces (s : State) (r : LineReq) : SameTraces s (requestReconfig r s) := by
  unfold requestReconfig
  split
  · exact ⟨rfl, rfl, rfl, rfl⟩
  · split <;> exact ⟨rfl, rfl, rfl, rfl⟩

theorem wireArrive_tracesGrow (b : Byte) (s : State) : TracesGrow s (wireArrive b s) := by
  unfold wireArrive
  split
  · exact SameTraces.grow ⟨rfl, rfl, rfl, rfl⟩
  · split
    · exact SameTraces.grow ⟨rfl, rfl, rfl, rfl⟩
    · exact ⟨List.prefix_rfl, List.prefix_rfl, List.prefix_append _ _, List.prefix_rfl⟩

theorem wireFinish_tracesGrow (s : State) : TracesGrow s (wireFinish s) := by
  unfold wireFinish
  split
  · exact SameTraces.grow ⟨rfl, rfl, rfl, rfl⟩
  · exact ⟨List.prefix_rfl, List.prefix_rfl, List.prefix_rfl, prefix_appendIf _ _ _⟩

/-- Every elementary update only appends to the traces. -/
theorem update_tracesGrow {s t : State} (hu : Update s t) : TracesGrow s t := by
  cases hu with
  | init | push | pop | flush => exact (setFifo_sameTraces s _ _).grow
  | respond | setPos | send | rxRead | takeInterrupt | gotFull | returnFromInterrupt | advance =>
    exact SameTraces.grow ⟨rfl, rfl, rfl, rfl⟩
  | usbIn b => exact ⟨List.prefix_append _ _, List.prefix_rfl, List.prefix_rfl, List.prefix_rfl⟩
  | usbOut seen b => exact ⟨List.prefix_rfl, prefix_appendIf seen _ b, List.prefix_rfl, List.prefix_rfl⟩
  | wireArrive b => exact wireArrive_tracesGrow b s
  | wireFinish => exact wireFinish_tracesGrow s
  | engine => exact engineAct_tracesGrow s
  | handOver reqs => exact (handOver_sameTraces s reqs).grow
  | reconfig r => exact (requestReconfig_sameTraces s r).grow

theorem updates_tracesGrow {s t : State} (hu : Updates s t) : TracesGrow s t := by
  induction hu with
  | refl => exact SameTraces.grow ⟨rfl, rfl, rfl, rfl⟩
  | tail _ hlast ih => exact ih.trans (update_tracesGrow hlast)

/-- Settles O55: a step is a chain of updates, each of which only appends to the traces. -/
theorem tracesOnlyGrow : Obligations.TracesOnlyGrow :=
  fun _ _ hst hm => updates_tracesGrow (step_updates hm hst)

/-! ## The two sides of `U2H` (R22, R56, R57) -/

theorem u2h_ne_h2u : Config.u2h ≠ Config.h2u := nofun

theorem opInsert_fifo_other {f g : Inst} {b : Byte} {s t : State} (h : opInsert f b s = .ok t) (hg : g ≠ f) :
    t.fifo g = s.fifo g := by
  obtain ⟨-, -, ⟨-, rfl⟩ | ⟨-, rfl⟩⟩ := opInsert_ok h
  · rfl
  · exact setFifo_fifo_other s f g _ hg

theorem opRemove_fifo_other {f g : Inst} {b : Byte} {s t : State} (h : opRemove f s = .ok (b, t)) (hg : g ≠ f) :
    t.fifo g = s.fifo g := by
  obtain ⟨-, -, -, -, rfl⟩ := opRemove_ok h
  exact setFifo_fifo_other s f g _ hg

/-- A sequencer step leaves `U2H` alone or removes a byte from it. -/
theorem exec_decodeS_u2h {c : StepCode} {s t : State} (h : exec (decodeS c) s = .next t) :
    t.fifo Config.u2h = s.fifo Config.u2h ∨
      (s.fifo Config.u2h).count.toNat ≠ 0 ∧ t.fifo Config.u2h = (s.fifo Config.u2h).popped := by
  rcases decodeS_cases c with hc | hc | hc | hc <;> rw [hc] at h
  · obtain ⟨u, p, rfl, -, hu⟩ := execBrUsbRx_cases h
    rw [setPos_fifo]
    obtain rfl | ⟨b, rfl⟩ | ⟨b, hu⟩ := hu
    · exact .inl rfl
    · exact .inl rfl
    · exact .inl (opInsert_fifo_other hu u2h_ne_h2u)
  · obtain ⟨u, p, rfl, -, hu⟩ := execBrUsbTx_cases h
    rw [setPos_fifo]
    obtain rfl | ⟨seen, b, rfl⟩ | ⟨b, hu⟩ := hu
    · exact .inl rfl
    · exact .inl rfl
    · obtain ⟨-, -, hne, -, rfl⟩ := opRemove_ok hu
      exact .inr ⟨hne, setFifo_fifo_same s _ _⟩
  · obtain ⟨u, p, rfl, -, hu⟩ := execBrUartTx_cases h
    rw [setPos_fifo]
    obtain rfl | ⟨b, hu⟩ | ⟨b, hu⟩ := hu
    · exact .inl rfl
    · exact .inl (opRemove_fifo_other hu u2h_ne_h2u)
    · obtain ⟨-, rfl⟩ := opSend_ok hu
      exact .inl rfl
  · obtain rfl | rfl := execBrService_cases h
    · exact .inl (handOver_fifo _ _ _)
    · exact .inl (engineAct_fifo s _)

/-- Boot leaves an initialised FIFO alone (R82). -/
theorem bootAct_fifo {s t : State} {g : Inst} (hi : (s.fifo g).inited = true) (h : bootAct s = .next t) :
    t.fifo g = s.fifo g := by
  obtain ⟨u, p, rfl, -, hu⟩ := bootAct_cases h
  rw [setPos_fifo]
  obtain rfl | ⟨f, hu⟩ := hu
  · rfl
  · obtain ⟨hnot, -, rfl⟩ := opInit_ok hu
    refine setFifo_fifo_other s f g _ ?_
    rintro rfl
    simp [hi] at hnot

/-- MAIN leaves an initialised `U2H` alone or removes a byte from it. -/
theorem mainAct_u2h {s t : State} (hi : (s.fifo Config.u2h).inited = true) (h : mainAct s = .next t) :
    t.fifo Config.u2h = s.fifo Config.u2h ∨
      (s.fifo Config.u2h).count.toNat ≠ 0 ∧ t.fifo Config.u2h = (s.fifo Config.u2h).popped := by
  obtain ⟨-, rfl⟩ | ⟨-, -, rfl⟩ | ⟨-, -, ⟨-, hb⟩ | ⟨c, -, hc⟩⟩ := mainAct_cases h
  · exact .inl rfl
  · exact .inl (engineAct_fifo s _)
  · exact .inl (bootAct_fifo hi hb)
  · exact exec_decodeS_u2h hc

/-- The handler leaves `U2H` alone or inserts a byte into it. -/
theorem isrAct_u2h {s t : State} (h : isrAct s = .next t) :
    t.fifo Config.u2h = s.fifo Config.u2h ∨
      (s.fifo Config.u2h).count.toNat ≠ Config.cap Config.u2h ∧
        ∃ b, t.fifo Config.u2h = (s.fifo Config.u2h).pushed b := by
  obtain ⟨-, rfl⟩ | ⟨-, -, -, rfl⟩ | ⟨b, -, rfl⟩ | ⟨-, -, rfl⟩ | ⟨b, u, -, hu, rfl⟩ := isrAct_cases h
  · exact .inl rfl
  · exact .inl (takeInterrupt_fifo s _)
  · exact .inl rfl
  · exact .inl (returnFromInterrupt_fifo s _)
  · rw [returnFromInterrupt_fifo]
    obtain ⟨-, -, ⟨-, rfl⟩ | ⟨hne, rfl⟩⟩ := opInsert_ok hu
    · exact .inl rfl
    · exact .inr ⟨hne, b, setFifo_fifo_same s _ _⟩

/-- Settles O56: by the agent that moves, MAIN taking one from the count at most and the handler adding one at most. -/
theorem eachSideMovesTheCountOneWay : Obligations.EachSideMovesTheCountOneWay := by
  intro s t a hi hcap hm hst
  obtain ⟨u, hu, rfl⟩ := step_next hst
  rw [hm] at hu
  rw [advance_fifo]
  cases a with
  | main =>
    refine ⟨fun _ => ?_, fun hne => absurd rfl hne⟩
    obtain heq | ⟨hne, heq⟩ := mainAct_u2h hi hu <;> rw [heq]
    rw [popped_count, count_pred_toNat _ hne]
    omega
  | isr =>
    refine ⟨fun hne => absurd rfl hne, fun _ => ?_⟩
    obtain heq | ⟨hne, b, heq⟩ := isrAct_u2h hu <;> rw [heq]
    rw [pushed_count, count_succ_toNat _ (Nat.lt_of_le_of_ne hcap hne)]
    omega
  | wireRx => cases hu; rw [wireArrive_fifo]; exact ⟨fun _ => le_rfl, fun _ => le_rfl⟩
  | wireTx => cases hu; rw [wireFinish_fifo]; exact ⟨fun _ => le_rfl, fun _ => le_rfl⟩

/-! ## Single instructions -/

/-- Settles O7: the operation of each instruction, by what it has done when it answers. -/
theorem fullAcceptsNothingEmptyYieldsNothing : Obligations.FullAcceptsNothingEmptyYieldsNothing := by
  intro f b s t
  refine ⟨fun hfull h => ?_, fun hempty h => ?_⟩
  · obtain ⟨u, hu, ⟨⟩⟩ := settle_next ((onInstance_selectOf f _ _).symm.trans h)
    obtain ⟨-, -, ⟨-, rfl⟩ | ⟨hne, -⟩⟩ := opInsert_ok hu
    · rfl
    · exact absurd hfull hne
  · obtain ⟨r, hr, -⟩ := settle_next ((onInstance_selectOf f _ _).symm.trans h)
    obtain ⟨-, -, hne, -⟩ := opRemove_ok hr
    exact hne hempty

/-- A count has one bit more than a cursor (R14). -/
theorem cw_eq (f : Inst) : Config.cw f = Config.aw f + 1 := by cases f <;> rfl

/-- Settles O18: the capacity is `2 ^ AW`, so both widths are least by the monotonicity of the powers of two. -/
theorem cursorsCannotLeaveTheArray : Obligations.CursorsCannotLeaveTheArray := by
  intro f
  refine ⟨⟨(cap_eq f).le, fun k hk => ?_⟩, ⟨cap_lt f, fun k hk => ?_⟩, fun s => ⟨cursor_lt _, cursor_lt _⟩,
    nextCursor_toNat⟩
  · rw [cap_eq] at hk
    exact (Nat.pow_le_pow_iff_right (by decide)).mp hk
  · rw [cap_eq, Nat.succ_le_iff] at hk
    rw [cw_eq, Nat.succ_le_iff]
    exact (Nat.pow_lt_pow_iff_right (by decide)).mp hk

/-- Settles O43: each sequencer step splits into its lines, which stand at positions of its own number, and the refusal. -/
theorem stepCodesRunOnlyInTheirStep : Obligations.StepCodesRunOnlyInTheirStep := by
  refine fun s => ⟨fun h => ?_, fun h => ?_, fun h => ?_, fun h => ?_⟩
  all_goals
    simp only [exec, execBrUsbRx, execBrUsbTx, execBrUartTx, execBrService]
    split <;> simp_all [Pos.stepNo]

end Sys2Proof.Machine
end

section
/-!
PROOFS. The family of 20_memory.md: which instructions write storage, and the fault of a cell that holds no value. First
what each shared operation does to the storage, then the two statements.
-/

namespace Sys2Proof.Machine

/-! ## What leaves the storage alone (R46) -/

theorem SameStorage.refl (s : State) : SameStorage s s := fun _ _ => rfl

theorem SameFifos.sameStorage {s t : State} (h : SameFifos s t) : SameStorage s t := fun g a => by rw [h g]

@[simp] theorem sameStorage_respond (s t : State) (r : Option Response) :
    SameStorage s (t.respond r) ↔ SameStorage s t := by
  simp only [SameStorage, respond_fifo]

@[simp] theorem sameStorage_setPos (s t : State) (p : Pos) : SameStorage s (t.setPos p) ↔ SameStorage s t := by
  simp only [SameStorage, setPos_fifo]

/-- Replacing an instance by one with the same array writes no cell. -/
theorem setFifo_sameStorage (s : State) (f : Inst) (q : Fifo f) (hq : q.mem = (s.fifo f).mem) :
    SameStorage s (s.setFifo f q) :=
  fun g a => setFifo_fifo_all s f q (fun g r => r.mem.read a = (s.fifo g).mem.read a) (by rw [hq]) (fun _ _ => rfl) g

theorem opInit_sameStorage {f : Inst} {s t : State} (h : opInit f s = .ok t) : SameStorage s t := by
  obtain ⟨-, -, rfl⟩ := opInit_ok h
  exact setFifo_sameStorage s f _ rfl

theorem opRemove_sameStorage {f : Inst} {b : Byte} {s t : State} (h : opRemove f s = .ok (b, t)) :
    SameStorage s t := by
  obtain ⟨-, -, -, -, rfl⟩ := opRemove_ok h
  exact setFifo_sameStorage s f _ (popped_mem _)

theorem opFlush_sameStorage {f : Inst} {s t : State} (h : opFlush f s = .ok t) : SameStorage s t := by
  obtain ⟨-, -, rfl⟩ := opFlush_ok h
  exact setFifo_sameStorage s f _ (flushed_mem _)

theorem opSend_sameStorage {b : Byte} {s t : State} (h : opSend b s = .ok t) : SameStorage s t := by
  obtain ⟨-, rfl⟩ := opSend_ok h
  exact SameFifos.sameStorage fun g => by cases g <;> rfl

theorem rxRead_sameStorage (s : State) : SameStorage s (rxRead s).2 :=
  SameFifos.sameStorage fun g => by cases g <;> rfl

theorem requestReconfig_sameStorage (s : State) (r : LineReq) : SameStorage s (requestReconfig r s) := by
  refine SameFifos.sameStorage fun g => ?_
  unfold requestReconfig
  split
  · cases g <;> rfl
  · split <;> cases g <;> rfl

/-! ## The sequencer's steps that issue no INSERT -/

theorem execBrUsbTx_sameStorage {s t : State} (h : execBrUsbTx s = .next t) : SameStorage s t := by
  obtain ⟨u, p, rfl, -, hu⟩ := execBrUsbTx_cases h
  rw [sameStorage_setPos]
  obtain rfl | ⟨seen, b, rfl⟩ | ⟨b, hu⟩ := hu
  · exact SameStorage.refl _
  · exact SameFifos.sameStorage fun g => by cases g <;> rfl
  · exact opRemove_sameStorage hu

theorem execBrUartTx_sameStorage {s t : State} (h : execBrUartTx s = .next t) : SameStorage s t := by
  obtain ⟨u, p, rfl, -, hu⟩ := execBrUartTx_cases h
  rw [sameStorage_setPos]
  obtain rfl | ⟨b, hu⟩ | ⟨b, hu⟩ := hu
  · exact SameStorage.refl _
  · exact opRemove_sameStorage hu
  · exact opSend_sameStorage hu

theorem execBrService_sameStorage {s t : State} (h : execBrService s = .next t) : SameStorage s t := by
  obtain rfl | rfl := execBrService_cases h
  · exact SameFifos.sameStorage fun g => by rw [handOver_fifo, setPos_fifo]
  · exact SameFifos.sameStorage (engineAct_fifo s)

/-- Settles O53: by the instruction; of the operations that replace an instance only INSERT replaces its array, and the
UART and the engine replace none. -/
theorem onlyInsertWritesStorage : Obligations.OnlyInsertWritesStorage := by
  intro i s t h hins hrx
  cases i with
  | insert ff b => exact absurd rfl (hins ff b)
  | brUsbRx => exact absurd rfl hrx
  | init ff =>
    obtain ⟨f, u, hu, ⟨⟩⟩ := onInstance_settle_next h
    exact (sameStorage_respond s u _).mpr (opInit_sameStorage hu)
  | remove ff =>
    obtain ⟨f, ⟨b, u⟩, hu, ⟨⟩⟩ := onInstance_settle_next h
    exact (sameStorage_respond s u _).mpr (opRemove_sameStorage hu)
  | flush ff =>
    obtain ⟨f, u, hu, ⟨⟩⟩ := onInstance_settle_next h
    exact (sameStorage_respond s u _).mpr (opFlush_sameStorage hu)
  | peek ff | isFull ff | isEmpty ff | count ff =>
    obtain ⟨f, a, -, ⟨⟩⟩ := onInstance_settle_next h
    exact (sameStorage_respond s s _).mpr (SameStorage.refl s)
  | reconfig r =>
    cases h
    exact (sameStorage_respond s _ _).mpr (requestReconfig_sameStorage s r)
  | uartSendReady =>
    cases h
    exact (sameStorage_respond s s _).mpr (SameStorage.refl s)
  | uartSend b =>
    obtain ⟨u, hu, ⟨⟩⟩ := settle_next h
    exact (sameStorage_respond s u _).mpr (opSend_sameStorage hu)
  | uartRxRead =>
    cases h
    exact (sameStorage_respond s _ _).mpr (rxRead_sameStorage s)
  | brUsbTx => exact execBrUsbTx_sameStorage h
  | brUartTx => exact execBrUartTx_sameStorage h
  | brService => exact execBrService_sameStorage h

/-! ## A cell that holds no value (R48) -/

/-- The head of a non-empty instance faults where the cell at the read cursor holds no value. -/
theorem headByte_unwritten (op : FifoOp) {f : Inst} {s : State} (hc : (s.fifo f).count.toNat ≠ 0)
    (hv : (s.fifo f).mem.read (s.fifo f).rd.toNat = none) :
    headByte op f s = .error (.unwrittenCell f (s.fifo f).rd.toNat) := by
  rw [headByte, if_neg (by simpa using hc), memRead, hv]

/-- Settles O17: both operations pass their checks and read the head, which faults. -/
theorem valuelessCellFaults : Obligations.ValuelessCellFaults := by
  intro f s hi hcons hc hv
  have hown : (consumer f == some s.ctx) = true := beq_iff_eq.mpr hcons
  have hremove : opRemove f s = .error (.unwrittenCell f (s.fifo f).rd.toNat) := by
    rw [opRemove, guarded_pass .remove f s _ hi hown, headByte_unwritten _ hc hv]
  have hpeek : opPeek f s = .error (.unwrittenCell f (s.fifo f).rd.toNat) := by
    rw [opPeek, guarded_pass .peek f s _ hi hown, headByte_unwritten _ hc hv]
  simp only [exec, execRemove, execPeek, onInstance_selectOf, hremove, hpeek, settle_error, and_self]

end Sys2Proof.Machine
end

section
/-!
PROOFS. The family of 30_encoding.md. First what the decoder can do with a word, said once per format: which checks a
word passes, and the three ways a word of format F or U is read. Both halves then follow: a word read as an instruction
is that instruction's encoding, and the words that are not read are those the checks refuse.
-/

namespace Sys2Proof

/-! ## The words that pass an operation's checks (R75) -/

theorem plainF_eq_ok_iff {w : Word16} {mk : BitVec 2 → Instr} {i : Instr} :
    plainF w mk = .ok i ↔ (ffField w ≠ 3#2 ∧ reservedF w = 0#2 ∧ dField w = 0#8) ∧ mk (ffField w) = i := by
  unfold plainF
  split_ifs <;> simp_all

theorem byteF_eq_ok_iff {w : Word16} {mk : BitVec 2 → Byte → Instr} {i : Instr} :
    byteF w mk = .ok i ↔ (ffField w ≠ 3#2 ∧ reservedF w = 0#2) ∧ mk (ffField w) (dField w) = i := by
  unfold byteF
  split_ifs <;> simp_all

theorem plainU_eq_ok_iff {w : Word16} {i j : Instr} :
    plainU w i = .ok j ↔ (reservedU w = 0#4 ∧ dField w = 0#8) ∧ i = j := by
  unfold plainU
  split_ifs <;> simp_all

theorem byteU_eq_ok_iff {w : Word16} {mk : Byte → Instr} {i : Instr} :
    byteU w mk = .ok i ↔ reservedU w = 0#4 ∧ mk (dField w) = i := by
  unfold byteU
  split_ifs <;> simp_all

theorem decodeL_eq_ok_iff {w : Word48} {i : Instr} :
    decodeL w = .ok i ↔
      (w.extractLsb' 44 4 = 0b1001#4 ∧ w.extractLsb' 40 1 = 0#1 ∧ w.extractLsb' 32 4 = 0#4) ∧
        Instr.reconfig (reqOfWord w) = i := by
  unfold decodeL
  split_ifs <;> simp_all

/-- A reading that gives `i` exactly when the checks `P` pass is refused exactly when they do not. -/
theorem exists_error_iff {x : Except Reject Instr} {P : Prop} {i : Instr} (h : ∀ j, x = .ok j ↔ P ∧ i = j) :
    (∃ e, x = .error e) ↔ ¬ P := by
  cases x with
  | error e => simpa using h i
  | ok j => simpa using ((h j).mp rfl).1

/-! ## The three ways a word of format F or U is read (R70) -/

/-- `mk` builds the operation without a byte operand whose op in format F is `op` (R66, R71). -/
def IsPlainF (op : BitVec 4) (mk : BitVec 2 → Instr) : Prop :=
  ∀ ff, (mk ff).WellFormed = wellFormedSelect ff ∧ encode (mk ff) = .fifoPort (wordF op ff 0#8)

/-- A word at a FIFO port is checked as INSERT, or as one of the seven operations without a byte operand, or has the op
of none. -/
theorem decodeF_cases (w : Word16) :
    (opField w = 2#4 ∧ decodeF w = byteF w .insert) ∨
    ((0 < (opField w).toNat ∧ (opField w).toNat ≤ 8 ∧ (opField w).toNat ≠ 2) ∧
      ∃ mk, IsPlainF (opField w) mk ∧ decodeF w = plainF w mk) ∨
    (((opField w).toNat = 0 ∨ 8 < (opField w).toNat) ∧ decodeF w = .error .unknownOp) := by
  unfold decodeF
  split
  case h_2 hop => exact .inl ⟨hop, rfl⟩
  case h_9 =>
    refine .inr (.inr ⟨?_, rfl⟩)
    simp only [imp_false] at *
    bv_omega
  all_goals
    rename_i hop
    rw [hop]
    exact .inr (.inl ⟨by decide, _, fun _ => ⟨rfl, rfl⟩, rfl⟩)

/-- A word at the UART shim is checked as UART_SEND, or as one of the two operations without a byte operand, or has the
op of none. -/
theorem decodeU_cases (w : Word16) :
    (opField w = 11#4 ∧ decodeU w = byteU w .uartSend) ∨
    (((opField w).toNat = 10 ∨ (opField w).toNat = 12) ∧
      ∃ i, i.WellFormed = true ∧ encode i = .uartShim (wordU (opField w) 0#8) ∧ decodeU w = plainU w i) ∨
    (((opField w).toNat < 10 ∨ 12 < (opField w).toNat) ∧ decodeU w = .error .unknownOp) := by
  unfold decodeU
  split
  case h_2 hop => exact .inl ⟨hop, rfl⟩
  case h_4 =>
    refine .inr (.inr ⟨?_, rfl⟩)
    simp only [imp_false] at *
    bv_omega
  all_goals
    rename_i hop
    rw [hop]
    exact .inr (.inl ⟨by decide, _, rfl, rfl, rfl⟩)

/-! ## A word read as an instruction is its encoding (R65 to R75) -/

theorem wellFormedSelect_iff {ff : BitVec 2} : wellFormedSelect ff = true ↔ ff ≠ 3#2 := bne_iff_ne

theorem encode_of_decodeF {w : Word16} {i : Instr} (h : decodeF w = .ok i) :
    i.WellFormed = true ∧ encode i = .fifoPort w := by
  rcases decodeF_cases w with ⟨hop, hw⟩ | ⟨-, mk, hmk, hw⟩ | ⟨-, hw⟩ <;> rw [hw] at h
  · obtain ⟨⟨hff, hres⟩, rfl⟩ := byteF_eq_ok_iff.mp h
    refine ⟨wellFormedSelect_iff.mpr hff, ?_⟩
    rw [encode, ← hop, wordF_of_fields w hres]
  · obtain ⟨⟨hff, hres, hd⟩, rfl⟩ := plainF_eq_ok_iff.mp h
    obtain ⟨hwf, henc⟩ := hmk (ffField w)
    refine ⟨hwf.trans (wellFormedSelect_iff.mpr hff), ?_⟩
    rw [henc, ← hd, wordF_of_fields w hres]
  · cases h

theorem encode_of_decodeU {w : Word16} {i : Instr} (h : decodeU w = .ok i) :
    i.WellFormed = true ∧ encode i = .uartShim w := by
  rcases decodeU_cases w with ⟨hop, hw⟩ | ⟨-, j, hwf, henc, hw⟩ | ⟨-, hw⟩ <;> rw [hw] at h
  · obtain ⟨hres, rfl⟩ := byteU_eq_ok_iff.mp h
    refine ⟨rfl, ?_⟩
    rw [encode, ← hop, wordU_of_fields w hres]
  · obtain ⟨⟨hres, hd⟩, rfl⟩ := plainU_eq_ok_iff.mp h
    refine ⟨hwf, ?_⟩
    rw [henc, ← hd, wordU_of_fields w hres]
  · cases h

theorem encode_of_decodeL {w : Word48} {i : Instr} (h : decodeL w = .ok i) :
    i.WellFormed = true ∧ encode i = .engine w := by
  obtain ⟨⟨hop, h40, h32⟩, rfl⟩ := decodeL_eq_ok_iff.mp h
  refine ⟨rfl, ?_⟩
  rw [encode, wordL_of_fields w hop h40 h32]

theorem encode_decodeS (c : StepCode) : (decodeS c).WellFormed = true ∧ encode (decodeS c) = .stepCode c := by
  revert c; decide

/-- Every legal word is the encoding of the instruction it is read as: no bit of it is dropped. -/
theorem encode_of_decode {p : Presented} {i : Instr} (h : decode p = .ok i) : i.WellFormed = true ∧ encode i = p := by
  cases p with
  | fifoPort w => exact encode_of_decodeF h
  | uartShim w => exact encode_of_decodeU h
  | engine w => exact encode_of_decodeL h
  | stepCode c =>
    obtain rfl : decodeS c = i := Except.ok.inj h
    exact encode_decodeS c

/-- Every well-formed instruction comes back from its encoding: the family `RoundTrip`, put together. -/
theorem decode_encode {i : Instr} (h : i.WellFormed = true) : decode (encode i) = .ok i := by
  cases i with
  | init ff => exact Laws.RoundTrip.init ff h
  | insert ff b => exact Laws.RoundTrip.insert ff b h
  | remove ff => exact Laws.RoundTrip.remove ff h
  | peek ff => exact Laws.RoundTrip.peek ff h
  | isFull ff => exact Laws.RoundTrip.isFull ff h
  | isEmpty ff => exact Laws.RoundTrip.isEmpty ff h
  | count ff => exact Laws.RoundTrip.count ff h
  | flush ff => exact Laws.RoundTrip.flush ff h
  | reconfig req => exact Laws.RoundTrip.reconfig req h
  | uartSendReady => exact Laws.RoundTrip.uartSendReady h
  | uartSend b => exact Laws.RoundTrip.uartSend b h
  | uartRxRead => exact Laws.RoundTrip.uartRxRead h
  | brUsbRx => exact Laws.RoundTrip.brUsbRx h
  | brUsbTx => exact Laws.RoundTrip.brUsbTx h
  | brUartTx => exact Laws.RoundTrip.brUartTx h
  | brService => exact Laws.RoundTrip.brService h

/-- Settles O57: a word read as an instruction is its encoding, by the place; and an encoding is read back, by the
instruction. -/
theorem decodeAgreesWithEncode : Obligations.DecodeAgreesWithEncode := by
  refine fun p i => ⟨encode_of_decode, ?_⟩
  rintro ⟨hwf, rfl⟩
  exact decode_encode hwf

/-! ## The fields as numbers (R66 to R68) -/

/-- The field of `n` bits from bit `k` up, as a number. -/
theorem toNat_field {m : Nat} (w : BitVec m) (k n : Nat) : (w.extractLsb' k n).toNat = w.toNat / 2 ^ k % 2 ^ n := by
  rw [BitVec.extractLsb'_toNat, Nat.shiftRight_eq_div_pow]

/-- A field holds a value exactly when its number is that value's. -/
theorem field_eq_iff {m : Nat} (w : BitVec m) (k : Nat) {n : Nat} (v : BitVec n) :
    w.extractLsb' k n = v ↔ w.toNat / 2 ^ k % 2 ^ n = v.toNat := by
  rw [← BitVec.toNat_inj, toNat_field]

theorem toNat_opField (w : Word16) : (opField w).toNat = w.toNat / 4096 := by
  have hw := w.isLt
  rw [opField, toNat_field]
  omega

theorem ffField_eq_three_iff (w : Word16) : ffField w = 3#2 ↔ w.toNat / 1024 % 4 = 3 := field_eq_iff w 10 3#2

theorem reservedF_eq_zero_iff (w : Word16) : reservedF w = 0#2 ↔ w.toNat / 256 % 4 = 0 := field_eq_iff w 8 0#2

theorem reservedU_eq_zero_iff (w : Word16) : reservedU w = 0#4 ↔ w.toNat / 256 % 16 = 0 := field_eq_iff w 8 0#4

theorem dField_eq_zero_iff (w : Word16) : dField w = 0#8 ↔ w.toNat % 256 = 0 := by
  simpa [dField] using field_eq_iff w 0 0#8

theorem opL_eq_nine_iff (w : Word48) : w.extractLsb' 44 4 = 0b1001#4 ↔ w.toNat / 2 ^ 44 = 9 := by
  have hw := w.isLt
  rw [field_eq_iff, Nat.mod_eq_of_lt (by omega)]
  rfl

/-! ## The illegal words of each format (R71, R75) -/

theorem decodeF_illegal_iff (w : Word16) :
    (∃ e, decodeF w = .error e) ↔
      (w.toNat / 4096 = 0 ∨ 8 < w.toNat / 4096) ∨ w.toNat / 1024 % 4 = 3 ∨ w.toNat / 256 % 4 ≠ 0 ∨
        (w.toNat / 4096 ≠ 2 ∧ w.toNat % 256 ≠ 0) := by
  rcases decodeF_cases w with ⟨hop, hw⟩ | ⟨hop, mk, -, hw⟩ | ⟨hop, hw⟩ <;> rw [hw]
  · have hop2 : w.toNat / 4096 = 2 := by rw [← toNat_opField, hop]; rfl
    rw [exists_error_iff fun _ => byteF_eq_ok_iff, ne_eq, ffField_eq_three_iff, reservedF_eq_zero_iff]
    omega
  · rw [toNat_opField] at hop
    rw [exists_error_iff fun _ => plainF_eq_ok_iff, ne_eq, ffField_eq_three_iff, reservedF_eq_zero_iff,
      dField_eq_zero_iff]
    omega
  · rw [toNat_opField] at hop
    exact iff_of_true ⟨_, rfl⟩ (.inl hop)

theorem decodeU_illegal_iff (w : Word16) :
    (∃ e, decodeU w = .error e) ↔
      (w.toNat / 4096 < 10 ∨ 12 < w.toNat / 4096) ∨ w.toNat / 256 % 16 ≠ 0 ∨
        (w.toNat / 4096 ≠ 11 ∧ w.toNat % 256 ≠ 0) := by
  rcases decodeU_cases w with ⟨hop, hw⟩ | ⟨hop, i, -, -, hw⟩ | ⟨hop, hw⟩ <;> rw [hw]
  · have hop11 : w.toNat / 4096 = 11 := by rw [← toNat_opField, hop]; rfl
    rw [exists_error_iff fun _ => byteU_eq_ok_iff, reservedU_eq_zero_iff]
    omega
  · rw [toNat_opField] at hop
    rw [exists_error_iff fun _ => plainU_eq_ok_iff, reservedU_eq_zero_iff, dField_eq_zero_iff]
    omega
  · rw [toNat_opField] at hop
    exact iff_of_true ⟨_, rfl⟩ (.inl hop)

theorem decodeL_illegal_iff (w : Word48) :
    (∃ e, decodeL w = .error e) ↔
      w.toNat / 2 ^ 44 ≠ 9 ∨ w.toNat / 2 ^ 40 % 2 ≠ 0 ∨ w.toNat / 2 ^ 32 % 16 ≠ 0 := by
  have h40 : w.extractLsb' 40 1 = 0#1 ↔ w.toNat / 2 ^ 40 % 2 = 0 := field_eq_iff w 40 0#1
  have h32 : w.extractLsb' 32 4 = 0#4 ↔ w.toNat / 2 ^ 32 % 16 = 0 := field_eq_iff w 32 0#4
  rw [exists_error_iff fun _ => decodeL_eq_ok_iff, opL_eq_nine_iff, h40, h32, not_and_or, not_and_or]

/-! ## The fault of an illegal word (R75, R147) -/

namespace Machine

theorem runPresented_error {p : Presented} {e : Reject} (h : decode p = .error e) (s : State) :
    runPresented p s = .fault (.illegalCmd p.format p.bits) := by
  simp only [runPresented, h]

theorem step_of_illegal_command {s : State} {c : Command} {e : Reject} (hm : s.mover = .command c)
    (hd : decode c.presented = .error e) : step s = .fault (.illegalCmd c.presented.format c.presented.bits) := by
  rw [step_of_command hm, runPresented_error hd, advanced]

/-- A select that names no instance makes the word illegal before the operation is looked at (R71). -/
theorem onInstance_of_not_wellFormed {ff : BitVec 2} (h : wellFormedSelect ff = false) (i : Instr) (k : Inst → Out) :
    onInstance ff i k = .fault (.illegalCmd .F (encode i).bits) := by
  obtain rfl : ff = 3#2 := by simpa [wellFormedSelect] using h
  rw [onInstance, instOfSelect_three]

/-- An instruction the decoder cannot give faults with its word: only those of format F can be ill-formed, and each of
their meanings first looks up the instance (log 30). -/
theorem exec_of_not_wellFormed {i : Instr} (h : i.WellFormed = false) (s : State) :
    exec i s = .fault (.illegalCmd .F (encode i).bits) := by
  cases i with
  | init ff | insert ff b | remove ff | peek ff | isFull ff | isEmpty ff | count ff | flush ff =>
    exact onInstance_of_not_wellFormed h _ _
  | reconfig | uartSendReady | uartSend | uartRxRead | brUsbRx | brUsbTx | brUartTx | brService => cases h

end Machine

/-- Settles O59: the illegal words of each format from its checks, a client's illegal word from its step, and select 3
because it makes the instruction ill-formed. -/
theorem illegalWordsFault : Obligations.IllegalWordsFault := by
  refine ⟨decodeF_illegal_iff, decodeU_illegal_iff, decodeL_illegal_iff,
    fun c e s => Machine.step_of_illegal_command, fun b s i hi => Machine.exec_of_not_wellFormed ?_ s⟩
  simp only [List.mem_cons, List.not_mem_nil, or_false] at hi
  rcases hi with rfl | rfl | rfl | rfl | rfl | rfl | rfl | rfl <;> rfl

/-! ## The worked encodings (R80) -/

/-- Settles O58: each word is the encoding of its operation, which is well formed (`decodeAgreesWithEncode`). -/
theorem workedEncodingsDecode : Obligations.WorkedEncodingsDecode := by
  unfold Obligations.WorkedEncodingsDecode
  simp only [decodeAgreesWithEncode _ _]
  decide

end Sys2Proof
end

section
/-!
PROOFS. The family of 40_fifo_ops.md. First each instruction of format F as its shared operation, and what it answers
when its checks pass; then the statements about one instruction, those about the content, and those about rows of
instructions.
-/

namespace Sys2Proof.Machine

/-! ## The operation of each instruction -/

theorem exec_init (f : Inst) (s : State) :
    exec (.init (selectOf f)) s = settle (opInit f s) fun t => .next (t.respond none) :=
  onInstance_selectOf f _ _

theorem exec_insert (f : Inst) (b : Byte) (s : State) :
    exec (.insert (selectOf f) b) s = settle (opInsert f b s) fun t => .next (t.respond none) :=
  onInstance_selectOf f _ _

theorem exec_remove (f : Inst) (s : State) :
    exec (.remove (selectOf f)) s =
      settle (opRemove f s) fun r => .next (r.2.respond (some (Response.byte r.1))) :=
  onInstance_selectOf f _ _

theorem exec_peek (f : Inst) (s : State) :
    exec (.peek (selectOf f)) s = settle (opPeek f s) fun b => .next (s.respond (some (Response.byte b))) :=
  onInstance_selectOf f _ _

theorem exec_isFull (f : Inst) (s : State) :
    exec (.isFull (selectOf f)) s = settle (opIsFull f s) fun b => .next (s.respond (some (Response.bit b))) :=
  onInstance_selectOf f _ _

theorem exec_isEmpty (f : Inst) (s : State) :
    exec (.isEmpty (selectOf f)) s = settle (opIsEmpty f s) fun b => .next (s.respond (some (Response.bit b))) :=
  onInstance_selectOf f _ _

theorem exec_count (f : Inst) (s : State) :
    exec (.count (selectOf f)) s = settle (opCount f s) fun n => .next (s.respond (some (Response.count f n))) :=
  onInstance_selectOf f _ _

theorem exec_flush (f : Inst) (s : State) :
    exec (.flush (selectOf f)) s = settle (opFlush f s) fun t => .next (t.respond none) :=
  onInstance_selectOf f _ _

/-! ## Whose the operations are (R160) -/

theorem mayIssue_insert_iff (f : Inst) (s : State) : s.mayIssue .insert f = true ↔ producer f = some s.ctx := beq_iff_eq

theorem mayIssue_remove_iff (f : Inst) (s : State) : s.mayIssue .remove f = true ↔ consumer f = some s.ctx := beq_iff_eq

theorem mayIssue_peek_iff (f : Inst) (s : State) : s.mayIssue .peek f = true ↔ consumer f = some s.ctx := beq_iff_eq

theorem mayIssue_flush_iff (f : Inst) (s : State) : s.mayIssue .flush f = true ↔ consumer f = some s.ctx := beq_iff_eq

/-- INIT is boot's, in MAIN and before the interrupt is enabled (log 7). -/
theorem mayIssue_init_iff (f : Inst) (s : State) :
    s.mayIssue .init f = true ↔ (s.ctx = .main ∧ s.booting = true) ∧ s.rxcie = false := by
  simp [State.mayIssue]

/-! ## What each instruction answers when its checks pass -/

section
variable {f : Inst} {s : State}

theorem exec_init_pass (hi : (s.fifo f).inited = false) (ho : s.mayIssue .init f = true) :
    exec (.init (selectOf f)) s =
      .next ((s.setFifo f { s.fifo f with count := 0, wr := 0, rd := 0, inited := true }).respond none) := by
  rw [exec_init, opInit_pass f s hi ho, settle_ok]

theorem exec_insert_accept (b : Byte) (hi : (s.fifo f).inited = true) (ho : producer f = some s.ctx)
    (hc : (s.fifo f).count.toNat ≠ Config.cap f) :
    exec (.insert (selectOf f) b) s = .next ((s.setFifo f ((s.fifo f).pushed b)).respond none) := by
  rw [exec_insert, opInsert_accept f b s hi ((mayIssue_insert_iff f s).mpr ho) hc, settle_ok]

theorem exec_insert_full (b : Byte) (hi : (s.fifo f).inited = true) (ho : producer f = some s.ctx)
    (hc : (s.fifo f).count.toNat = Config.cap f) : exec (.insert (selectOf f) b) s = .next (s.respond none) := by
  rw [exec_insert, opInsert_full f b s hi ((mayIssue_insert_iff f s).mpr ho) hc, settle_ok]

theorem exec_remove_pass {v : Byte} (hi : (s.fifo f).inited = true) (ho : consumer f = some s.ctx)
    (hc : (s.fifo f).count.toNat ≠ 0) (hv : (s.fifo f).mem.read (s.fifo f).rd.toNat = some v) :
    exec (.remove (selectOf f)) s =
      .next ((s.setFifo f (s.fifo f).popped).respond (some (Response.byte v))) := by
  rw [exec_remove, opRemove_pass f s v hi ((mayIssue_remove_iff f s).mpr ho) hc hv, settle_ok]

theorem exec_peek_pass {v : Byte} (hi : (s.fifo f).inited = true) (ho : consumer f = some s.ctx)
    (hc : (s.fifo f).count.toNat ≠ 0) (hv : (s.fifo f).mem.read (s.fifo f).rd.toNat = some v) :
    exec (.peek (selectOf f)) s = .next (s.respond (some (Response.byte v))) := by
  rw [exec_peek, opPeek_pass f s v hi ((mayIssue_peek_iff f s).mpr ho) hc hv, settle_ok]

theorem exec_isFull_pass (hi : (s.fifo f).inited = true) :
    exec (.isFull (selectOf f)) s = .next (s.respond (some (Response.bit (s.full f)))) := by
  rw [exec_isFull, opIsFull_pass f s hi, settle_ok]

theorem exec_isEmpty_pass (hi : (s.fifo f).inited = true) :
    exec (.isEmpty (selectOf f)) s = .next (s.respond (some (Response.bit (s.empty f)))) := by
  rw [exec_isEmpty, opIsEmpty_pass f s hi, settle_ok]

theorem exec_count_pass (hi : (s.fifo f).inited = true) :
    exec (.count (selectOf f)) s = .next (s.respond (some (Response.count f (s.fifo f).count))) := by
  rw [exec_count, opCount_pass f s hi, settle_ok]

theorem exec_flush_pass (hi : (s.fifo f).inited = true) (ho : consumer f = some s.ctx) :
    exec (.flush (selectOf f)) s = .next ((s.setFifo f (s.fifo f).flushed).respond none) := by
  rw [exec_flush, opFlush_pass f s hi ((mayIssue_flush_iff f s).mpr ho), settle_ok]

end

/-! ## What an operation on one instance leaves unchanged (R81) -/

/-- An operation that replaces one instance and drives a response changes nothing else. -/
theorem fifoFrame_setFifo_respond (f : Inst) (s : State) (q : Fifo f) (r : Option Response) :
    FifoFrame f s ((s.setFifo f q).respond r) := by
  refine ⟨fun g hg => ?_, ?_, ?_, ?_, ?_⟩
  · rw [respond_fifo, setFifo_fifo_other s f g q hg]
  · simp [SameUart, SameConfiguration, SameReceiver]
  · simp [SameControl, SameEngine, SameContext]
  · simp [SameTraces]
  · simp [SameEnvironment]

theorem fifoFrame_respond (f : Inst) (s : State) (r : Option Response) : FifoFrame f s (s.respond r) :=
  ⟨fun g _ => respond_fifo s r g, ⟨⟨rfl, rfl, rfl, rfl, rfl, rfl⟩, ⟨rfl, rfl, rfl⟩, rfl⟩,
    ⟨rfl, ⟨rfl, rfl⟩, rfl, rfl⟩, ⟨rfl, rfl, rfl, rfl⟩, rfl, rfl⟩

/-- Replacing one instance, with one that has the same array, writes no cell. -/
theorem sameStorage_setFifo_respond (f : Inst) (s : State) (q : Fifo f) (r : Option Response)
    (hq : q.mem = (s.fifo f).mem) : SameStorage s ((s.setFifo f q).respond r) :=
  (sameStorage_respond s _ r).mpr (setFifo_sameStorage s f q hq)

/-- INSERT writes the cell at the write cursor of its instance and no other. -/
theorem read_pushed_other (f g : Inst) (b : Byte) (s : State) (a : Nat)
    (h : ¬(g = f ∧ a = (s.fifo f).wr.toNat)) :
    ((s.setFifo f ((s.fifo f).pushed b)).fifo g).mem.read a = (s.fifo g).mem.read a := by
  by_cases hg : g = f
  · subst hg
    rw [setFifo_fifo_same, pushed_mem, read_write, if_neg fun ha => h ⟨rfl, ha⟩]
  · rw [setFifo_fifo_other s f g _ hg]

/-! ## The statements about one instruction -/

/-- Settles O4: the checks of INIT pass in boot (log 7), and the operation replaces its instance only. -/
theorem initEmptiesTheInstance : Obligations.InitEmptiesTheInstance := by
  intro f s hi hx hb hr
  exact ⟨_, exec_init_pass hi ((mayIssue_init_iff f s).mpr ⟨⟨hx, hb⟩, hr⟩), by simp, by simp, by simp, by simp, by simp,
    by simp [(cap_pos f).ne], sameStorage_setFifo_respond f s _ _ rfl, fifoFrame_setFifo_respond f s _ _, rfl⟩

/-- Adding one reaches the capacity from one below it only, although it may wrap to 0 (log 15). -/
theorem count_succ_eq_cap_iff {f : Inst} (n : Count f) : (n + 1).toNat = Config.cap f ↔ n.toNat + 1 = Config.cap f := by
  have hn := n.isLt
  have hcap := cap_lt f
  have hpos := cap_pos f
  rw [BitVec.toNat_add, count_one_toNat]
  rcases Nat.lt_or_ge (n.toNat + 1) (2 ^ Config.cw f) with hlt | hge
  · rw [Nat.mod_eq_of_lt hlt]
  · have hwrap : n.toNat + 1 = 2 ^ Config.cw f := by omega
    rw [hwrap, Nat.mod_self]
    omega

/-- Settles O5: the instance is replaced by the pushed one, whose array differs in the cell at `wr` only. -/
theorem insertStoresAtTheWriteCursor : Obligations.InsertStoresAtTheWriteCursor := by
  intro f b s hi ho hc
  refine ⟨_, exec_insert_accept b hi ho hc, by simp, by simp, by simp, fun hlt => ?_, by simp, by simp [hi], ?_,
    fun g a h => ?_, fifoFrame_setFifo_respond f s _ _, rfl⟩
  · rw [empty_false_iff, respond_fifo, setFifo_fifo_same, pushed_count, count_succ_toNat _ hlt]
    exact ⟨rfl, Nat.succ_ne_zero _⟩
  · rw [full_iff, respond_fifo, setFifo_fifo_same, pushed_count, count_succ_eq_cap_iff]
  · rw [respond_fifo, read_pushed_other f g b s a h]

/-- Settles O6: the full arm answers the same state. -/
theorem insertOnFullCompletesWithoutEffect : Obligations.InsertOnFullCompletesWithoutEffect :=
  fun _ b _ => exec_insert_full b

/-- Settles O8: the instance is replaced by the popped one, which has the same array. -/
theorem removeReturnsTheByteAtTheReadCursor : Obligations.RemoveReturnsTheByteAtTheReadCursor := by
  intro f v s hi ho hc hv
  have hpred := count_pred_toNat _ hc
  refine ⟨_, exec_remove_pass hi ho hc hv, rfl, by simp, by simp, ?_, by simp, by simp [hi], ?_, fun hle => ?_,
    sameStorage_setFifo_respond f s _ _ (popped_mem _), fifoFrame_setFifo_respond f s _ _⟩
  · rw [respond_fifo, setFifo_fifo_same, popped_count, hpred]
  · rw [empty_iff, respond_fifo, setFifo_fifo_same, popped_count, hpred]
    omega
  · rw [full_false_iff, respond_fifo, setFifo_fifo_same, popped_count, hpred]
    omega

/-- Settles O9: the checks pass and the operation reads the head. -/
theorem peekReturnsTheByteAndChangesNothing : Obligations.PeekReturnsTheByteAndChangesNothing :=
  fun _ _ _ => exec_peek_pass

theorem bit_full (s : State) (f : Inst) :
    Response.bit (s.full f) = ⟨1, if (s.fifo f).count.toNat = Config.cap f then 1 else 0⟩ := by
  simp only [Response.bit, full_iff]

theorem bit_empty (s : State) (f : Inst) :
    Response.bit (s.empty f) = ⟨1, if (s.fifo f).count.toNat = 0 then 1 else 0⟩ := by
  simp only [Response.bit, empty_iff]

/-- Settles O10: a query is given to every context, and its flag is the comparison of the count. -/
theorem queriesAnswerFromTheCount : Obligations.QueriesAnswerFromTheCount := by
  intro f s hi
  rw [exec_isFull_pass hi, exec_isEmpty_pass hi, exec_count_pass hi, bit_full, bit_empty]
  exact ⟨rfl, rfl, by cases f <;> rfl⟩

/-- Settles O12: the instance is replaced by the flushed one, which has the same array. -/
theorem flushDiscardsTheContent : Obligations.FlushDiscardsTheContent := by
  intro f s hi ho
  exact ⟨_, exec_flush_pass hi ho, by simp, by simp, by simp, by simp [hi], by simp, by simp [(cap_pos f).ne],
    sameStorage_setFifo_respond f s _ _ (flushed_mem _), fifoFrame_setFifo_respond f s _ _, rfl⟩

/-- The first check of every operation but INIT (R81; its place before OWNERSHIP is log 6). -/
theorem guarded_notInit {α : Type} (op : FifoOp) {f : Inst} {s : State} (hi : (s.fifo f).inited = false)
    (r : Except Fault α) : guarded op f s r = .error (.notInit f) :=
  if_pos hi

/-- Settles O13: each of the seven operations begins with the check of `inited`. -/
theorem uninitialisedInstanceFaults : Obligations.UninitialisedInstanceFaults := by
  intro f b s hi
  simp only [exec_insert, exec_remove, exec_peek, exec_isFull, exec_isEmpty, exec_count, exec_flush, opInsert, opRemove,
    opPeek, opIsFull, opIsEmpty, opCount, opFlush, guarded_notInit _ hi, settle_error, and_self]

theorem opInit_reinit {f : Inst} {s : State} (hi : (s.fifo f).inited = true) : opInit f s = .error (.reinit f) :=
  if_pos hi

theorem opInit_ownership {f : Inst} {s : State} (hi : (s.fifo f).inited = false) (ho : s.mayIssue .init f = false) :
    opInit f s = .error (.ownership f .init s.ctx) := by
  rw [opInit, if_neg (by simp [hi]), if_pos ho]

/-- Settles O14: the two checks of INIT; each way of being out of place denies what `mayIssue_init_iff` asks. -/
theorem initOutOfPlaceFaults : Obligations.InitOutOfPlaceFaults := by
  refine fun f s => ⟨fun hi => ?_, fun hi hplace => ?_⟩
  · rw [exec_init, opInit_reinit hi, settle_error]
  · have ho : s.mayIssue .init f = false := by
      rw [← Bool.not_eq_true, mayIssue_init_iff]
      rintro ⟨⟨hx, hb⟩, hr⟩
      rcases hplace with h | h | h
      · simp [hx] at h
      · simp [hb] at h
      · simp [hr] at h
    rw [exec_init, opInit_ownership hi ho, settle_error]

/-! ## The content (R90, R91) -/

/-- A truth value is answered as 1 exactly when it is true (R74). -/
theorem bit_eq_one_iff (b : Bool) : some (Response.bit b) = some ⟨1, 1⟩ ↔ b = true := by
  cases b <;> decide

/-- Settles O11: the flags compare the count, which is the length of the content. -/
theorem flagsSpeakOfTheContent : Obligations.FlagsSpeakOfTheContent := by
  intro f s hok hi
  refine ⟨⟨_, exec_isFull_pass hi, ?_, ?_⟩, ⟨_, exec_isEmpty_pass hi, ?_, ?_⟩⟩
  · rw [respond_resp, bit_eq_one_iff, full_iff]
  · rw [respond_resp, bit_eq_one_iff, full_iff, content_length hok hi]
  · rw [respond_resp, bit_eq_one_iff, empty_iff]
  · rw [respond_resp, bit_eq_one_iff, empty_iff, ← List.length_eq_zero_iff, content_length hok hi]

/-- A query that answers changes nothing but the response. -/
theorem exec_query_next {f : Inst} {s t : State}
    (h : exec (.isFull (selectOf f)) s = .next t ∨ exec (.isEmpty (selectOf f)) s = .next t ∨
      exec (.count (selectOf f)) s = .next t) : ∃ r, t = s.respond r := by
  rw [exec_isFull, exec_isEmpty, exec_count] at h
  rcases h with h | h | h
  all_goals
    obtain ⟨a, -, ⟨⟩⟩ := settle_next h
    exact ⟨_, rfl⟩

/-- Settles O19: what each operation has done when it answers, and what that does to the content. -/
theorem contentIsAQueue : Obligations.ContentIsAQueue := by
  intro f b s t hok hi
  rw [exec_insert, exec_remove, exec_peek, exec_flush, content_length hok hi]
  refine ⟨fun h => ?_, fun h => ?_, fun h => ?_, fun h => ?_, fun h => ?_⟩
  · obtain ⟨u, hu, ⟨⟩⟩ := settle_next h
    obtain ⟨-, -, ⟨hc, rfl⟩ | ⟨hc, rfl⟩⟩ := opInsert_ok hu
    · rw [respond_content, if_pos hc]
    · rw [respond_content, if_neg hc, content_pushed b hok hi hc]
  · obtain ⟨⟨v, u⟩, hu, ⟨⟩⟩ := settle_next h
    obtain ⟨-, -, hc, hv, rfl⟩ := opRemove_ok hu
    exact ⟨v, by rw [respond_content, ← content_popped hc hv], rfl⟩
  · obtain ⟨v, hv, ⟨⟩⟩ := settle_next h
    obtain ⟨-, -, hc, hv⟩ := opPeek_ok hv
    exact ⟨respond_content s _ f, v, head_content hc hv, rfl⟩
  · obtain ⟨u, hu, ⟨⟩⟩ := settle_next h
    obtain ⟨-, -, rfl⟩ := opFlush_ok hu
    rw [respond_content, content_flushed]
  · obtain ⟨r, rfl⟩ := exec_query_next h
    exact respond_content s r f

/-! ## Rows of instructions (R92, R96) -/

theorem FifoFrame.refl (f : Inst) (s : State) : FifoFrame f s s := fifoFrame_respond f s s.resp

theorem FifoFrame.trans {f : Inst} {s t u : State} (h : FifoFrame f s t) (h' : FifoFrame f t u) : FifoFrame f s u := by
  obtain ⟨ho, ⟨hc, hr, hx⟩, ⟨hp, he, hk⟩, hl, hn⟩ := h
  obtain ⟨ho', ⟨hc', hr', hx'⟩, ⟨hp', he', hk'⟩, hl', hn'⟩ := h'
  refine ⟨fun g hg => (ho' g hg).trans (ho g hg), ?_, ?_, ?_, ?_⟩
  all_goals simp_all [SameUart, SameConfiguration, SameReceiver, SameControl, SameEngine, SameContext, SameTraces,
    SameEnvironment]

theorem FifoFrame.ctx_eq {f : Inst} {s t : State} (h : FifoFrame f s t) : t.ctx = s.ctx := by
  obtain ⟨-, -, ⟨-, -, hx, -⟩, -, -⟩ := h
  exact hx

/-- The instance is in order and INIT has run on it: what every operation on it keeps. -/
structure State.Ready (s : State) (f : Inst) : Prop where
  ok : (s.fifo f).Ok
  inited : (s.fifo f).inited = true

theorem ready_setFifo_respond {f : Inst} (s : State) {q : Fifo f} (r : Option Response) (ho : q.Ok)
    (hi : q.inited = true) : ((s.setFifo f q).respond r).Ready f := by
  constructor <;> rw [respond_fifo, setFifo_fifo_same] <;> assumption

/-- A row of instructions run after another one that completes. -/
theorem execAll_append {is : List Instr} {s t : State} (h : execAll is s = .next t) (js : List Instr) :
    execAll (is ++ js) s = execAll js t := by
  induction is generalizing s with
  | nil => cases h; rfl
  | cons i rest ih =>
    rw [List.cons_append, execAll]
    rw [execAll] at h
    split at h
    next => exact ih h
    next => cases h
    next => cases h

theorem execAll_singleton (i : Instr) {s t : State} (h : exec i s = .next t) : execAll [i] s = .next t := by
  simp only [execAll, h]

/-- A byte put behind a row already cut off at `n` is kept exactly when the row with it, cut off at `n`, keeps it. -/
theorem take_concat_take {α : Type} (n : Nat) (l : List α) (a : α) : (l.take n ++ [a]).take n = (l ++ [a]).take n := by
  rcases Nat.le_total l.length n with hle | hge
  · rw [List.take_of_length_le hle]
  · rw [List.take_append_of_le_length hge, List.take_left' (List.length_take_of_le hge)]

/-- An INSERT by the producer completes, whether the instance is full or not, and keeps the byte if there is room. -/
theorem exec_insert_takes {f : Inst} {s : State} (b : Byte) (h : s.Ready f) (ho : producer f = some s.ctx) :
    ∃ t, exec (.insert (selectOf f) b) s = .next t ∧ t.content f = (s.content f ++ [b]).take (Config.cap f) ∧
      t.Ready f ∧ FifoFrame f s t := by
  obtain ⟨hok, hi⟩ := h
  have hlen := content_length hok hi
  by_cases hc : (s.fifo f).count.toNat = Config.cap f
  · refine ⟨_, exec_insert_full b hi ho hc, ?_, ⟨by rwa [respond_fifo], by rwa [respond_fifo]⟩, fifoFrame_respond f s _⟩
    rw [respond_content, List.take_left' (hlen.trans hc)]
  · refine ⟨_, exec_insert_accept b hi ho hc, ?_, ready_setFifo_respond s _ (pushed_ok b hok hi hc) hi,
      fifoFrame_setFifo_respond f s _ _⟩
    have hle := hok.countLe hi
    rw [respond_content, content_pushed b hok hi hc, List.take_of_length_le]
    rw [List.length_append, hlen, List.length_singleton]
    omega

/-- A row of INSERTs by the producer, by induction on the bytes from the last. -/
theorem execAll_inserts {f : Inst} {s : State} (bs : List Byte) (h : s.Ready f) (ho : producer f = some s.ctx) :
    ∃ t, execAll (bs.map fun b => .insert (selectOf f) b) s = .next t ∧
      t.content f = (s.content f ++ bs).take (Config.cap f) ∧ t.Ready f ∧ FifoFrame f s t := by
  induction bs using List.reverseRecOn with
  | nil =>
    have hle : (s.content f).length ≤ Config.cap f := (content_length h.ok h.inited).trans_le (h.ok.countLe h.inited)
    exact ⟨s, rfl, by rw [List.append_nil, List.take_of_length_le hle], h, .refl f s⟩
  | append_singleton bs b ih =>
    obtain ⟨t, ht, hcontent, hready, hframe⟩ := ih
    obtain ⟨u, hu, hcontent', hready', hframe'⟩ := exec_insert_takes b hready (by rwa [hframe.ctx_eq])
    refine ⟨u, ?_, ?_, hready', hframe.trans hframe'⟩
    · rw [List.map_append, execAll_append ht]
      exact execAll_singleton _ hu
    · rw [hcontent', hcontent, take_concat_take, List.append_assoc]

/-- Settles O20: the row of INSERTs keeps the first CAP bytes, and the count is the length of the content. -/
theorem overflowKeepsTheFirstBytes : Obligations.OverflowKeepsTheFirstBytes := by
  intro f bs s hok hi ho
  obtain ⟨t, ht, hcontent, hready, hothers, -, -, htraces, -⟩ := execAll_inserts bs ⟨hok, hi⟩ ho
  refine ⟨t, ht, hcontent, ?_, hready.ok, hothers, htraces⟩
  rw [← content_length hready.ok hready.inited, ← content_length hok hi, hcontent, List.length_take, List.length_append]

/-- A REMOVE by the consumer of an instance with content completes, answers its head and leaves its tail. -/
theorem exec_remove_takes {f : Inst} {s : State} (h : s.Ready f) (ho : consumer f = some s.ctx)
    (hc : (s.fifo f).count.toNat ≠ 0) :
    ∃ v t, exec (.remove (selectOf f)) s = .next t ∧ s.content f = v :: t.content f ∧
      t.resp = some (Response.byte v) ∧ t.Ready f ∧ FifoFrame f s t := by
  obtain ⟨hok, hi⟩ := h
  obtain ⟨v, hv⟩ := ok_head hok hi hc
  refine ⟨v, _, exec_remove_pass hi ho hc hv, ?_, rfl, ready_setFifo_respond s _ (popped_ok hok hi hc) hi,
    fifoFrame_setFifo_respond f s _ _⟩
  rw [respond_content, ← content_popped hc hv]

/-- A row of REMOVEs by the consumer, by induction on their number, the last one split off. -/
theorem execAll_removes {f : Inst} {s : State} (n : Nat) (h : s.Ready f) (ho : consumer f = some s.ctx)
    (hn : n ≤ (s.content f).length) :
    ∃ t, execAll (List.replicate n (.remove (selectOf f))) s = .next t ∧ t.content f = (s.content f).drop n ∧
      (0 < n → ∃ v, (s.content f)[n - 1]? = some v ∧ t.resp = some (Response.byte v)) ∧ t.Ready f ∧
      FifoFrame f s t := by
  induction n with
  | zero => exact ⟨s, rfl, rfl, fun h0 => absurd h0 (Nat.lt_irrefl 0), h, .refl f s⟩
  | succ n ih =>
    obtain ⟨t, ht, hcontent, -, hready, hframe⟩ := ih (Nat.le_of_succ_le hn)
    have hc : (t.fifo f).count.toNat ≠ 0 := by
      rw [← content_length hready.ok hready.inited, hcontent, List.length_drop]
      omega
    obtain ⟨v, u, hu, hhead, hresp, hready', hframe'⟩ := exec_remove_takes hready (by rwa [hframe.ctx_eq]) hc
    have hdrop : (s.content f).drop n = v :: u.content f := hcontent.symm.trans hhead
    refine ⟨u, ?_, ?_, fun _ => ⟨v, ?_, hresp⟩, hready', hframe.trans hframe'⟩
    · rw [List.replicate_succ', execAll_append ht]
      exact execAll_singleton _ hu
    · rw [← List.tail_drop, hdrop, List.tail_cons]
    · rw [Nat.add_sub_cancel, ← List.head?_drop, hdrop, List.head?_cons]

/-- Settles O21: the row of REMOVEs takes the content from its front, and the count is the length of the content. -/
theorem drainReturnsBytesInOrder : Obligations.DrainReturnsBytesInOrder := by
  intro f n s hok hi ho hn
  have hlen := content_length hok hi
  obtain ⟨t, ht, hcontent, hlast, hready, -⟩ := execAll_removes n ⟨hok, hi⟩ ho (hn.trans_eq hlen.symm)
  refine ⟨t, ht, hcontent, ?_, hlast⟩
  rw [← content_length hready.ok hready.inited, hcontent, List.length_drop, hlen]

end Sys2Proof.Machine
end

section
/-!
PROOFS. The family of 41_uart_reconfig.md. First the UART primitives and the wire, then the values of a request (its
acceptance, divisor and frame mask), then the engine: its phases one by one, the six of them in a row, what holds while
the UART is disabled, and which instructions leave the configuration alone.
-/

namespace Sys2Proof.Machine

/-! ## The UART primitives (R98 to R101) -/

theorem sendReady_iff (s : State) : s.sendReady = true ↔ s.txen = true ∧ s.txshift = none := by
  simp [State.sendReady, State.txbusy]

theorem sendReady_false_iff (s : State) : s.sendReady = false ↔ s.txen = false ∨ s.txshift ≠ none := by
  rw [← Bool.not_eq_true, sendReady_iff, not_and_or, Bool.not_eq_true]

/-- Settles O22: the bit of the response is `send_ready`. -/
theorem sendReadyAnswersEnabledAndIdle : Obligations.SendReadyAnswersEnabledAndIdle := by
  intro s
  have hbit : Response.bit s.sendReady = ⟨1, if s.txen = true ∧ s.txshift = none then 1 else 0⟩ := by
    simp only [Response.bit, sendReady_iff]
  rw [← hbit]
  rfl

theorem exec_uartSend (b : Byte) (s : State) :
    exec (.uartSend b) s = settle (opSend b s) fun t => .next (t.respond none) :=
  rfl

theorem opSend_not_ready (b : Byte) {s : State} (h : s.sendReady = false) : opSend b s = .error .txNotReady := if_pos h

/-- Settles O23: `send_ready` decides between the two arms of the operation. -/
theorem sendStartsTheByteOrFaults : Obligations.SendStartsTheByteOrFaults := by
  refine fun b s => ⟨fun hen hidle => ?_, fun hoff => ?_⟩
  · rw [exec_uartSend, opSend_pass b s ((sendReady_iff s).mpr ⟨hen, hidle⟩)]
    rfl
  · rw [exec_uartSend, opSend_not_ready b ((sendReady_false_iff s).mpr hoff), settle_error]

theorem rxValue_received {s : State} (h : s.rxc = true) : rxValue s = s.rxdata := if_pos h

/-- Nothing received, nothing requested (R150). -/
theorem irqRequested_of_rxc {s : State} (h : s.rxc = false) : s.irqRequested = false := by
  rw [State.irqRequested, h, Bool.and_false]

/-- Settles O24: the byte is that of the read of DATA, which clears the flags. -/
theorem rxReadReturnsTheByteAndClearsTheFlags : Obligations.RxReadReturnsTheByteAndClearsTheFlags :=
  fun s => ⟨_, rxValue s, rfl, rfl, rxValue_received, irqRequested_of_rxc rfl⟩

/-! ## The wire (R103 to R106) -/

theorem wireFinish_idle {s : State} (h : s.txshift = none) : wireFinish s = s := by
  simp only [wireFinish, h]

theorem wireFinish_busy {s : State} {b : Byte} (h : s.txshift = some b) :
    wireFinish s =
      { s with wireOutLog := appendIf (!s.txhold || s.draws.seen) s.wireOutLog b, txshift := none } := by
  simp only [wireFinish, h]

theorem appendIf_cases (seen : Bool) (log : List Byte) (b : Byte) :
    appendIf seen log b = log ∨ appendIf seen log b = log ++ [b] := by
  cases seen
  · exact .inl rfl
  · exact .inr rfl

/-- Settles O25: by what is in transmission and whether the line is held, when the draw decides. -/
theorem transmitterFinishesItsByte : Obligations.TransmitterFinishesItsByte := by
  intro s hm
  have hstep : step s = .next (wireFinish s).advance := step_of_agent hm
  refine ⟨fun hidle => ?_, fun b hb hfree => ?_, fun b hb _ => ?_⟩
  · rw [hstep, wireFinish_idle hidle]
  · have hseen : (!s.txhold || s.draws.seen) = true := by rw [hfree, Bool.not_false, Bool.true_or]
    rw [hstep, wireFinish_busy hb, hseen]
    rfl
  · rw [hstep, wireFinish_busy hb]
    obtain hlog | hlog := appendIf_cases (!s.txhold || s.draws.seen) s.wireOutLog b <;> rw [hlog]
    · exact .inr rfl
    · exact .inl rfl

theorem wireArrive_off (b : Byte) {s : State} (h : s.rxen = false) : wireArrive b s = s := if_pos h

theorem wireArrive_room (b : Byte) {s : State} (hen : s.rxen = true) (hc : s.rxc = false) :
    wireArrive b s = { s with rxdata := b, rxc := true, wireInLog := s.wireInLog ++ [b] } := by
  simp [wireArrive, hen, hc]

theorem wireArrive_overrun (b : Byte) {s : State} (hen : s.rxen = true) (hc : s.rxc = true) :
    wireArrive b s = { s with rxerr := true } := by
  simp [wireArrive, hen, hc]

/-- Settles O26: by the receiver's enable bit and whether it has room. -/
theorem arrivalIsAcceptedOverrunOrIgnored : Obligations.ArrivalIsAcceptedOverrunOrIgnored := by
  intro s hm
  have hstep : step s = .next (wireArrive s.draws.arrival s).advance := step_of_agent hm
  refine ⟨fun hen hc => ?_, fun hen hc => ?_, fun hoff => ?_⟩
  · rw [hstep, wireArrive_room _ hen hc]
    rfl
  · rw [hstep, wireArrive_overrun _ hen hc]
    rfl
  · rw [hstep, wireArrive_off _ hoff]

/-! ## The values of a request (R108 to R111) -/

theorem parity_ne_inv3_iff (p : Parity) : p ≠ .inv3 ↔ p = .noParity ∨ p = .odd ∨ p = .even := by
  cases p <;> decide

theorem dataBits_range_iff (n : BitVec 4) : 5 ≤ n.toNat ∧ n.toNat ≤ 8 ↔ n = 5 ∨ n = 6 ∨ n = 7 ∨ n = 8 := by
  revert n; decide

/-- The acceptance test, clause by clause (R108). -/
theorem accept_iff (r : LineReq) :
    accept r = true ↔
      (r.parity = .noParity ∨ r.parity = .odd ∨ r.parity = .even) ∧
        (r.data = 5 ∨ r.data = 6 ∨ r.data = 7 ∨ r.data = 8) ∧ r.baud ≠ 0 ∧
        1 ≤ divQuotient Config.fClk r.baud.toNat ∧ divQuotient Config.fClk r.baud.toNat ≤ 2 ^ 12 := by
  rw [← parity_ne_inv3_iff, ← dataBits_range_iff]
  simp only [accept, acceptAt, Bool.and_eq_true, bne_iff_ne, decide_eq_true_eq, and_assoc]
  rfl

theorem exec_reconfig (r : LineReq) (s : State) :
    exec (.reconfig r) s = .next ((requestReconfig r s).respond none) :=
  rfl

theorem requestReconfig_rejected {r : LineReq} {s : State} (ha : accept r = false) (he : s.engine = none) :
    requestReconfig r s = s := by
  simp [requestReconfig, ha, he]

theorem requestReconfig_accepted {r : LineReq} {s : State} (ha : accept r = true) (he : s.engine = none) :
    requestReconfig r s = { s with engine := some (.p1, r) } := by
  simp [requestReconfig, ha, he]

theorem requestReconfig_busy {r : LineReq} {s : State} (he : s.engine ≠ none) :
    requestReconfig r s = { s with evs := s.evs ++ [r] } := by
  unfold requestReconfig
  split
  next => rfl
  next hidle => exact absurd hidle he

/-- Settles O27: the clauses of the test, and the arm of a rejected request. -/
theorem rejectedRequestChangesNothing : Obligations.RejectedRequestChangesNothing := by
  refine fun r => ⟨accept_iff r, fun s ha he => ?_⟩
  rw [exec_reconfig, requestReconfig_rejected ha he]
  rfl

/-- Settles O28: the two arms of a request that is taken, at once or to wait (log 10). -/
theorem acceptedRequestStartsTheEngine : Obligations.AcceptedRequestStartsTheEngine := by
  refine fun r s => ⟨fun ha he => ?_, fun he => ?_⟩
  · rw [exec_reconfig, requestReconfig_accepted ha he]
    rfl
  · rw [exec_reconfig, requestReconfig_busy he]
    rfl

/-- An accepted request's divisor, the quotient less one, fits the twelve bits of DIV (R111). -/
theorem divValue_toNat {r : LineReq} (h : accept r = true) :
    (divValue r).toNat = divQuotient Config.fClk r.baud.toNat - 1 := by
  obtain ⟨-, -, -, -, hfits⟩ := (accept_iff r).mp h
  rw [divValue, divisor, BitVec.toNat_ofNat, Nat.mod_eq_of_lt (by omega)]

/-- Settles O34: acceptance bounds the quotient on both sides. -/
theorem acceptedDivisorIsNotTruncated : Obligations.AcceptedDivisorIsNotTruncated := by
  intro r h
  obtain ⟨-, -, hbaud, hpos, -⟩ := (accept_iff r).mp h
  refine ⟨fun h0 => hbaud (BitVec.eq_of_toNat_eq h0), hpos, ?_⟩
  rw [divValue_toNat h]
  exact Nat.sub_add_cancel hpos

theorem parityMask_and_stopMask (p : Parity) (t : StopBits) : parityMask p &&& stopMask t = 0 := by
  cases p <;> cases t <;> rfl

theorem dataMask_cases (n : BitVec 4) : dataMask n = 0 ∨ dataMask n = 0x02 ∨ dataMask n = 0x04 ∨ dataMask n = 0x06 := by
  revert n; decide

theorem parityMask_and_dataMask (p : Parity) (n : BitVec 4) : parityMask p &&& dataMask n = 0 := by
  obtain h | h | h | h := dataMask_cases n <;> rw [h] <;> cases p <;> rfl

theorem stopMask_and_dataMask (t : StopBits) (n : BitVec 4) : stopMask t &&& dataMask n = 0 := by
  obtain h | h | h | h := dataMask_cases n <;> rw [h] <;> cases t <;> rfl

/-- Five data bits add no bit to the mask (R109). -/
theorem frameMask_five (b : BitVec 32) (p : Parity) (t : StopBits) :
    frameMask ⟨b, p, t, 5⟩ = parityMask p ||| stopMask t :=
  BitVec.or_zero

/-- Settles O33: the fields' values, and that no two of them share a bit. -/
theorem frameMaskIsTheOrOfItsFields : Obligations.FrameMaskIsTheOrOfItsFields := by
  refine ⟨fun _ => rfl, rfl, rfl, rfl, rfl, rfl, rfl, rfl, rfl, rfl, rfl, frameMask_five, fun p t n => ?_⟩
  exact ⟨parityMask_and_stopMask p t, parityMask_and_dataMask p n, stopMask_and_dataMask t n⟩

/-! ## The phases (R113 to R118) -/

/-- A step of MAIN with a phase next is that phase (R122). -/
theorem step_of_phase {s : State} {p : Phase} {r : LineReq} (hm : s.mover = .agent .main) (hc : s.ctx = .main)
    (he : s.engine = some (p, r)) : step s = .next (phaseAct p r s).advance := by
  rw [step_of_agent hm, agentAct, mainAct_engine hc he, advanced]

/-- A byte still going out is cut off, seen on the wire or not (R114, R121). -/
theorem cutOff_cases (s : State) :
    ∃ log, (log = s.wireOutLog ∨ ∃ b, s.txshift = some b ∧ log = s.wireOutLog ++ [b]) ∧
      cutOff s = { s with txshift := none, wireOutLog := log } := by
  cases hb : s.txshift with
  | none =>
    have hcut : cutOff s = s := by simp only [cutOff, hb]
    exact ⟨s.wireOutLog, .inl rfl, by rw [hcut, ← hb]⟩
  | some b =>
    have hlog : appendIf s.draws.seen s.wireOutLog b = s.wireOutLog ∨
        ∃ c, some b = some c ∧ appendIf s.draws.seen s.wireOutLog b = s.wireOutLog ++ [c] :=
      (appendIf_cases s.draws.seen s.wireOutLog b).imp_right fun h => ⟨b, rfl, h⟩
    exact ⟨_, hlog, by simp only [cutOff, hb]⟩

/-- Phase 2 clears the registers and the receive flags and empties the transmitter (R114). -/
theorem phaseAct_p2 (r : LineReq) (s : State) :
    ∃ log, (log = s.wireOutLog ∨ ∃ b, s.txshift = some b ∧ log = s.wireOutLog ++ [b]) ∧
      phaseAct .p2 r s =
        { s with
          ctrlA := 0, ctrlB := 0, ctrlC := 0, rxc := false, rxerr := false, txshift := none, wireOutLog := log,
          engine := some (.p3, r) } := by
  obtain ⟨log, hlog, hcut⟩ := cutOff_cases (disableUart s)
  refine ⟨log, hlog, ?_⟩
  rw [phaseAct, hcut]
  rfl

/-- Phase 4 writes the mask, which has no reserved bit (R30, R116). -/
theorem phaseAct_p4 (r : LineReq) (s : State) :
    phaseAct .p4 r s = { s with ctrlC := frameMask r, engine := some (.p5, r) } := by
  simp only [phaseAct, State.writeC, frameMask_masked]

/-- Phase 5 writes the two enabling values, which have no reserved bit (R30, R117). -/
theorem phaseAct_p5 (r : LineReq) (s : State) :
    phaseAct .p5 r s = { s with ctrlA := 0x02, ctrlB := 0x98, engine := some (.p6, r) } := rfl

/-- Settles O29: the equation of each phase. -/
theorem phasesWriteTheirRegisters : Obligations.PhasesWriteTheirRegisters := by
  refine fun r s hm hc => ⟨fun he => ?_, fun he => ?_, fun he => ?_, fun he => ?_⟩ <;> rw [step_of_phase hm hc he]
  · rfl
  · rfl
  · rw [phaseAct_p4]
    rfl
  · rfl

/-- Settles O30: the equation of phase 2. -/
theorem phaseTwoDisablesTheUart : Obligations.PhaseTwoDisablesTheUart := by
  intro r s hm hc he
  obtain ⟨log, hlog, heq⟩ := phaseAct_p2 r s
  refine ⟨log, ?_, hlog⟩
  rw [step_of_phase hm hc he, heq]
  rfl

/-- The first acceptable request of a list starts (R135). -/
theorem startNext_first (pre rest : List LineReq) {x : LineReq} (s : State) (h : ∀ y ∈ pre, accept y = false)
    (hx : accept x = true) :
    startNext (pre ++ x :: rest) s = { s with engine := some (.p1, x), evs := rest } := by
  rw [startNext_skip pre _ s h, startNext, if_pos hx]

/-- Settles O31: phase 6 ends in starting on the requests that wait (log 9), by whether one of them is acceptable. -/
theorem phaseSixReleasesAndTakesTheNextRequest : Obligations.PhaseSixReleasesAndTakesTheNextRequest := by
  refine fun r x pre rest s hm hc he hpre => ⟨fun hevs hx => ?_, fun hevs => ?_⟩
  · rw [step_of_phase hm hc he, phaseAct, hevs, startNext_first pre rest _ hpre hx]
    rfl
  · rw [step_of_phase hm hc he, phaseAct, hevs, startNext_none pre _ hpre]
    rfl

/-! ## The six phases in a row (R119) -/

/-- With nothing waiting phase 6 ends the reconfiguration (R118). -/
theorem phaseAct_p6_last (r : LineReq) {s : State} (h : s.evs = []) :
    phaseAct .p6 r s =
      { s with
        txhold := false, le := some r, engine := none, evs := [], pos := if s.pos = .s42 then .s11 else s.pos } := by
  rw [phaseAct, h]
  rfl

/-- A turn of MAIN with a phase next, in a run. -/
theorem run_phase {s u : State} {p : Phase} {r : LineReq} {d : Draws} {rest : List Input} {k : Nat}
    (hi : s.inputs = ⟨.agent .main, d⟩ :: rest) (hc : s.ctx = .main) (he : s.engine = some (p, r))
    (hu : phaseAct p r s = u) : Host.Core.run Sys2Proof.core (k + 1) s = Host.Core.run Sys2Proof.core k u.advance :=
  run_turn hi (hu ▸ mainAct_engine hc he)

/-- Six turns of MAIN from phase 1, with nothing waiting, leave the configuration of the record, an idle engine, and
everything else but the transmitter's trace, MAIN's position and the environment as it was. The state is taken apart
first, so that every condition of a turn reads off the state before it. -/
theorem run_six_phases {s : State} {r : LineReq} {ds : List Draws} {rest : List Input}
    (he : s.engine = some (.p1, r)) (hevs : s.evs = []) (hc : s.ctx = .main) (hl : ds.length = 6)
    (hi : s.inputs = turns .main ds ++ rest) :
    ∃ log, Host.Core.run Sys2Proof.core 6 s = .next
      { s with
        le := some r, ctrlA := 0x02, ctrlB := 0x98, ctrlC := frameMask r, div := divValue r, rxc := false,
        rxerr := false, txshift := none, txhold := false, wireOutLog := log, engine := none, evs := [],
        pos := if s.pos = .s42 then .s11 else s.pos, inputs := rest, tick := s.tick + 6 } := by
  obtain ⟨log, -, hp2⟩ := phaseAct_p2 r (phaseAct .p1 r s).advance
  refine ⟨log, ?_⟩
  obtain ⟨⟩ := s
  dsimp only at he hevs hc hi
  subst he hevs hc hi
  match ds, hl with
  | [d1, d2, d3, d4, d5, d6], _ =>
    refine .trans (run_phase rfl rfl rfl rfl) ?_
    refine .trans (run_phase rfl rfl rfl hp2) ?_
    refine .trans (run_phase rfl rfl rfl rfl) ?_
    refine .trans (run_phase rfl rfl rfl (phaseAct_p4 r _)) ?_
    refine .trans (run_phase rfl rfl rfl (phaseAct_p5 r _)) ?_
    exact run_phase rfl rfl rfl (phaseAct_p6_last r rfl)

/-- Settles O32: RECONFIG starts the engine, and MAIN's six turns run its phases. -/
theorem reconfigurationAppliesTheRequest : Obligations.ReconfigurationAppliesTheRequest := by
  intro r s ds rest ha he hevs hc hl hi
  obtain ⟨hstart, -⟩ := acceptedRequestStartsTheEngine r s
  obtain ⟨log, hrun⟩ :=
    run_six_phases (s := { s with engine := some (.p1, r), resp := none }) rfl hevs hc hl hi
  exact ⟨_, _, hstart ha he, hrun, rfl, rfl, rfl, divValue_toNat ha, rfl, rfl, rfl, rfl, rfl, rfl,
    fun g => by cases g <;> rfl⟩

/-! ## The disabled UART (R120) -/

/-- Between phase 2 and phase 5 no enable bit is set and the line is held. -/
theorem disabled_of_phase {s : State} (h : s.Inv) (hlo : 3 ≤ s.phase) (hhi : s.phase ≤ 5) :
    s.ctrlB = 0 ∧ s.txhold = true := by
  have hr := h.registers
  unfold State.RegistersFollow at hr
  unfold State.phase at hlo hhi
  cases he : s.engine with
  | none => simp [he] at hlo
  | some e =>
    obtain ⟨p, r⟩ := e
    simp only [he] at hlo hhi hr
    cases p with
    | p1 | p2 => exact absurd hlo (by decide)
    | p3 | p4 | p5 =>
      obtain ⟨hhold, -, hB, -⟩ := hr
      exact ⟨hB, hhold⟩
    | p6 => exact absurd hhi (by decide)

/-- Settles O35: with CTRL_B at 0 the three enable bits are 0. -/
theorem uartIsDeadBetweenPhaseTwoAndFive : Obligations.UartIsDeadBetweenPhaseTwoAndFive := by
  intro s b h hlo hhi
  obtain ⟨hB, hhold⟩ := disabled_of_phase h hlo hhi
  have hrxcie : s.rxcie = false := by rw [State.rxcie, hB]; rfl
  have htxen : s.txen = false := by rw [State.txen, hB]; rfl
  have hrxen : s.rxen = false := by rw [State.rxen, hB]; rfl
  refine ⟨?_, (sendReady_false_iff s).mpr (.inl htxen), wireArrive_off b hrxen, hhold⟩
  rw [State.irqRequested, hrxcie, Bool.false_and]

/-! ## What leaves the configuration alone (R123, R177) -/

theorem SameConfiguration.refl (s : State) : SameConfiguration s s := ⟨rfl, rfl, rfl, rfl, rfl, rfl⟩

@[simp] theorem sameConfiguration_respond (s t : State) (r : Option Response) :
    SameConfiguration s (t.respond r) ↔ SameConfiguration s t :=
  Iff.rfl

@[simp] theorem sameConfiguration_setPos (s t : State) (p : Pos) :
    SameConfiguration s (t.setPos p) ↔ SameConfiguration s t :=
  Iff.rfl

theorem setFifo_sameConfiguration (s : State) (f : Inst) (q : Fifo f) : SameConfiguration s (s.setFifo f q) := by
  simp only [SameConfiguration, setFifo_ctrlA, setFifo_ctrlB, setFifo_ctrlC, setFifo_div, setFifo_txhold, setFifo_le,
    and_self]

theorem opInit_sameConfiguration {f : Inst} {s t : State} (h : opInit f s = .ok t) : SameConfiguration s t := by
  obtain ⟨-, -, rfl⟩ := opInit_ok h
  exact setFifo_sameConfiguration s f _

theorem opInsert_sameConfiguration {f : Inst} {b : Byte} {s t : State} (h : opInsert f b s = .ok t) :
    SameConfiguration s t := by
  obtain ⟨-, -, ⟨-, rfl⟩ | ⟨-, rfl⟩⟩ := opInsert_ok h
  · exact .refl _
  · exact setFifo_sameConfiguration s f _

theorem opRemove_sameConfiguration {f : Inst} {b : Byte} {s t : State} (h : opRemove f s = .ok (b, t)) :
    SameConfiguration s t := by
  obtain ⟨-, -, -, -, rfl⟩ := opRemove_ok h
  exact setFifo_sameConfiguration s f _

theorem opFlush_sameConfiguration {f : Inst} {s t : State} (h : opFlush f s = .ok t) : SameConfiguration s t := by
  obtain ⟨-, -, rfl⟩ := opFlush_ok h
  exact setFifo_sameConfiguration s f _

theorem opSend_sameConfiguration {b : Byte} {s t : State} (h : opSend b s = .ok t) : SameConfiguration s t := by
  obtain ⟨-, rfl⟩ := opSend_ok h
  exact ⟨rfl, rfl, rfl, rfl, rfl, rfl⟩

/-- RECONFIG's own action writes no register: the phases do (R107, R112). -/
theorem requestReconfig_sameConfiguration (r : LineReq) (s : State) : SameConfiguration s (requestReconfig r s) := by
  unfold requestReconfig
  split
  · exact ⟨rfl, rfl, rfl, rfl, rfl, rfl⟩
  · split <;> exact ⟨rfl, rfl, rfl, rfl, rfl, rfl⟩

theorem execBrUsbRx_sameConfiguration {s t : State} (h : execBrUsbRx s = .next t) : SameConfiguration s t := by
  obtain ⟨u, p, rfl, -, hu⟩ := execBrUsbRx_cases h
  rw [sameConfiguration_setPos]
  obtain rfl | ⟨b, rfl⟩ | ⟨b, hu⟩ := hu
  · exact .refl _
  · exact ⟨rfl, rfl, rfl, rfl, rfl, rfl⟩
  · exact opInsert_sameConfiguration hu

theorem execBrUsbTx_sameConfiguration {s t : State} (h : execBrUsbTx s = .next t) : SameConfiguration s t := by
  obtain ⟨u, p, rfl, -, hu⟩ := execBrUsbTx_cases h
  rw [sameConfiguration_setPos]
  obtain rfl | ⟨seen, b, rfl⟩ | ⟨b, hu⟩ := hu
  · exact .refl _
  · exact ⟨rfl, rfl, rfl, rfl, rfl, rfl⟩
  · exact opRemove_sameConfiguration hu

theorem execBrUartTx_sameConfiguration {s t : State} (h : execBrUartTx s = .next t) : SameConfiguration s t := by
  obtain ⟨u, p, rfl, -, hu⟩ := execBrUartTx_cases h
  rw [sameConfiguration_setPos]
  obtain rfl | ⟨b, hu⟩ | ⟨b, hu⟩ := hu
  · exact .refl _
  · exact opRemove_sameConfiguration hu
  · exact opSend_sameConfiguration hu

/-- Settles O54: by the instruction; the engine's phases, which write the configuration, run in BR_SERVICE only. -/
theorem onlyTheEngineConfiguresTheUart : Obligations.OnlyTheEngineConfiguresTheUart := by
  intro i s t h hservice
  cases i with
  | brService => exact absurd rfl hservice
  | init ff =>
    obtain ⟨f, u, hu, ⟨⟩⟩ := onInstance_settle_next h
    exact (sameConfiguration_respond s u _).mpr (opInit_sameConfiguration hu)
  | insert ff b =>
    obtain ⟨f, u, hu, ⟨⟩⟩ := onInstance_settle_next h
    exact (sameConfiguration_respond s u _).mpr (opInsert_sameConfiguration hu)
  | remove ff =>
    obtain ⟨f, ⟨b, u⟩, hu, ⟨⟩⟩ := onInstance_settle_next h
    exact (sameConfiguration_respond s u _).mpr (opRemove_sameConfiguration hu)
  | flush ff =>
    obtain ⟨f, u, hu, ⟨⟩⟩ := onInstance_settle_next h
    exact (sameConfiguration_respond s u _).mpr (opFlush_sameConfiguration hu)
  | peek ff | isFull ff | isEmpty ff | count ff =>
    obtain ⟨f, a, -, ⟨⟩⟩ := onInstance_settle_next h
    exact (sameConfiguration_respond s s _).mpr (.refl s)
  | reconfig r =>
    cases h
    exact (sameConfiguration_respond s _ _).mpr (requestReconfig_sameConfiguration r s)
  | uartSendReady =>
    cases h
    exact (sameConfiguration_respond s s _).mpr (.refl s)
  | uartSend b =>
    obtain ⟨u, hu, ⟨⟩⟩ := settle_next h
    exact (sameConfiguration_respond s u _).mpr (opSend_sameConfiguration hu)
  | uartRxRead =>
    cases h
    exact ⟨rfl, rfl, rfl, rfl, rfl, rfl⟩
  | brUsbRx => exact execBrUsbRx_sameConfiguration h
  | brUsbTx => exact execBrUsbTx_sameConfiguration h
  | brUartTx => exact execBrUartTx_sameConfiguration h

end Sys2Proof.Machine
end

section
/-!
PROOFS. The family of 42_bridge_sequencer.md. First what an agent's step does to the bytes the bridge holds, as a list of
moves (`BridgeMove`), which gives the two statements that no byte is lost; then each line of the sequencer as an equation,
and the runs of lines that make up its steps.
-/

namespace Sys2Proof.Machine

/-! ## The bytes between a queue and a log (R140) -/

/-- What MAIN's position says of bytes that are on their way. -/
structure Transit where
  /-- How many bytes of `U2H` the USB stack has taken and MAIN not yet removed. -/
  taken : Nat
  /-- The byte polled from the USB host and not yet in `H2U`. -/
  received : Option Byte
  /-- The byte dequeued from `H2U` and not yet in the transmitter. -/
  dequeued : Option Byte

/-- The bytes on their way at a position (R38). -/
def Pos.transit : Pos → Transit
  | .s13 tByte => ⟨0, tByte, none⟩
  | .s26 _ _ tRes => ⟨if tRes = .ok then 1 else 0, none, none⟩
  | .s34 tByte => ⟨0, none, tByte⟩
  | _ => ⟨0, none, none⟩

theorem transit_batchPos (k : Count Config.u2h) : (batchPos k).transit = ⟨0, none, none⟩ := by
  unfold batchPos
  split <;> rfl

theorem transit_of_boot {p : Pos} (h : p.code = none) : p.transit = ⟨0, none, none⟩ := by
  cases p with
  | b1 | b2 | b3 | b4 | b5 => rfl
  | _ => cases h

theorem towardsHost_eq (s : State) :
    s.towardsHost = s.usbOutLog ++ (s.content Config.u2h).drop s.pos.transit.taken := by
  unfold State.towardsHost
  cases s.pos with
  | s26 tK tByte tRes =>
    cases tRes with
    | ok => rw [← List.drop_one]; rfl
    | wouldBlock | error => rfl
  | _ => rfl

theorem towardsWire_eq (s : State) :
    s.towardsWire =
      s.pos.transit.dequeued.toList ++ s.content Config.h2u ++ s.pos.transit.received.toList := by
  unfold State.towardsWire
  cases s.pos with
  | s13 tByte =>
    cases tByte with
    | some b => rfl
    | none => exact (List.append_nil _).symm
  | s34 tByte => cases tByte <;> exact (List.append_nil _).symm
  | _ => exact (List.append_nil _).symm

/-! ## What an agent's step does to those bytes -/

/-- The queues, the two USB traces and the bytes on their way are as before. -/
structure Quiet (s t : State) : Prop where
  content : ∀ f, t.content f = s.content f
  usbIn : t.usbInLog = s.usbInLog
  usbOut : t.usbOutLog = s.usbOutLog
  transit : t.pos.transit = s.pos.transit

/-- The actions of an agent, by what they do to the bytes the bridge holds: nothing, or one of the seven actions that
move a byte. -/
inductive BridgeMove : Agent → State → State → Prop where
  | quiet (a : Agent) {s t : State} : Quiet s t → BridgeMove a s t
  | poll {s : State} (b : Byte) : s.pos = .s12 false →
      BridgeMove .main s ({ s with usbInLog := s.usbInLog ++ [b] }.setPos (.s13 (some b)))
  | store {s u : State} (b : Byte) : s.pos = .s13 (some b) → opInsert Config.h2u b s = .ok u →
      BridgeMove .main s (u.setPos .s21)
  | offer {s : State} {k : Count Config.u2h} {b : Byte} (r : SendResult) : s.pos = .s25 k b →
      BridgeMove .main s
        ({ s with usbOutLog := appendIf (r == SendResult.ok) s.usbOutLog b }.setPos (.s26 k b r))
  | remove {s u : State} {k : Count Config.u2h} {b v : Byte} : s.pos = .s26 k b .ok →
      opRemove Config.u2h s = .ok (v, u) → BridgeMove .main s (u.setPos (batchPos (k - 1)))
  | dequeue {s u : State} {v : Byte} : s.pos = .s33 true false → opRemove Config.h2u s = .ok (v, u) →
      BridgeMove .main s (u.setPos (.s34 (some v)))
  | send {s u : State} (b : Byte) : s.pos = .s34 (some b) → opSend b s = .ok u → BridgeMove .main s (u.setPos .s41)
  | handle {s u : State} (b : Byte) : s.isr = .gotFull b false → opInsert Config.u2h b s = .ok u →
      BridgeMove .isr s (returnFromInterrupt u)

theorem content_congr {f : Inst} {s t : State} (h : t.fifo f = s.fifo f) : t.content f = s.content f := by
  rw [State.content, State.content, h]

theorem quiet_of_sameFifos {s t : State} (hf : SameFifos s t) (hi : t.usbInLog = s.usbInLog)
    (ho : t.usbOutLog = s.usbOutLog) (hp : t.pos.transit = s.pos.transit) : Quiet s t :=
  ⟨fun f => content_congr (hf f), hi, ho, hp⟩

/-- Between two positions with nothing on its way MAIN may go on, a quiet action. -/
theorem quiet_setPos {s : State} {p q : Pos} (hp : s.pos = p) (h : q.transit = p.transit) : Quiet s (s.setPos q) :=
  quiet_of_sameFifos (setPos_fifo s q) rfl rfl (by rw [setPos_pos, hp, h])

theorem quiet_wireArrive (b : Byte) (s : State) : Quiet s (wireArrive b s) := by
  have hlogs : (wireArrive b s).usbInLog = s.usbInLog ∧ (wireArrive b s).usbOutLog = s.usbOutLog := by
    unfold wireArrive
    split
    · exact ⟨rfl, rfl⟩
    · split <;> exact ⟨rfl, rfl⟩
  obtain ⟨-, hp, -⟩ := wireArrive_frame b s
  exact quiet_of_sameFifos (wireArrive_fifo b s) hlogs.1 hlogs.2 (by rw [hp])

theorem quiet_wireFinish (s : State) : Quiet s (wireFinish s) := by
  have hlogs : (wireFinish s).usbInLog = s.usbInLog ∧ (wireFinish s).usbOutLog = s.usbOutLog := by
    unfold wireFinish
    split <;> exact ⟨rfl, rfl⟩
  obtain ⟨-, hp, -⟩ := wireFinish_frame s
  exact quiet_of_sameFifos (wireFinish_fifo s) hlogs.1 hlogs.2 (by rw [hp])

/-- Starting on requests moves MAIN from 4.2 to 1.1 at most, where nothing is on its way. -/
theorem quiet_startNext (rs : List LineReq) (s : State) : Quiet s (startNext rs s) := by
  obtain ⟨hi, ho, -, -⟩ := startNext_traces rs s
  refine quiet_of_sameFifos (startNext_fifo rs s) hi ho ?_
  obtain hp | ⟨hp, h42⟩ := startNext_pos rs s
  · rw [hp]
  · rw [hp, h42]
    rfl

theorem Quiet.trans {s t u : State} (h : Quiet s t) (h' : Quiet t u) : Quiet s u :=
  ⟨fun f => (h'.content f).trans (h.content f), h'.usbIn.trans h.usbIn, h'.usbOut.trans h.usbOut,
    h'.transit.trans h.transit⟩

theorem quiet_phaseAct (p : Phase) (r : LineReq) (s : State) : Quiet s (phaseAct p r s) := by
  have hf := phaseAct_fifo p r s
  cases p with
  | p1 | p3 | p4 | p5 => exact quiet_of_sameFifos hf rfl rfl rfl
  | p2 =>
    obtain ⟨log, -, heq⟩ := phaseAct_p2 r s
    rw [heq] at hf ⊢
    exact quiet_of_sameFifos hf rfl rfl rfl
  | p6 =>
    refine .trans ?_ (quiet_startNext s.evs _)
    exact quiet_of_sameFifos (fun g => by cases g <;> rfl) rfl rfl rfl

theorem quiet_engineAct (s : State) : Quiet s (engineAct s) := by
  unfold engineAct
  split
  · exact quiet_phaseAct _ _ s
  · exact quiet_startNext _ s

theorem quiet_handOver (rs : List LineReq) (s : State) : Quiet s (handOver rs s) := by
  unfold handOver
  split
  · exact quiet_of_sameFifos (fun g => by cases g <;> rfl) rfl rfl rfl
  · exact quiet_startNext rs s

/-- An empty array gives no content, whatever the count says. -/
theorem contentFrom_nil (cap c n : Nat) : contentFrom [] cap c n = [] := by
  induction n generalizing c with
  | zero => rfl
  | succ n ih => rw [contentFrom_succ, ih]; rfl

/-- An instance not yet initialised has no content, before INIT and after it (R15, R82). -/
theorem opInit_content {f : Inst} {s t : State} (hok : (s.fifo f).Ok) (h : opInit f s = .ok t) (g : Inst) :
    t.content g = s.content g := by
  obtain ⟨hi, -, rfl⟩ := opInit_ok h
  by_cases hg : g = f
  · subst hg
    rw [setFifo_content_same, State.content, hok.fresh hi, contentFrom_nil, contentFrom_nil]
  · exact setFifo_content_other s f g _ hg

theorem quiet_init {f : Inst} {s u : State} {q : Pos} (hok : (s.fifo f).Ok) (hu : opInit f s = .ok u)
    (h : q.transit = s.pos.transit) : Quiet s (u.setPos q) := by
  have hc := opInit_content hok hu
  obtain ⟨-, -, rfl⟩ := opInit_ok hu
  exact ⟨fun g => (setPos_content _ q g).trans (hc g), setFifo_usbInLog s f _, setFifo_usbOutLog s f _, h⟩

theorem quiet_bootAct {s t : State} (hs : s.Inv) (hb : s.pos.code = none) (h : bootAct s = .next t) : Quiet s t := by
  have hboot := (transit_of_boot hb).symm
  unfold bootAct at h
  split at h
  case h_1 | h_5 => cases h; exact quiet_setPos rfl hboot
  all_goals
    obtain ⟨u, hu, ⟨⟩⟩ := settle_next h
    exact quiet_init (hs.fifos _) hu hboot

theorem execBrUsbRx_move {s t : State} (h : execBrUsbRx s = .next t) : BridgeMove .main s t := by
  unfold execBrUsbRx at h
  split at h
  next hp =>
    obtain ⟨full, -, ⟨⟩⟩ := settle_next h
    exact .quiet _ (quiet_setPos hp rfl)
  next full hp =>
    unfold line12 at h
    split at h
    next => cases h; exact .quiet _ (quiet_setPos hp rfl)
    next hfull =>
      obtain rfl : full = false := Bool.eq_false_iff.mpr hfull
      split at h <;> cases h
      next b _ => exact .poll b hp
      next => exact .quiet _ (quiet_setPos hp rfl)
  next got hp =>
    cases got with
    | none => cases h; exact .quiet _ (quiet_setPos hp rfl)
    | some b =>
      obtain ⟨u, hu, ⟨⟩⟩ := settle_next h
      exact .store b hp hu
  next => cases h

theorem execBrUsbTx_move {s t : State} (h : execBrUsbTx s = .next t) : BridgeMove .main s t := by
  unfold execBrUsbTx at h
  split at h
  next hp =>
    obtain ⟨n, -, ⟨⟩⟩ := settle_next h
    exact .quiet _ (quiet_setPos hp rfl)
  next hp => cases h; exact .quiet _ (quiet_setPos hp rfl)
  next hp => cases h; exact .quiet _ (quiet_setPos hp (transit_batchPos _))
  next hp =>
    obtain ⟨b, -, ⟨⟩⟩ := settle_next h
    exact .quiet _ (quiet_setPos hp rfl)
  next hp => cases h; exact .offer _ hp
  next r hp =>
    unfold line26 at h
    split at h
    next hr =>
      obtain ⟨⟨v, u⟩, hu, ⟨⟩⟩ := settle_next h
      exact .remove (hr ▸ hp) hu
    next hr =>
      cases h
      refine .quiet _ (quiet_setPos hp ?_)
      rw [transit_batchPos, Pos.transit, if_neg hr]
  next => cases h

theorem execBrUartTx_move {s t : State} (h : execBrUartTx s = .next t) : BridgeMove .main s t := by
  unfold execBrUartTx at h
  split at h
  next hp => cases h; exact .quiet _ (quiet_setPos hp rfl)
  next hp =>
    unfold line32 at h
    split at h
    · obtain ⟨e, -, ⟨⟩⟩ := settle_next h
      exact .quiet _ (quiet_setPos hp rfl)
    · cases h; exact .quiet _ (quiet_setPos hp rfl)
  next hp =>
    unfold line33 at h
    split at h
    next hre =>
      obtain ⟨rfl, rfl⟩ := hre
      obtain ⟨⟨v, u⟩, hu, ⟨⟩⟩ := settle_next h
      exact .dequeue hp hu
    next => cases h; exact .quiet _ (quiet_setPos hp rfl)
  next got hp =>
    cases got with
    | none => cases h; exact .quiet _ (quiet_setPos hp rfl)
    | some b =>
      obtain ⟨u, hu, ⟨⟩⟩ := settle_next h
      exact .send b hp hu
  next => cases h

theorem execBrService_move {s t : State} (h : execBrService s = .next t) : BridgeMove .main s t := by
  unfold execBrService at h
  split at h <;> cases h
  next hp => exact .quiet _ ((quiet_setPos (q := .s42) hp rfl).trans (quiet_handOver _ _))
  next => exact .quiet _ (quiet_engineAct s)

theorem mainAct_move {s t : State} (hs : s.Inv) (h : mainAct s = .next t) : BridgeMove .main s t := by
  obtain ⟨-, rfl⟩ | ⟨-, -, rfl⟩ | ⟨-, -, ⟨hp, hb⟩ | ⟨c, -, hc⟩⟩ := mainAct_cases h
  · exact .quiet _ (quiet_setPos rfl rfl)
  · exact .quiet _ (quiet_engineAct s)
  · exact .quiet _ (quiet_bootAct hs hp hb)
  · obtain hi | hi | hi | hi := decodeS_cases c <;> rw [hi] at hc
    · exact execBrUsbRx_move hc
    · exact execBrUsbTx_move hc
    · exact execBrUartTx_move hc
    · exact execBrService_move hc

theorem isrAct_move {s t : State} (h : isrAct s = .next t) : BridgeMove .isr s t := by
  obtain ⟨-, rfl⟩ | ⟨-, -, -, rfl⟩ | ⟨b, -, rfl⟩ | ⟨-, -, rfl⟩ | ⟨b, u, hi, hu, rfl⟩ := isrAct_cases h
  · exact .quiet _ (quiet_setPos rfl rfl)
  · exact .quiet _ (quiet_of_sameFifos (takeInterrupt_fifo s) rfl rfl rfl)
  · exact .quiet _ (quiet_of_sameFifos (fun g => by cases g <;> rfl) rfl rfl rfl)
  · exact .quiet _ (quiet_of_sameFifos (returnFromInterrupt_fifo s) rfl rfl rfl)
  · exact .handle b hi hu

/-- A step of an agent is one of the moves, up to the end of the step. -/
theorem step_move {s t : State} {a : Agent} (hs : s.Inv) (hm : s.mover = .agent a) (h : step s = .next t) :
    ∃ u, BridgeMove a s u ∧ t = u.advance := by
  obtain ⟨u, hu, rfl⟩ := step_next h
  refine ⟨u, ?_, rfl⟩
  rw [hm] at hu
  cases a with
  | main => exact mainAct_move hs hu
  | isr => exact isrAct_move hu
  | wireRx => cases hu; exact .quiet _ (quiet_wireArrive _ s)
  | wireTx => cases hu; exact .quiet _ (quiet_wireFinish s)

/-! ## No byte is lost (R61, R140) -/

theorem setFifo_self (s : State) (f : Inst) : s.setFifo f (s.fifo f) = s := by cases f <;> rfl

/-- An INSERT that answers has replaced its instance at most. -/
theorem opInsert_setFifo {f : Inst} {b : Byte} {s u : State} (h : opInsert f b s = .ok u) :
    ∃ q, u = s.setFifo f q := by
  obtain ⟨-, -, ⟨-, rfl⟩ | ⟨-, rfl⟩⟩ := opInsert_ok h
  · exact ⟨_, (setFifo_self u f).symm⟩
  · exact ⟨_, rfl⟩

/-- A REMOVE that answers has replaced its instance only. -/
theorem opRemove_setFifo {f : Inst} {v : Byte} {s u : State} (h : opRemove f s = .ok (v, u)) :
    ∃ q, u = s.setFifo f q := by
  obtain ⟨-, -, -, -, rfl⟩ := opRemove_ok h
  exact ⟨_, rfl⟩

/-- An INSERT that answers puts the byte at the end, where there is room. -/
theorem opInsert_content {f : Inst} {b : Byte} {s u : State} (hok : (s.fifo f).Ok)
    (hroom : (s.fifo f).count.toNat < Config.cap f) (h : opInsert f b s = .ok u) :
    u.content f = s.content f ++ [b] := by
  obtain ⟨hi, -, ⟨hc, -⟩ | ⟨hc, rfl⟩⟩ := opInsert_ok h
  · exact absurd hc hroom.ne
  · exact content_pushed b hok hi hc

/-- A REMOVE that answers takes the byte from the front. -/
theorem opRemove_content {f : Inst} {v : Byte} {s u : State} (h : opRemove f s = .ok (v, u)) :
    s.content f = v :: u.content f := by
  obtain ⟨-, -, hc, hv, rfl⟩ := opRemove_ok h
  exact content_popped hc hv

/-- A byte taken and not yet removed is one of `U2H`. -/
theorem taken_le_length {s : State} (h : s.LocalsHold) : s.pos.transit.taken ≤ (s.content Config.u2h).length := by
  cases hp : s.pos with
  | s26 tK b tRes =>
    rw [State.LocalsHold, hp] at h
    obtain ⟨-, -, hhead⟩ := h
    have hpos : 0 < (s.content Config.u2h).length := List.length_pos_iff.mpr fun h0 => by simp [h0] at hhead
    rw [Pos.transit]
    dsimp only
    split <;> omega
  | _ => exact Nat.zero_le _

theorem towardsHost_congr {s t : State} (hc : t.content Config.u2h = s.content Config.u2h)
    (ho : t.usbOutLog = s.usbOutLog) (ht : t.pos.transit.taken = s.pos.transit.taken) :
    t.towardsHost = s.towardsHost := by
  rw [towardsHost_eq, towardsHost_eq, hc, ho, ht]

theorem towardsWire_congr {s t : State} (hc : t.content Config.h2u = s.content Config.h2u)
    (hr : t.pos.transit.received = s.pos.transit.received) (hd : t.pos.transit.dequeued = s.pos.transit.dequeued) :
    t.towardsWire = s.towardsWire := by
  rw [towardsWire_eq, towardsWire_eq, hc, hr, hd]

/-- Offering the first byte of `U2H` logs it exactly when it is from then on counted as taken (R129). -/
theorem towardsHost_offer {s : State} {k : Count Config.u2h} {b : Byte} (r : SendResult) (hp : s.pos = .s25 k b)
    (h : s.LocalsHold) :
    ({ s with usbOutLog := appendIf (r == SendResult.ok) s.usbOutLog b }.setPos (.s26 k b r)).towardsHost =
      s.towardsHost := by
  rw [State.LocalsHold, hp] at h
  obtain ⟨-, -, hhead⟩ := h
  obtain ⟨tl, htl⟩ := List.head?_eq_some_iff.mp hhead
  have hc : ({ s with usbOutLog := appendIf (r == SendResult.ok) s.usbOutLog b } : State).content Config.u2h = b :: tl :=
    htl
  rw [towardsHost_eq, towardsHost_eq, setPos_content, hc, htl, hp]
  cases r with
  | ok => exact List.append_assoc _ _ _
  | wouldBlock | error => rfl

/-- Towards the host only the handler's last action adds a byte, and no action takes one away. -/
theorem move_towardsHost {s u : State} {a : Agent} (hs : s.AgentInv) (h : BridgeMove a s u) :
    u.towardsHost = s.towardsHost ∨
      ∃ b, a = .isr ∧ s.isr = .gotFull b false ∧ u.towardsHost = s.towardsHost ++ [b] := by
  cases h with
  | quiet _ hq => exact .inl (towardsHost_congr (hq.content _) hq.usbOut (by rw [hq.transit]))
  | poll b hp => exact .inl (towardsHost_congr rfl rfl (by rw [hp]; rfl))
  | store _ hp hu =>
    obtain ⟨q, rfl⟩ := opInsert_setFifo hu
    exact .inl (towardsHost_congr rfl rfl (by rw [hp]; rfl))
  | offer r hp => exact .inl (towardsHost_offer r hp hs.locals)
  | remove hp hu =>
    have hc := opRemove_content hu
    obtain ⟨q, rfl⟩ := opRemove_setFifo hu
    refine .inl ?_
    rw [towardsHost_eq, towardsHost_eq, setPos_content, setPos_pos, transit_batchPos, hp, hc]
    rfl
  | dequeue hp hu =>
    obtain ⟨q, rfl⟩ := opRemove_setFifo hu
    exact .inl (towardsHost_congr rfl rfl (by rw [hp]; rfl))
  | send _ hp hu =>
    obtain ⟨-, rfl⟩ := opSend_ok hu
    exact .inl (towardsHost_congr rfl rfl (by rw [hp]; rfl))
  | handle b hi hu =>
    have hc := opInsert_content (hs.inv.fifos _) (hs.handlerRoom b hi) hu
    obtain ⟨q, rfl⟩ := opInsert_setFifo hu
    have hc' : (returnFromInterrupt (s.setFifo Config.u2h q)).content Config.u2h = s.content Config.u2h ++ [b] := hc
    refine .inr ⟨b, rfl, hi, ?_⟩
    rw [towardsHost_eq, towardsHost_eq, hc', List.append_assoc,
      ← List.drop_append_of_le_length (taken_le_length hs.locals)]
    rfl

/-- Settles O51: by the move the step makes. -/
theorem nothingIsLostTowardsTheHost : Obligations.NothingIsLostTowardsTheHost := by
  intro s t a hs hm hst
  obtain ⟨u, hu, rfl⟩ := step_move hs.inv hm hst
  exact move_towardsHost (u := u) hs hu

/-- Towards the wire bytes join at the end as logged, and leave from the front for the transmitter, which was idle. -/
def WireFlow (s t : State) : Prop :=
  ∃ taken given : List Byte, t.usbInLog = s.usbInLog ++ taken ∧ given ++ t.towardsWire = s.towardsWire ++ taken ∧
    (given = [] ∨ ∃ b, given = [b] ∧ s.txshift = none ∧ t.txshift = some b)

theorem wireFlow_of_same {s t : State} (hlog : t.usbInLog = s.usbInLog) (hw : t.towardsWire = s.towardsWire) :
    WireFlow s t :=
  ⟨[], [], by rw [hlog, List.append_nil], by rw [hw, List.nil_append, List.append_nil], .inl rfl⟩

theorem move_wireFlow {s u : State} {a : Agent} (hs : s.AgentInv) (h : BridgeMove a s u) : WireFlow s u := by
  cases h with
  | quiet _ hq =>
    exact wireFlow_of_same hq.usbIn (towardsWire_congr (hq.content _) (by rw [hq.transit]) (by rw [hq.transit]))
  | poll b hp =>
    refine ⟨[b], [], rfl, ?_, .inl rfl⟩
    rw [towardsWire_eq, towardsWire_eq, hp]
    exact congrArg (· ++ [b]) (List.append_nil _).symm
  | store b hp hu =>
    have hroom := hs.locals
    rw [State.LocalsHold, hp] at hroom
    have hc := opInsert_content (hs.inv.fifos _) (hroom rfl) hu
    obtain ⟨q, rfl⟩ := opInsert_setFifo hu
    refine wireFlow_of_same rfl ?_
    rw [towardsWire_eq, towardsWire_eq, setPos_content, hc, hp]
    exact List.append_nil _
  | offer r hp => exact wireFlow_of_same rfl (towardsWire_congr rfl (by rw [hp]; rfl) (by rw [hp]; rfl))
  | remove hp hu =>
    obtain ⟨q, rfl⟩ := opRemove_setFifo hu
    refine wireFlow_of_same rfl (towardsWire_congr rfl ?_ ?_) <;> rw [setPos_pos, transit_batchPos, hp] <;> rfl
  | dequeue hp hu =>
    have hc := opRemove_content hu
    obtain ⟨q, rfl⟩ := opRemove_setFifo hu
    refine wireFlow_of_same rfl ?_
    rw [towardsWire_eq, towardsWire_eq, setPos_content, hc, hp]
    rfl
  | send b hp hu =>
    obtain ⟨hready, rfl⟩ := opSend_ok hu
    obtain ⟨-, hidle⟩ := (sendReady_iff s).mp hready
    refine ⟨[], [b], (List.append_nil _).symm, ?_, .inr ⟨b, rfl, hidle, rfl⟩⟩
    rw [towardsWire_eq, towardsWire_eq, hp, List.append_nil]
    rfl
  | handle _ _ hu =>
    obtain ⟨q, rfl⟩ := opInsert_setFifo hu
    exact wireFlow_of_same rfl (towardsWire_congr rfl rfl rfl)

/-- Settles O52: by the move the step makes. -/
theorem nothingIsLostTowardsTheWire : Obligations.NothingIsLostTowardsTheWire := by
  intro s t a hs hm hst
  obtain ⟨u, hu, rfl⟩ := step_move hs.inv hm hst
  exact move_wireFlow (u := u) hs hu


/-! ## The updates of the lines (R129, R132) -/

/-- A byte taken from the USB host is logged. -/
def State.logUsbIn (s : State) (b : Byte) : State := { s with usbInLog := s.usbInLog ++ [b] }

/-- A byte the USB stack took is logged. -/
def State.logUsbOut (s : State) (b : Byte) : State := { s with usbOutLog := s.usbOutLog ++ [b] }

/-- A byte is in the transmitter. -/
def State.transmit (s : State) (b : Byte) : State := { s with txshift := some b }

@[simp] theorem transmit_fifo (s : State) (b : Byte) (g : Inst) : (s.transmit b).fifo g = s.fifo g := by cases g <;> rfl

@[simp] theorem logUsbIn_usbInLog (s : State) (b : Byte) : (s.logUsbIn b).usbInLog = s.usbInLog ++ [b] := rfl

@[simp] theorem logUsbOut_usbOutLog (s : State) (b : Byte) : (s.logUsbOut b).usbOutLog = s.usbOutLog ++ [b] := rfl

@[simp] theorem logUsbIn_fifo (s : State) (b : Byte) (g : Inst) : (s.logUsbIn b).fifo g = s.fifo g := by cases g <;> rfl

@[simp] theorem logUsbOut_fifo (s : State) (b : Byte) (g : Inst) : (s.logUsbOut b).fifo g = s.fifo g := by cases g <;> rfl

/-! ## The lines of step 1 (R130) -/

section
variable {s : State}

theorem exec_line11 (hi : (s.fifo Config.h2u).inited = true) (hp : s.pos = .s11) :
    exec .brUsbRx s = .next (s.setPos (.s12 (s.full Config.h2u))) := by
  simp only [exec, execBrUsbRx, hp, line11, opIsFull_pass _ s hi, settle_ok]

theorem exec_line12_none {tFull : Bool} (hp : s.pos = .s12 tFull) (h : tFull = true ∨ s.draws.poll = none) :
    exec .brUsbRx s = .next (s.setPos (.s13 none)) := by
  simp only [exec, execBrUsbRx, hp, line12]
  split
  next => rfl
  next hfull => rw [h.resolve_left hfull]

theorem exec_line12_some {b : Byte} (hp : s.pos = .s12 false) (hd : s.draws.poll = some b) :
    exec .brUsbRx s = .next ((s.logUsbIn b).setPos (.s13 (some b))) := by
  simp only [exec, execBrUsbRx, hp, line12, hd, Bool.false_eq_true, if_false]
  rfl

theorem exec_line13_none (hp : s.pos = .s13 none) : exec .brUsbRx s = .next (s.setPos .s21) := by
  simp only [exec, execBrUsbRx, hp, line13]

theorem exec_line13_some {b : Byte} {u : State} (hp : s.pos = .s13 (some b)) (hu : opInsert Config.h2u b s = .ok u) :
    exec .brUsbRx s = .next (u.setPos .s21) := by
  simp only [exec, execBrUsbRx, hp, line13, hu, settle_ok]

/-! ## The lines of step 2 (R131) -/

theorem exec_line21 (hi : (s.fifo Config.u2h).inited = true) (hp : s.pos = .s21) :
    exec .brUsbTx s = .next (s.setPos (.s22 (s.fifo Config.u2h).count)) := by
  simp only [exec, execBrUsbTx, hp, line21, opCount_pass _ s hi, settle_ok]

theorem exec_line22 {n : Count Config.u2h} (hp : s.pos = .s22 n) :
    exec .brUsbTx s = .next (s.setPos (.s23 n (if 0 < n.toNat then s.draws.ready else false))) := by
  simp only [exec, execBrUsbTx, hp, line22]

theorem exec_line23 {n : Count Config.u2h} {tReady : Bool} (hp : s.pos = .s23 n tReady) :
    exec .brUsbTx s = .next (s.setPos (batchPos (if 0 < n.toNat ∧ tReady = true then batchBound n else 0))) := by
  simp only [exec, execBrUsbTx, hp, line23]

theorem exec_line24 {k : Count Config.u2h} {b : Byte} (hp : s.pos = .s24 k) (hb : opPeek Config.u2h s = .ok b) :
    exec .brUsbTx s = .next (s.setPos (.s25 k b)) := by
  simp only [exec, execBrUsbTx, hp, line24, hb, settle_ok]

theorem exec_line25_ok {k : Count Config.u2h} {b : Byte} (hp : s.pos = .s25 k b) (hd : s.draws.sent = .ok) :
    exec .brUsbTx s = .next ((s.logUsbOut b).setPos (.s26 k b .ok)) := by
  simp only [exec, execBrUsbTx, hp, line25, hd]
  rfl

theorem exec_line25_unsent {k : Count Config.u2h} {b : Byte} (hp : s.pos = .s25 k b) (hd : s.draws.sent ≠ .ok) :
    exec .brUsbTx s = .next (s.setPos (.s26 k b s.draws.sent)) := by
  simp only [exec, execBrUsbTx, hp, line25, beq_false_of_ne hd]
  rfl

theorem exec_line26_ok {k : Count Config.u2h} {b v : Byte} {u : State} (hp : s.pos = .s26 k b .ok)
    (hu : opRemove Config.u2h s = .ok (v, u)) : exec .brUsbTx s = .next (u.setPos (batchPos (k - 1))) := by
  simp only [exec, execBrUsbTx, hp, line26, if_true, hu, settle_ok]

theorem exec_line26_abort {k : Count Config.u2h} {b : Byte} {r : SendResult} (hp : s.pos = .s26 k b r)
    (hr : r ≠ .ok) : exec .brUsbTx s = .next (s.setPos .s31) := by
  simp only [exec, execBrUsbTx, hp, line26, if_neg hr]
  rfl

/-! ## The lines of step 3 (R132) -/

theorem exec_line31 (hp : s.pos = .s31) : exec .brUartTx s = .next (s.setPos (.s32 s.sendReady)) := by
  simp only [exec, execBrUartTx, hp, line31]

theorem exec_line32 {tReady : Bool} (hi : (s.fifo Config.h2u).inited = true) (hp : s.pos = .s32 tReady) :
    exec .brUartTx s = .next (s.setPos (.s33 tReady (!tReady || s.empty Config.h2u))) := by
  simp only [exec, execBrUartTx, hp, line32, opIsEmpty_pass _ s hi, settle_ok]
  cases tReady <;> rfl

theorem exec_line33_some {v : Byte} {u : State} (hp : s.pos = .s33 true false)
    (hu : opRemove Config.h2u s = .ok (v, u)) : exec .brUartTx s = .next (u.setPos (.s34 (some v))) := by
  simp only [exec, execBrUartTx, hp, line33, and_self, if_true, hu, settle_ok]

theorem exec_line33_none {tReady tEmpty : Bool} (hp : s.pos = .s33 tReady tEmpty)
    (h : ¬(tReady = true ∧ tEmpty = false)) : exec .brUartTx s = .next (s.setPos (.s34 none)) := by
  simp only [exec, execBrUartTx, hp, line33, if_neg h]

theorem exec_line34_none (hp : s.pos = .s34 none) : exec .brUartTx s = .next (s.setPos .s41) := by
  simp only [exec, execBrUartTx, hp, line34]

theorem exec_line34_some {b : Byte} (hp : s.pos = .s34 (some b)) (hr : s.sendReady = true) :
    exec .brUartTx s = .next ((s.transmit b).setPos .s41) := by
  simp only [exec, execBrUartTx, hp, line34, opSend_pass b s hr, settle_ok]
  rfl

/-! ## The lines of step 4 (R133) -/

theorem exec_line41 (hp : s.pos = .s41) (he : s.engine = none) :
    exec .brService s = .next (startNext s.draws.events (s.setPos .s42)) := by
  simp only [exec, execBrService, hp, line41, handOver, setPos_engine, he]

theorem exec_line42 {p : Phase} {r : LineReq} (hp : s.pos = .s42) (he : s.engine = some (p, r)) :
    exec .brService s = .next (phaseAct p r s) := by
  simp only [exec, execBrService, hp, line42, engineAct, he]

end

/-! ## The statements about the lines -/

/-- INSERT by the producer completes, and as an instruction it answers the operation's state without a response. -/
theorem opInsert_completes {f : Inst} {s : State} (b : Byte) (hi : (s.fifo f).inited = true)
    (ho : producer f = some s.ctx) :
    ∃ u, opInsert f b s = .ok u ∧ exec (.insert (selectOf f) b) s = .next (u.respond none) ∧ u.resp = s.resp := by
  have hissue := (mayIssue_insert_iff f s).mpr ho
  by_cases hc : (s.fifo f).count.toNat = Config.cap f
  · exact ⟨s, opInsert_full f b s hi hissue hc, exec_insert_full b hi ho hc, rfl⟩
  · exact ⟨_, opInsert_accept f b s hi hissue hc, exec_insert_accept b hi ho hc, setFifo_resp s f _⟩

/-- A state of an operation, put where a line goes on, drops the response that the instruction would have given. -/
theorem setPos_eq_of_resp {s u : State} (p : Pos) (r : Option Response) (h : u.resp = s.resp) :
    u.setPos p = { u.respond r with pos := p, resp := s.resp } := by
  rw [← h]
  rfl

/-- Settles O39: the equation of each line; INSERT completes whether `H2U` is full or not. -/
theorem usbReceiveLines : Obligations.UsbReceiveLines := by
  intro s hi
  refine ⟨exec_line11 hi, fun hp => exec_line12_none hp (.inl rfl), fun hp hd => exec_line12_none hp (.inr hd),
    fun b hp hd => ?_, exec_line13_none, fun b hp hc => ?_⟩
  · rw [exec_line12_some hp hd]
    rfl
  · obtain ⟨u, hu, hexec, hresp⟩ := opInsert_completes b hi (by rw [hc]; rfl)
    refine ⟨_, hexec, ?_⟩
    rw [exec_line13_some hp hu, setPos_eq_of_resp _ none hresp]

/-- The bound of a batch is at least one byte when there is one to send, since the endpoint holds two (R6, R137). -/
theorem batchPos_batchBound (n : Count Config.u2h) :
    batchPos (if 0 < n.toNat ∧ true = true then batchBound n else 0) =
      if n.toNat = 0 then .s31 else .s24 (batchBound n) := by
  by_cases hn : n.toNat = 0
  · rw [if_pos hn, if_neg fun h => h.1.ne' hn]
    rfl
  · have hb : (batchBound n).toNat ≠ 0 := by
      rw [batchBound_toNat, Config.epSize]
      omega
    rw [if_neg hn, if_pos ⟨Nat.pos_of_ne_zero hn, rfl⟩, batchPos, if_neg hb]

/-- Settles O40: the equation of each line. -/
theorem usbTransmitLines : Obligations.UsbTransmitLines := by
  intro s hi
  refine ⟨exec_line21 hi, fun n => exec_line22, fun n hp => ?_, fun n hp => ⟨batchBound n, batchBound_toNat n, ?_⟩,
    fun k v hp hc hne hv => ?_, fun k b => exec_line25_ok, fun k b => exec_line25_unsent, fun k b v hp hc hne hv => ?_,
    fun k b a hp hr => exec_line26_abort hp hr⟩
  · rw [exec_line23 hp, if_neg (by simp)]
    rfl
  · rw [exec_line23 hp, batchPos_batchBound]
    rfl
  · exact exec_line24 hp (opPeek_pass _ s v hi ((mayIssue_peek_iff _ s).mpr (by rw [hc]; rfl)) hne hv)
  · have ho : consumer Config.u2h = some s.ctx := by rw [hc]; rfl
    refine ⟨_, exec_remove_pass hi ho hne hv, ?_⟩
    rw [exec_line26_ok hp (opRemove_pass _ s v hi ((mayIssue_remove_iff _ s).mpr ho) hne hv)]
    rfl

/-- Settles O41: the equation of each line. -/
theorem uartTransmitLines : Obligations.UartTransmitLines := by
  intro s hi
  refine ⟨exec_line31, exec_line32 hi, exec_line32 hi, fun v hp hc hne hv => ?_, fun e hp => ?_, fun b => exec_line34_some,
    exec_line34_none⟩
  · have ho : consumer Config.h2u = some s.ctx := by rw [hc]; rfl
    refine ⟨_, exec_remove_pass hi ho hne hv, ?_⟩
    rw [exec_line33_some hp (opRemove_pass _ s v hi ((mayIssue_remove_iff _ s).mpr ho) hne hv)]
    rfl
  · rcases hp with hp | hp <;> exact exec_line33_none hp (by simp)

/-- Settles O42: line 4.1 starts the first acceptable request (log 9), and line 4.2 is the step's own phase. -/
theorem serviceLines : Obligations.ServiceLines := by
  refine fun s pre rest x r p hpre => ⟨fun hp he hd => ?_, fun hp he hd hx => ?_, fun hp he hm hc => ?_⟩
  · rw [exec_line41 hp he, hd, startNext_none pre _ hpre]
    rfl
  · rw [exec_line41 hp he, hd, startNext_first pre rest _ hpre hx]
    rfl
  · exact ⟨_, exec_line42 hp he, step_of_phase hm hc he⟩

/-! ## Runs of lines -/

/-- MAIN is running with the engine idle, and these turns of MAIN come next. -/
structure State.MainNext (s : State) (ds : List Draws) (rest : List Input) : Prop where
  ctx : s.ctx = .main
  idle : s.engine = none
  inputs : s.inputs = turns .main ds ++ rest

theorem State.MainNext.draws {s : State} {d : Draws} {ds : List Draws} {rest : List Input} (h : s.MainNext (d :: ds) rest) :
    s.draws = d :=
  draws_of_inputs h.inputs

/-- A turn of MAIN at a line that completes and leaves context, engine and inputs alone. -/
theorem State.MainNext.line {s u : State} {i : Instr} {d : Draws} {ds : List Draws} {rest : List Input}
    (h : s.MainNext (d :: ds) rest) (hu : exec i s = .next u) (hi : s.pos.code.map decodeS = some i)
    (hk : u.ctx = s.ctx ∧ u.engine = s.engine ∧ u.inputs = s.inputs := by exact ⟨rfl, rfl, rfl⟩) :
    u.advance.MainNext ds rest ∧
      ∀ k, Host.Core.run Sys2Proof.core (k + 1) s = Host.Core.run Sys2Proof.core k u.advance := by
  obtain ⟨c, hc, rfl⟩ := Option.map_eq_some_iff.mp hi
  obtain ⟨hctx, hidle, hinputs⟩ := hk
  refine ⟨⟨hctx.trans h.ctx, hidle.trans h.idle, ?_⟩, fun k => run_turn h.inputs ?_⟩
  · exact congrArg List.tail (hinputs.trans h.inputs)
  · exact (mainAct_code h.ctx h.idle hc).trans hu

/-- Past boot the agents' invariant gives every instance ready (R169). -/
theorem State.AgentInv.ready {s : State} {n : Nat} (h : s.AgentInv) (hp : s.pos.stepNo = some n) (f : Inst) : s.Ready f := by
  refine ⟨h.inv.fifos f, ?_⟩
  have hinit : s.fifo0.inited = true ∧ s.fifo1.inited = true ∧ s.fifo2.inited = true := by
    have hi := h.inits
    unfold State.InitsFollow at hi
    cases hpos : s.pos with
    | b1 | b2 | b3 | b4 | b5 => rw [hpos] at hp; cases hp
    | _ => rw [hpos] at hi; exact hi
  obtain ⟨h0, h1, h2⟩ := hinit
  cases f with
  | f0 => exact h0
  | f1 => exact h1
  | f2 => exact h2

/-- Outside 4.2 the engine is idle, so that the next turns of MAIN run lines. -/
theorem State.AgentInv.mainNext {s : State} {ds : List Draws} {rest : List Input} (h : s.AgentInv) (hc : s.ctx = .main)
    (hp : s.pos ≠ .s42) (hi : s.inputs = turns .main ds ++ rest) : s.MainNext ds rest :=
  ⟨hc, by
    rw [← Option.not_isSome_iff_eq_none]
    exact fun he => hp (h.engineAt42 he), hi⟩

/-- What a step of the sequencer that works on instance `f` leaves unchanged. -/
def StepFrame (f : Inst) (s t : State) : Prop :=
  SameOtherFifos f s t ∧ SameUart s t ∧ SameEngine s t ∧ SameContext s t

theorem StepFrame.refl (f : Inst) (s : State) : StepFrame f s s :=
  ⟨fun _ _ => rfl, ⟨.refl s, ⟨rfl, rfl, rfl⟩, rfl⟩, ⟨rfl, rfl⟩, rfl, rfl⟩

theorem StepFrame.trans {f : Inst} {s t u : State} (h : StepFrame f s t) (h' : StepFrame f t u) : StepFrame f s u := by
  obtain ⟨ho, ⟨hc, hr, hx⟩, he, hk⟩ := h
  obtain ⟨ho', ⟨hc', hr', hx'⟩, he', hk'⟩ := h'
  refine ⟨fun g hg => (ho' g hg).trans (ho g hg), ?_, ?_, ?_⟩
  all_goals simp_all [SameUart, SameConfiguration, SameReceiver, SameEngine, SameContext]

theorem StepFrame.setPos {f : Inst} {s t : State} (h : StepFrame f s t) (p : Pos) : StepFrame f s (t.setPos p) :=
  ⟨fun g hg => (setPos_fifo t p g).trans (h.1 g hg), h.2⟩

theorem StepFrame.advance {f : Inst} {s t : State} (h : StepFrame f s t) : StepFrame f s t.advance :=
  ⟨fun g hg => (advance_fifo t g).trans (h.1 g hg), h.2⟩

theorem StepFrame.logUsbIn {f : Inst} {s t : State} (h : StepFrame f s t) (b : Byte) : StepFrame f s (t.logUsbIn b) :=
  ⟨fun g hg => (logUsbIn_fifo t b g).trans (h.1 g hg), h.2⟩

theorem StepFrame.logUsbOut {f : Inst} {s t : State} (h : StepFrame f s t) (b : Byte) :
    StepFrame f s (t.logUsbOut b) :=
  ⟨fun g hg => (logUsbOut_fifo t b g).trans (h.1 g hg), h.2⟩

theorem StepFrame.setFifo {f : Inst} {s t : State} (h : StepFrame f s t) (q : Fifo f) : StepFrame f s (t.setFifo f q) :=
  h.trans ⟨fun g hg => setFifo_fifo_other t f g q hg, by simp [SameUart, SameConfiguration, SameReceiver],
    by simp [SameEngine], by simp [SameContext]⟩

/-! ## Step 1 as a whole (R130) -/

/-- Settles O44: by whether a byte is polled, which it is not when `H2U` is full. -/
theorem stepOneMovesAtMostOneByte : Obligations.StepOneMovesAtMostOneByte := by
  intro s d1 d2 d3 rest hs hp hc hi
  obtain ⟨hok, hinit⟩ := hs.ready (n := 1) (by rw [hp]; rfl) Config.h2u
  have h0 := hs.mainNext hc (by rw [hp]; nofun) hi
  obtain ⟨h1, r1⟩ := h0.line (exec_line11 hinit hp) (by rw [hp]; rfl)
  by_cases hnone : s.full Config.h2u = true ∨ d2.poll = none
  · obtain ⟨h2, r2⟩ := h1.line (exec_line12_none rfl (by rwa [h1.draws])) rfl
    obtain ⟨-, r3⟩ := h2.line (exec_line13_none rfl) rfl
    refine ⟨_, (r1 2).trans ((r2 1).trans (r3 0)), rfl, fun _ => by simp, fun hroom => ?_,
      ((((StepFrame.refl _ s).setPos _).advance.setPos _).advance.setPos _).advance⟩
    simp [hnone.resolve_left (by simp [hroom])]
  · obtain ⟨hroom, hpoll⟩ := not_or.mp hnone
    obtain ⟨b, hb⟩ := Option.ne_none_iff_exists'.mp hpoll
    have hne : (s.fifo Config.h2u).count.toNat ≠ Config.cap Config.h2u := by rwa [full_iff] at hroom
    obtain ⟨h2, r2⟩ := h1.line (exec_line12_some (b := b) (by simp [hroom]) (by rw [h1.draws, hb])) rfl
    have hissue := (mayIssue_insert_iff Config.h2u _).mpr (congrArg some h2.ctx.symm)
    have hu := opInsert_accept Config.h2u b _ (by simpa using hinit) hissue (by simpa using hne)
    obtain ⟨-, r3⟩ := h2.line (exec_line13_some rfl hu) rfl (by simp)
    refine ⟨_, (r1 2).trans ((r2 1).trans (r3 0)), rfl, fun hfull => absurd hfull hroom, fun _ => ?_,
      ((((((StepFrame.refl _ s).setPos _).advance.logUsbIn b).setPos _).advance.setFifo _).setPos _).advance⟩
    rw [hb]
    refine ⟨(content_congr ?_).trans (content_pushed b hok hinit hne), ?_⟩ <;> simp

/-! ## Step 2 as a whole (R131) -/

/-- An instance that is ready and not empty has a first byte, which the consumer's PEEK and REMOVE answer in every state
with the same instance. -/
theorem exists_head {f : Inst} {s : State} (h : s.Ready f) (hc : (s.fifo f).count.toNat ≠ 0) :
    ∃ v, s.content f = v :: (s.setFifo f (s.fifo f).popped).content f ∧
      ∀ t : State, t.fifo f = s.fifo f → consumer f = some t.ctx →
        opPeek f t = .ok v ∧ opRemove f t = .ok (v, t.setFifo f (s.fifo f).popped) := by
  obtain ⟨v, hv⟩ := ok_head h.ok h.inited hc
  refine ⟨v, content_popped hc hv, fun t hf ho => ?_⟩
  obtain ⟨-, hi⟩ := h
  rw [← hf] at hi hc hv ⊢
  exact ⟨opPeek_pass f t v hi ((mayIssue_peek_iff f t).mpr ho) hc hv,
    opRemove_pass f t v hi ((mayIssue_remove_iff f t).mpr ho) hc hv⟩

/-- One round of the batch, lines 2.4 to 2.6 with the answer `ok`: the first byte of `U2H` goes to the USB stack. -/
theorem run_batch_round {s : State} {k : Count Config.u2h} {d1 d2 d3 : Draws} {ds : List Draws} {rest : List Input}
    (h : s.MainNext (d1 :: d2 :: d3 :: ds) rest) (hp : s.pos = .s24 k) (hr : s.Ready Config.u2h)
    (hc : (s.fifo Config.u2h).count.toNat ≠ 0) (hok : d2.sent = .ok) :
    ∃ v t, (∀ n, Host.Core.run Sys2Proof.core (n + 3) s = Host.Core.run Sys2Proof.core n t) ∧ t.MainNext ds rest ∧
      t.pos = batchPos (k - 1) ∧ t.Ready Config.u2h ∧ s.content Config.u2h = v :: t.content Config.u2h ∧
      t.usbOutLog = s.usbOutLog ++ [v] ∧ StepFrame Config.u2h s t := by
  obtain ⟨v, hv, hhead⟩ := exists_head hr hc
  obtain ⟨hpeek, -⟩ := hhead s rfl (by rw [h.ctx]; rfl)
  obtain ⟨h1, r1⟩ := h.line (exec_line24 hp hpeek) (by rw [hp]; rfl)
  obtain ⟨h2, r2⟩ := h1.line (exec_line25_ok rfl (by rw [h1.draws, hok])) rfl
  obtain ⟨-, hremove⟩ := hhead _ (by simp) (congrArg some h2.ctx.symm)
  obtain ⟨h3, r3⟩ := h2.line (exec_line26_ok rfl hremove) rfl (by simp)
  refine ⟨v, _, fun n => (r1 (n + 2)).trans ((r2 (n + 1)).trans (r3 n)), h3, rfl, ⟨?_, ?_⟩, ?_, by simp,
    ((((((StepFrame.refl _ s).setPos _).advance.logUsbOut v).setPos _).advance.setFifo _).setPos _).advance⟩
  · simpa using popped_ok hr.ok hr.inited hc
  · simpa using hr.inited
  · rw [hv]
    simp

/-- The batch from its head, by induction on the number of bytes still to send. -/
theorem run_batch {rest : List Input} (n : Nat) {s : State} {k : Count Config.u2h} {ds : List Draws}
    (hk : k.toNat = n) (h : s.MainNext ds rest) (hl : ds.length = 3 * n) (hok : ∀ d ∈ ds, d.sent = .ok)
    (hp : s.pos = batchPos k) (hr : s.Ready Config.u2h) (hn : n ≤ (s.content Config.u2h).length) :
    ∃ t, Host.Core.run Sys2Proof.core (3 * n) s = .next t ∧ t.pos = .s31 ∧
      t.content Config.u2h = (s.content Config.u2h).drop n ∧
      t.usbOutLog = s.usbOutLog ++ (s.content Config.u2h).take n ∧ StepFrame Config.u2h s t := by
  induction n generalizing s k ds with
  | zero => exact ⟨s, rfl, by rw [hp, batchPos, if_pos hk], rfl, (List.append_nil _).symm, .refl _ s⟩
  | succ n ih =>
    match ds, hl with
    | d1 :: d2 :: d3 :: ds, hl =>
      have hk0 : k.toNat ≠ 0 := by omega
      have hc : (s.fifo Config.u2h).count.toNat ≠ 0 := by
        rw [← content_length hr.ok hr.inited]
        omega
      rw [batchPos, if_neg hk0] at hp
      obtain ⟨v, t, hrun, hnext, hpos, hready, hcontent, hlog, hframe⟩ := run_batch_round h hp hr hc (hok d2 (by simp))
      have hkn : (k - 1).toNat = n := by rw [count_pred_toNat k hk0, hk, Nat.add_sub_cancel]
      rw [hcontent] at hn ⊢
      obtain ⟨u, hu, hend, hrest, hout, hframe'⟩ := ih hkn hnext (by simpa [Nat.mul_succ] using hl)
        (fun d hd => hok d (by simp [hd])) hpos hready (Nat.le_of_succ_le_succ hn)
      refine ⟨u, (hrun (3 * n)).trans hu, hend, hrest, ?_, hframe.trans hframe'⟩
      rw [hout, hlog, List.append_assoc]
      rfl

/-- Settles O45: MAIN stands at the head of the batch, and its bound is at most the count. -/
theorem batchSendsInOrder : Obligations.BatchSendsInOrder := by
  intro k s ds rest hs hp hc hl hok hi
  have hr := hs.ready (n := 2) (by rw [hp]; rfl) Config.u2h
  have hlocals := hs.locals
  rw [State.LocalsHold, hp] at hlocals
  obtain ⟨hpos, hle⟩ := hlocals
  refine run_batch k.toNat rfl (hs.mainNext hc (by rw [hp]; nofun) hi) hl hok ?_ hr ?_
  · rw [hp, batchPos, if_neg hpos.ne']
  · rwa [content_length hr.ok hr.inited]

/-- Settles O46: the run through the line that aborts the batch, and the one through a bound of no byte. -/
theorem unsentBytesStayQueued : Obligations.UnsentBytesStayQueued := by
  intro s d1 d2 d3 rest hs hc hi
  refine ⟨fun k hp hd => ?_, fun hp hd => ?_⟩
  · have hr := hs.ready (n := 2) (by rw [hp]; rfl) Config.u2h
    have hlocals := hs.locals
    rw [State.LocalsHold, hp] at hlocals
    obtain ⟨hpos, hle⟩ := hlocals
    obtain ⟨v, -, hhead⟩ := exists_head hr (by omega)
    obtain ⟨hpeek, -⟩ := hhead s rfl (by rw [hc]; rfl)
    have h0 := hs.mainNext hc (by rw [hp]; nofun) hi
    obtain ⟨h1, r1⟩ := h0.line (exec_line24 hp hpeek) (by rw [hp]; rfl)
    obtain ⟨h2, r2⟩ := h1.line (exec_line25_unsent rfl (by rwa [h1.draws])) rfl
    obtain ⟨-, r3⟩ := h2.line (exec_line26_abort rfl (by rwa [h1.draws])) rfl
    refine ⟨_, (r1 2).trans ((r2 1).trans (r3 0)), rfl, fun g => by simp, ?_, ?_⟩
    · simp [SameUart, SameConfiguration, SameReceiver]
    · simp [SameTraces]
  · have hr := hs.ready (n := 2) (by rw [hp]; rfl) Config.u2h
    have h0 := hs.mainNext hc (by rw [hp]; nofun) hi
    obtain ⟨h1, r1⟩ := h0.line (exec_line21 hr.inited hp) (by rw [hp]; rfl)
    obtain ⟨h2, r2⟩ := h1.line (exec_line22 rfl) rfl
    obtain ⟨-, r3⟩ := h2.line (exec_line23 rfl) rfl
    refine ⟨_, (r1 2).trans ((r2 1).trans (r3 0)), ?_, fun g => by simp, ?_, ?_⟩
    · simp [h1.draws, hd]
      rfl
    · simp [SameUart, SameConfiguration, SameReceiver]
    · simp [SameTraces]

/-! ## Step 3 as a whole (R132) -/

/-- Settles O47: by whether the transmitter is ready and a byte is queued. -/
theorem stepThreeSendsTheOldestByte : Obligations.StepThreeSendsTheOldestByte := by
  intro s d1 d2 d3 d4 rest hs hp hc hi
  have hr := hs.ready (n := 3) (by rw [hp]; rfl) Config.h2u
  have h0 := hs.mainNext hc (by rw [hp]; nofun) hi
  obtain ⟨h1, r1⟩ := h0.line (exec_line31 hp) (by rw [hp]; rfl)
  obtain ⟨h2, r2⟩ := h1.line (exec_line32 (by simpa using hr.inited) rfl) rfl
  by_cases hsend : s.sendReady = true ∧ s.empty Config.h2u = false
  · obtain ⟨hready, hempty⟩ := hsend
    have hne : (s.fifo Config.h2u).count.toNat ≠ 0 := (empty_false_iff s _).mp hempty
    obtain ⟨v, hv, hhead⟩ := exists_head hr hne
    obtain ⟨-, hremove⟩ := hhead _ (by simp) (congrArg some h2.ctx.symm)
    obtain ⟨h3, r3⟩ := h2.line (exec_line33_some (by simp [hready, hempty]) hremove) rfl (by simp)
    obtain ⟨-, r4⟩ := h3.line (exec_line34_some rfl (by simpa using hready)) rfl
    refine ⟨_, (r1 3).trans ((r2 2).trans ((r3 1).trans (r4 0))), rfl, fun b q _ hq => ?_, fun hno => ?_,
      fun g hg => ?_, ?_, ?_, ?_⟩
    · obtain ⟨rfl, rfl⟩ := List.cons.inj (hv.symm.trans hq)
      exact ⟨content_congr (by simp), rfl⟩
    · simp [hready, hv] at hno
    · simp [setFifo_fifo_other _ _ g _ hg]
    · simp [SameConfiguration, State.transmit]
    · simp [SameReceiver, State.transmit]
    · simp [SameTraces, State.transmit]
  · obtain ⟨h3, r3⟩ := h2.line (exec_line33_none rfl (by simpa using hsend)) rfl
    obtain ⟨-, r4⟩ := h3.line (exec_line34_none rfl) rfl
    refine ⟨_, (r1 3).trans ((r2 2).trans ((r3 1).trans (r4 0))), rfl, fun b q hready hq => ?_,
      fun _ => ⟨fun g => by simp, by simp⟩, fun g _ => by simp, ?_, ?_, ?_⟩
    · have hlen := content_length hr.ok hr.inited
      rw [hq, List.length_cons] at hlen
      exact absurd ⟨hready, (empty_false_iff s _).mpr (by omega)⟩ hsend
    · simp [SameConfiguration]
    · simp [SameReceiver]
    · simp [SameTraces]

end Sys2Proof.Machine
end

section
/-!
PROOFS. The family of 60_exceptions.md. First the faults of a single operation (R144, R160), then the receive handler turn
by turn (R150 to R156), and last that the agents raise no fault (R148): for each mover, that its action answers a next state
and that this state is one of the agents' invariant.
-/

namespace Sys2Proof.Machine

/-! ## The faults of a single operation (R144, R160) -/

/-- OWNERSHIP is the second check of every operation but INIT (R161; its place is log 6). -/
theorem guarded_ownership {α : Type} {op : FifoOp} {f : Inst} {s : State} (hi : (s.fifo f).inited = true)
    (ho : ¬ s.mayIssue op f = true) (r : Except Fault α) : guarded op f s r = .error (.ownership f op s.ctx) := by
  rw [guarded, if_neg (by simp [hi]), if_pos (Bool.eq_false_iff.mpr ho)]

/-- Settles O16: each operation stops at its check of the ownership table, whatever it would do after it. -/
theorem foreignContextFaults : Obligations.ForeignContextFaults := by
  refine fun f b s hi => ⟨fun hp => ?_, fun hc => ⟨?_, ?_, ?_⟩⟩
  · rw [exec_insert, opInsert, guarded_ownership hi ((mayIssue_insert_iff f s).not.mpr hp), settle_error]
  · rw [exec_remove, opRemove, guarded_ownership hi ((mayIssue_remove_iff f s).not.mpr hc), settle_error]
  · rw [exec_peek, opPeek, guarded_ownership hi ((mayIssue_peek_iff f s).not.mpr hc), settle_error]
  · rw [exec_flush, opFlush, guarded_ownership hi ((mayIssue_flush_iff f s).not.mpr hc), settle_error]

/-- An empty instance has no first byte (R84, R85). -/
theorem headByte_empty (op : FifoOp) {f : Inst} {s : State} (hc : (s.fifo f).count.toNat = 0) :
    headByte op f s = .error (.underflow f op) := by
  rw [headByte, if_pos ((empty_iff s f).mpr hc)]

/-- Settles O15: both operations pass their checks and ask for the first byte, which is not there. -/
theorem emptyInstanceUnderflows : Obligations.EmptyInstanceUnderflows := by
  intro f s hi ho hc
  have hremove : opRemove f s = .error (.underflow f .remove) := by
    rw [opRemove, guarded_pass .remove f s _ hi ((mayIssue_remove_iff f s).mpr ho), headByte_empty .remove hc]
  have hpeek : opPeek f s = .error (.underflow f .peek) := by
    rw [opPeek, guarded_pass .peek f s _ hi ((mayIssue_peek_iff f s).mpr ho), headByte_empty .peek hc]
  exact ⟨by rw [exec_remove, hremove, settle_error], by rw [exec_peek, hpeek, settle_error]⟩

/-! ## The turns of the handler (R151, R155, R156) -/

/-- The handler runs, has read DATA and stands at a position. -/
def State.handlerAt (s : State) (p : IsrPos) : State := { s with ctx := .isr, isr := p, rxc := false, rxerr := false }

@[simp] theorem handlerAt_fifo (s : State) (p : IsrPos) (g : Inst) : (s.handlerAt p).fifo g = s.fifo g := by
  cases g <;> rfl

section
variable {s : State}

theorem isrAct_take (hi : s.isr = .idle) (hc : s.ctx = .main) (hq : s.irqRequested = true) :
    isrAct s = .next (takeInterrupt s) := by
  simp only [isrAct, hi, hc, hq, and_self, if_true]

theorem isrAct_observe {b : Byte} (hi : s.isr = .gotByte b) (hf : (s.fifo Config.u2h).inited = true) :
    isrAct s = .next { s with isr := .gotFull b (s.full Config.u2h) } := by
  simp only [isrAct, hi, opIsFull_pass _ s hf, settle_ok]

theorem isrAct_drop {b : Byte} (hi : s.isr = .gotFull b true) : isrAct s = .next (returnFromInterrupt s) := by
  simp only [isrAct, hi, if_true]

theorem isrAct_store {b : Byte} {u : State} (hi : s.isr = .gotFull b false) (hu : opInsert Config.u2h b s = .ok u) :
    isrAct s = .next (returnFromInterrupt u) := by
  simp only [isrAct, hi, hu, settle_ok, Bool.false_eq_true, if_false]

/-- The handler's last turn, with `U2H` as it was observed: the byte is at its end, or dropped when it is full (R151). -/
theorem isrAct_last {b : Byte} (hi : s.isr = .gotFull b (s.full Config.u2h)) (hf : (s.fifo Config.u2h).inited = true)
    (hc : s.ctx = .isr) :
    isrAct s = .next (returnFromInterrupt (s.setFifo Config.u2h
      (if s.full Config.u2h = true then s.fifo Config.u2h else (s.fifo Config.u2h).pushed b))) := by
  split
  next hfull =>
    rw [setFifo_self]
    exact isrAct_drop (hi.trans (by rw [hfull]))
  next hroom =>
    have hissue := (mayIssue_insert_iff Config.u2h s).mpr (congrArg some hc.symm)
    exact isrAct_store (hi.trans (by rw [Bool.eq_false_iff.mpr hroom]))
      (opInsert_accept _ b s hf hissue (by rwa [full_iff] at hroom))

/-- With a byte received the entry reads that byte from DATA (R101, R151). -/
theorem takeInterrupt_received (h : s.rxc = true) : takeInterrupt s = s.handlerAt (.gotByte s.rxdata) := by
  rw [takeInterrupt, rxRead, rxValue_received (s := { s with ctx := .isr }) h]
  rfl

theorem irqRequested_iff : s.irqRequested = true ↔ s.rxcie = true ∧ s.rxc = true := by
  rw [State.irqRequested, Bool.and_eq_true]

end

/-- Settles O36: the handler's turn takes the interrupt, and the read of DATA gives the byte received. -/
theorem interruptEntryReadsData : Obligations.InterruptEntryReadsData := by
  intro s hm hi hc hie hrxc
  rw [step_of_agent hm, agentAct, isrAct_take hi hc (irqRequested_iff.mpr ⟨hie, hrxc⟩), takeInterrupt_received hrxc]
  rfl

/-- A turn of the handler, in a run. -/
theorem run_isr {s u : State} {d : Draws} {rest : List Input} {k : Nat} (hin : s.inputs = ⟨.agent .isr, d⟩ :: rest)
    (hu : isrAct s = .next u) : Host.Core.run Sys2Proof.core (k + 1) s = Host.Core.run Sys2Proof.core k u.advance :=
  run_turn hin hu

/-- Three turns of the handler in a run: the entry and the observation of `full`, then the turn `full` decides (R151). -/
theorem run_handler {s u : State} {d1 d2 d3 : Draws} {rest : List Input} (hi : s.isr = .idle) (hc : s.ctx = .main)
    (hq : s.irqRequested = true) (hf : (s.fifo Config.u2h).inited = true)
    (hin : s.inputs = turns .isr [d1, d2, d3] ++ rest)
    (hu : isrAct (s.handlerAt (.gotFull s.rxdata (s.full Config.u2h))).advance.advance = .next u) :
    Host.Core.run Sys2Proof.core 3 s = .next u.advance := by
  have htake := isrAct_take hi hc hq
  rw [takeInterrupt_received (irqRequested_iff.mp hq).2] at htake
  have hobserve := isrAct_observe (s := (s.handlerAt (.gotByte s.rxdata)).advance) (b := s.rxdata) rfl hf
  have hlast : s.inputs.tail.tail = ⟨.agent .isr, d3⟩ :: rest := by rw [hin]; rfl
  rw [run_isr hin htake, run_isr (congrArg List.tail hin) hobserve]
  exact run_isr (k := 0) hlast hu

/-- Settles O38: the run is the handler's three turns, of which only the last touches `U2H`. -/
theorem handlerStoresOrDropsTheByte : Obligations.HandlerStoresOrDropsTheByte := by
  intro s d1 d2 d3 rest hs hinit hc hie hrxc hin
  have hidle : s.isr = .idle := by
    by_contra hne
    simp [hs.handler.mpr hne] at hc
  have hlast := isrAct_last (s := (s.handlerAt (.gotFull s.rxdata (s.full Config.u2h))).advance.advance) rfl hinit rfl
  refine ⟨_, run_handler hidle hc (irqRequested_iff.mpr ⟨hie, hrxc⟩) hinit hin hlast, fun hroom => ?_, fun hfull => ?_,
    fun g hg => ?_, ?_⟩
  · have hne : (s.fifo Config.u2h).count.toNat ≠ Config.cap Config.u2h := (full_false_iff s _).mp hroom
    refine (content_congr ?_).trans (content_pushed s.rxdata (hs.fifos _) hinit hne)
    simp [hne]
  · simp [(full_iff s _).mp hfull]
  · simp [setFifo_fifo_other _ _ g _ hg]
  · simp [State.handlerAt, returnFromInterrupt, SameEngine, SameConfiguration, SameTraces]

/-! ## What the agents' invariant says of boot and of the handler -/

/-- Until boot is over the interrupt is masked, since no record was applied (R170, R171). -/
theorem State.AgentInv.masked {s : State} (h : s.AgentInv) (hb : s.booting = true) : s.rxcie = false := by
  obtain ⟨he, hle, -⟩ := h.bootQuiet hb
  obtain ⟨-, hs⟩ := idle_settled h.inv he
  rw [State.Settled, hle] at hs
  obtain ⟨-, hB, -⟩ := hs
  rw [State.rxcie, hB]
  rfl

/-- Where the interrupt is requested or the handler runs, boot is over and every instance is ready. -/
theorem State.AgentInv.booted {s : State} (h : s.AgentInv) (hx : s.irqRequested = true ∨ s.isr ≠ .idle) :
    s.booting = false ∧ ∀ f, s.Ready f := by
  have hb : s.booting ≠ true := fun hb => by
    obtain ⟨-, -, hc⟩ := h.bootQuiet hb
    rcases hx with hq | hne
    · simp [State.irqRequested, h.masked hb] at hq
    · simp [h.inv.handler.mpr hne] at hc
  obtain ⟨n, hn⟩ := Option.ne_none_iff_exists'.mp fun h0 => hb (Option.isNone_iff_eq_none.mpr h0)
  exact ⟨Bool.eq_false_iff.mpr hb, h.ready hn⟩

/-- The invariant speaks neither of the inputs still to come nor of the step's number. -/
theorem agentInv_environment {s : State} (h : s.AgentInv) (ins : List Input) (n : Nat) :
    ({ s with inputs := ins, tick := n } : State).AgentInv where
  inv := inv_of_sameControl h.inv (fun g => by cases g <;> rfl) ⟨rfl, rfl, rfl, rfl, rfl, rfl⟩
    ⟨rfl, ⟨rfl, rfl⟩, rfl, rfl⟩
  inits := h.inits
  bootQuiet := h.bootQuiet
  locals := h.locals
  handlerRoom := h.handlerRoom
  engineAt42 := h.engineAt42

/-- The action answers a next state, one of the agents' invariant. -/
def Answers (o : Out) : Prop := ∃ t, o = .next t ∧ t.AgentInv

/-! ## The actions beside MAIN keep what its locals observed (R56, R57, R99) -/

theorem inits_congr {s t : State} (h : s.InitsFollow) (hp : t.pos = s.pos)
    (hi : ∀ f, (t.fifo f).inited = (s.fifo f).inited) : t.InitsFollow := by
  have h0 : t.fifo0.inited = s.fifo0.inited := hi .f0
  have h1 : t.fifo1.inited = s.fifo1.inited := hi .f1
  have h2 : t.fifo2.inited = s.fifo2.inited := hi .f2
  rw [State.InitsFollow, hp, h0, h1, h2]
  exact h

theorem setFifo_inited (s : State) {f : Inst} {q : Fifo f} (hq : q.inited = (s.fifo f).inited) (g : Inst) :
    ((s.setFifo f q).fifo g).inited = (s.fifo g).inited :=
  setFifo_fifo_all s f q (fun g q => q.inited = (s.fifo g).inited) hq (fun _ _ => rfl) g

/-- What MAIN's locals observed in `s` still holds in `t`: `H2U` is as it was, `U2H` has the same bytes in front, and a
transmitter that was ready is ready. -/
structure StillHolds (s t : State) : Prop where
  pos : t.pos = s.pos
  h2u : t.fifo Config.h2u = s.fifo Config.h2u
  count : (s.fifo Config.u2h).count.toNat ≤ (t.fifo Config.u2h).count.toNat
  content : s.content Config.u2h <+: t.content Config.u2h
  ready : s.sendReady = true → t.sendReady = true

theorem stillHolds_of_sameFifos {s t : State} (hp : t.pos = s.pos) (hf : SameFifos s t)
    (hr : s.sendReady = true → t.sendReady = true) : StillHolds s t :=
  ⟨hp, hf _, by rw [hf], by rw [content_congr (hf _)], hr⟩

theorem StillHolds.head? {s t : State} {b : Byte} (h : StillHolds s t) (hb : (s.content Config.u2h).head? = some b) :
    (t.content Config.u2h).head? = some b := by
  obtain ⟨l, hl⟩ := h.content
  rw [← hl, List.head?_append, hb, Option.some_or]

theorem StillHolds.locals {s t : State} (h : StillHolds s t) : s.LocalsHold → t.LocalsHold := by
  rw [State.LocalsHold, State.LocalsHold, h.pos, h.h2u]
  cases s.pos with
  | s22 | s23 => exact fun hn => hn.trans h.count
  | s24 => exact fun ⟨h0, hn⟩ => ⟨h0, hn.trans h.count⟩
  | s25 | s26 => exact fun ⟨h0, hn, hb⟩ => ⟨h0, hn.trans h.count, h.head? hb⟩
  | s32 | s34 => exact fun hs hr => h.ready (hs hr)
  | s33 => exact fun hs hr => (hs hr).imp_left h.ready
  | _ => exact id

/-- The agents' invariant after an action of the handler or the wire, which leaves MAIN, the engine and `le` alone. -/
theorem agentInv_of_stillHolds {s t : State} (h : s.AgentInv) (hinv : t.Inv) (hs : StillHolds s t)
    (he : t.engine = s.engine) (hle : t.le = s.le) (hi : ∀ f, (t.fifo f).inited = (s.fifo f).inited)
    (hc : s.booting = true → t.ctx = .main)
    (hroom : ∀ b, t.isr = .gotFull b false → (t.fifo Config.u2h).count.toNat < Config.cap Config.u2h) : t.AgentInv where
  inv := hinv
  inits := inits_congr h.inits hs.pos hi
  bootQuiet := by
    rw [State.booting, hs.pos, he, hle]
    intro hb
    obtain ⟨hidle, hnone, -⟩ := h.bootQuiet hb
    exact ⟨hidle, hnone, hc hb⟩
  locals := hs.locals h.locals
  handlerRoom := hroom
  engineAt42 := by rw [he, hs.pos]; exact h.engineAt42

/-! ## The wire (R103 to R106) -/

theorem agentInv_of_wire {s t : State} (h : s.AgentInv) (hf : SameFifos s t)
    (hframe : SameConfiguration s t ∧ SameControl s t) (hr : s.sendReady = true → t.sendReady = true) : t.AgentInv := by
  obtain ⟨hconf, hctl⟩ := hframe
  have hinv := inv_of_sameControl h.inv hf hconf hctl
  obtain ⟨-, -, -, -, -, hle⟩ := hconf
  obtain ⟨hp, ⟨he, -⟩, hx, hi⟩ := hctl
  refine agentInv_of_stillHolds h hinv (stillHolds_of_sameFifos hp hf hr) he hle (fun f => by rw [hf]) ?_ ?_
  · intro hb
    obtain ⟨-, -, hc⟩ := h.bootQuiet hb
    rw [hx, hc]
  · rw [hi, hf]
    exact h.handlerRoom

theorem wireArrive_sendReady (b : Byte) (s : State) : (wireArrive b s).sendReady = s.sendReady := by
  unfold wireArrive
  split
  · rfl
  · split <;> rfl

/-- A ready transmitter has no byte to finish. -/
theorem wireFinish_ready {s : State} (h : s.sendReady = true) : wireFinish s = s :=
  wireFinish_idle ((sendReady_iff s).mp h).2

theorem wireArrive_agentInv {s : State} (h : s.AgentInv) (b : Byte) : (wireArrive b s).AgentInv :=
  agentInv_of_wire h (wireArrive_fifo b s) (wireArrive_frame b s) (by rw [wireArrive_sendReady]; exact id)

theorem wireFinish_agentInv {s : State} (h : s.AgentInv) : (wireFinish s).AgentInv :=
  agentInv_of_wire h (wireFinish_fifo s) (wireFinish_frame s) fun hr => by rwa [wireFinish_ready hr]

/-! ## The handler (R151) -/

/-- The agents' invariant after an action of the handler, which is not in boot. -/
theorem isrAct_answers_of {s t : State} (h : s.AgentInv) (ht : isrAct s = .next t) (hb : s.booting = false)
    (hs : StillHolds s t) (he : t.engine = s.engine) (hle : t.le = s.le)
    (hi : ∀ f, (t.fifo f).inited = (s.fifo f).inited)
    (hroom : ∀ b, t.isr = .gotFull b false → (t.fifo Config.u2h).count.toNat < Config.cap Config.u2h) :
    Answers (isrAct s) :=
  ⟨t, ht, agentInv_of_stillHolds h (updates_inv h.inv (isrAct_updates ht)) hs he hle hi (by simp [hb]) hroom⟩

theorem isrAct_answers {s : State} (h : s.AgentInv) : Answers (isrAct s) := by
  cases hi : s.isr with
  | idle =>
    by_cases hq : s.ctx = .main ∧ s.irqRequested = true
    · obtain ⟨hc, hq⟩ := hq
      obtain ⟨hb, -⟩ := h.booted (.inl hq)
      exact isrAct_answers_of h (isrAct_take hi hc hq) hb
        (stillHolds_of_sameFifos rfl (takeInterrupt_fifo s) id) rfl rfl (fun f => by rw [takeInterrupt_fifo]) nofun
    · exact ⟨s, by simp only [isrAct, hi, if_neg hq], h⟩
  | gotByte b =>
    obtain ⟨hb, hready⟩ := h.booted (.inr (by rw [hi]; nofun))
    obtain ⟨hok, hinit⟩ := hready Config.u2h
    have hsame : SameFifos s { s with isr := .gotFull b (s.full Config.u2h) } := fun g => by cases g <;> rfl
    refine isrAct_answers_of h (isrAct_observe hi hinit) hb (stillHolds_of_sameFifos rfl hsame id) rfl rfl
      (fun f => by rw [hsame]) fun _ hroom => ?_
    obtain ⟨-, hfull⟩ := IsrPos.gotFull.inj hroom
    exact Nat.lt_of_le_of_ne (hok.countLe hinit) ((full_false_iff s _).mp hfull)
  | gotFull b full =>
    have hne : s.isr ≠ .idle := by rw [hi]; nofun
    obtain ⟨hb, hready⟩ := h.booted (.inr hne)
    obtain ⟨hok, hinit⟩ := hready Config.u2h
    cases full with
    | true =>
      exact isrAct_answers_of h (isrAct_drop hi) hb (stillHolds_of_sameFifos rfl (returnFromInterrupt_fifo s) id)
        rfl rfl (fun f => by rw [returnFromInterrupt_fifo]) nofun
    | false =>
      have hcap : (s.fifo Config.u2h).count.toNat ≠ Config.cap Config.u2h := (h.handlerRoom b hi).ne
      have hissue := (mayIssue_insert_iff Config.u2h s).mpr (congrArg some (h.inv.handler.mpr hne).symm)
      refine isrAct_answers_of h (isrAct_store hi (opInsert_accept _ b s hinit hissue hcap)) hb
        ⟨rfl, rfl, ?_, ?_, id⟩ rfl rfl (fun f => ?_) nofun
      · have := pushed_count_toNat b hok hinit hcap
        rw [returnFromInterrupt_fifo, setFifo_fifo_same]
        omega
      · rw [content_congr (returnFromInterrupt_fifo _ _), content_pushed b hok hinit hcap]
        exact List.prefix_append _ _
      · rw [returnFromInterrupt_fifo, setFifo_inited s (pushed_inited _ b)]

/-! ## MAIN: what its actions leave -/

/-- The agents' invariant after an action of MAIN, when the handler is idle and promises nothing. -/
theorem agentInv_of_main {t : State} (hinv : t.Inv) (hc : t.ctx = .main) (hinits : t.InitsFollow)
    (hlocals : t.LocalsHold) (hboot : t.booting = true → t.engine = none ∧ t.le = none)
    (he : t.engine.isSome = true → t.pos = .s42) : t.AgentInv where
  inv := hinv
  inits := hinits
  bootQuiet := fun hb => ⟨(hboot hb).1, (hboot hb).2, hc⟩
  locals := hlocals
  handlerRoom := fun b hb => by
    have hx := hinv.handler
    simp [hc, hb] at hx
  engineAt42 := he

/-- Past boot every instance is initialised (R169). -/
theorem inits_of_not_booting {s : State} (hb : s.booting = false) (hi : ∀ f, (s.fifo f).inited = true) :
    s.InitsFollow := by
  have hall : s.fifo0.inited = true ∧ s.fifo1.inited = true ∧ s.fifo2.inited = true := ⟨hi .f0, hi .f1, hi .f2⟩
  rw [State.booting] at hb
  unfold State.InitsFollow
  cases hp : s.pos with
  | b1 | b2 | b3 | b4 | b5 => rw [hp] at hb; cases hb
  | _ => exact hall

/-- Which instances are initialised, at a named position. -/
theorem inits_at {s : State} {p : Pos} (h : s.InitsFollow) (hp : s.pos = p) : (s.setPos p).InitsFollow := by
  subst hp
  exact h

/-- What the locals promise, at a named position. -/
theorem locals_at {s : State} {p : Pos} (h : s.LocalsHold) (hp : s.pos = p) : (s.setPos p).LocalsHold := by
  subst hp
  exact h

/-- At the head of the batch the bound is at most the count. -/
theorem locals_batchPos {s : State} {k : Count Config.u2h} (hk : k.toNat ≤ (s.fifo Config.u2h).count.toNat) :
    (s.setPos (batchPos k)).LocalsHold := by
  unfold batchPos
  split
  next => trivial
  next h0 => exact ⟨Nat.pos_of_ne_zero h0, hk⟩

theorem stepNo_batchPos (k : Count Config.u2h) : (batchPos k).stepNo.isNone = false := by
  unfold batchPos
  split <;> rfl

/-! ## MAIN in boot (R169) -/

/-- An instance after an INIT (R82). -/
def Fifo.initialised {f : Inst} (q : Fifo f) : Fifo f := { q with count := 0, wr := 0, rd := 0, inited := true }

section
variable {s : State} (h : s.AgentInv) (hc : s.ctx = .main)
include h hc

/-- A line of boot, which leaves context, engine and `le` alone. -/
theorem boot_answers {u : State} {q : Pos} (hb : s.booting = true) (hu : bootAct s = .next (u.setPos q))
    (hinits : (u.setPos q).InitsFollow) (hlocals : (u.setPos q).LocalsHold)
    (hk : u.ctx = s.ctx ∧ u.engine = s.engine ∧ u.le = s.le := by exact ⟨rfl, rfl, rfl⟩) : Answers (mainAct s) := by
  obtain ⟨hx, he, hle⟩ := hk
  obtain ⟨hidle, hnone, -⟩ := h.bootQuiet hb
  have hcode : s.pos.code = none := by rw [Pos.code, Option.isNone_iff_eq_none.mp hb]; rfl
  have hmain := (mainAct_boot hc hidle hcode).trans hu
  refine ⟨_, hmain, agentInv_of_main (updates_inv h.inv (mainAct_updates hmain)) (hx.trans hc) hinits hlocals
    (fun _ => ⟨he.trans hidle, hle.trans hnone⟩) fun hsome => ?_⟩
  rw [setPos_engine, he, hidle] at hsome
  cases hsome

/-- INIT passes its checks in boot (R160; log 7). -/
theorem opInit_boot {f : Inst} (hb : s.booting = true) (hf : (s.fifo f).inited = false) :
    opInit f s = .ok (s.setFifo f (s.fifo f).initialised) :=
  opInit_pass f s hf ((mayIssue_init_iff f s).mpr ⟨⟨hc, hb⟩, h.masked hb⟩)

/-- A line of boot that initialises an instance. -/
theorem boot_init_answers {f : Inst} {q : Pos} (hb : s.booting = true) (hf : (s.fifo f).inited = false)
    (hu : bootAct s = settle (opInit f s) fun t => .next (t.setPos q))
    (hinits : ((s.setFifo f (s.fifo f).initialised).setPos q).InitsFollow)
    (hlocals : ((s.setFifo f (s.fifo f).initialised).setPos q).LocalsHold) : Answers (mainAct s) :=
  boot_answers h hc hb (by rw [hu, opInit_boot h hc hb hf, settle_ok]) hinits hlocals
    ⟨setFifo_ctx s f _, setFifo_engine s f _, setFifo_le s f _⟩

theorem mainAct_answers_in_boot (hb : s.booting = true) : Answers (mainAct s) := by
  cases hp : s.pos with
  | b1 =>
    have hinits : (s.setPos .b1).InitsFollow := inits_at h.inits hp
    exact boot_answers h hc hb (u := s) (q := .b2) (by simp only [bootAct, hp]) hinits trivial
  | b2 =>
    obtain ⟨h0, h1, h2⟩ : (s.setPos .b2).InitsFollow := inits_at h.inits hp
    exact boot_init_answers h hc hb h0 (q := .b3) (by simp only [bootAct, hp]) ⟨rfl, h1, h2⟩ trivial
  | b3 =>
    obtain ⟨h0, h1, h2⟩ : (s.setPos .b3).InitsFollow := inits_at h.inits hp
    exact boot_init_answers h hc hb h1 (q := .b4) (by simp only [bootAct, hp]) ⟨h0, rfl, h2⟩ trivial
  | b4 =>
    obtain ⟨h0, h1, h2⟩ : (s.setPos .b4).InitsFollow := inits_at h.inits hp
    exact boot_init_answers h hc hb h2 (q := .b5) (by simp only [bootAct, hp]) ⟨h0, h1, rfl⟩ trivial
  | b5 =>
    have hinits : (s.setPos .b5).InitsFollow := inits_at h.inits hp
    exact boot_answers h hc hb (u := s) (q := .s11) (by simp only [bootAct, hp]) hinits trivial
  | _ => rw [State.booting, hp] at hb; cases hb

/-! ## MAIN in steps 1 to 3 (R130 to R132) -/

/-- A line of steps 1 to 3, which leaves context and engine alone and initialises nothing. -/
theorem line_answers {u : State} {i : Instr} {p q : Pos} (hp : s.pos = p) (hu : exec i s = .next (u.setPos q))
    (hlocals : (u.setPos q).LocalsHold) (hin : ∀ f, (u.fifo f).inited = (s.fifo f).inited := by exact fun _ => rfl)
    (hk : u.ctx = s.ctx ∧ u.engine = s.engine := by exact ⟨rfl, rfl⟩)
    (hq : q.stepNo.isNone = false := by rfl)
    (hi : p.code.map decodeS = some i := by rfl) (h42 : p ≠ .s42 := by nofun) : Answers (mainAct s) := by
  obtain ⟨hx, he⟩ := hk
  obtain ⟨c, hcode, rfl⟩ := Option.map_eq_some_iff.mp hi
  obtain ⟨n, hn, -⟩ := Option.map_eq_some_iff.mp hcode
  rw [← hp] at hn hcode h42
  have hidle : s.engine = none := Option.not_isSome_iff_eq_none.mp fun hsome => h42 (h.engineAt42 hsome)
  have hmain := (mainAct_code hc hidle hcode).trans hu
  refine ⟨_, hmain, agentInv_of_main (updates_inv h.inv (mainAct_updates hmain)) (hx.trans hc)
    (inits_of_not_booting hq fun f => ?_) hlocals (fun hb => ?_) fun hsome => ?_⟩
  · rw [setPos_fifo, hin, (h.ready hn f).inited]
  · exact absurd (hq.symm.trans hb) nofun
  · rw [setPos_engine, he, hidle] at hsome
    cases hsome

theorem line11_answers (hp : s.pos = .s11) : Answers (mainAct s) := by
  obtain ⟨hok, hinit⟩ := h.ready (n := 1) (by rw [hp]; rfl) Config.h2u
  exact line_answers h hc hp (exec_line11 hinit hp) fun hroom =>
    Nat.lt_of_le_of_ne (hok.countLe hinit) ((full_false_iff s _).mp hroom)

theorem line12_answers {tFull : Bool} (hp : s.pos = .s12 tFull) : Answers (mainAct s) := by
  by_cases hnone : tFull = true ∨ s.draws.poll = none
  · exact line_answers h hc hp (exec_line12_none hp hnone) nofun
  · obtain ⟨hroom, hpoll⟩ := not_or.mp hnone
    obtain rfl := Bool.eq_false_iff.mpr hroom
    obtain ⟨b, hb⟩ := Option.ne_none_iff_exists'.mp hpoll
    exact line_answers h hc hp (exec_line12_some hp hb) fun _ => locals_at h.locals hp rfl

theorem line13_answers {tByte : Option Byte} (hp : s.pos = .s13 tByte) : Answers (mainAct s) := by
  cases tByte with
  | none => exact line_answers h hc hp (exec_line13_none hp) trivial
  | some b =>
    have hroom : (s.fifo Config.h2u).count.toNat < Config.cap Config.h2u := locals_at h.locals hp rfl
    have hinit := (h.ready (n := 1) (by rw [hp]; rfl) Config.h2u).inited
    have hissue := (mayIssue_insert_iff Config.h2u s).mpr (congrArg some hc.symm)
    exact line_answers h hc hp (exec_line13_some hp (opInsert_accept _ b s hinit hissue hroom.ne)) trivial
      (setFifo_inited s rfl)

theorem line21_answers (hp : s.pos = .s21) : Answers (mainAct s) :=
  line_answers h hc hp (exec_line21 (h.ready (n := 2) (by rw [hp]; rfl) Config.u2h).inited hp) (Nat.le_refl _)

theorem line22_answers {n : Count Config.u2h} (hp : s.pos = .s22 n) : Answers (mainAct s) := by
  have hn : n.toNat ≤ (s.fifo Config.u2h).count.toNat := locals_at h.locals hp
  exact line_answers h hc hp (exec_line22 hp) hn

theorem line23_answers {n : Count Config.u2h} {tReady : Bool} (hp : s.pos = .s23 n tReady) : Answers (mainAct s) := by
  have hn : n.toNat ≤ (s.fifo Config.u2h).count.toNat := locals_at h.locals hp
  refine line_answers h hc hp (exec_line23 hp) (locals_batchPos ?_) (hq := stepNo_batchPos _)
  split
  · rw [batchBound_toNat]
    exact (Nat.min_le_left _ _).trans hn
  · exact Nat.zero_le _

theorem line24_answers {k : Count Config.u2h} (hp : s.pos = .s24 k) : Answers (mainAct s) := by
  obtain ⟨h0, hn⟩ : 0 < k.toNat ∧ k.toNat ≤ (s.fifo Config.u2h).count.toNat := locals_at h.locals hp
  obtain ⟨v, hv, hhead⟩ := exists_head (h.ready (n := 2) (by rw [hp]; rfl) Config.u2h) (by omega)
  obtain ⟨hpeek, -⟩ := hhead s rfl (congrArg some hc.symm)
  exact line_answers h hc hp (exec_line24 hp hpeek) ⟨h0, hn, congrArg List.head? hv⟩

theorem line25_answers {k : Count Config.u2h} {b : Byte} (hp : s.pos = .s25 k b) : Answers (mainAct s) := by
  have hfirst : 0 < k.toNat ∧ k.toNat ≤ (s.fifo Config.u2h).count.toNat ∧ (s.content Config.u2h).head? = some b :=
    locals_at h.locals hp
  by_cases hd : s.draws.sent = .ok
  · exact line_answers h hc hp (exec_line25_ok hp hd) hfirst
  · exact line_answers h hc hp (exec_line25_unsent hp hd) hfirst

theorem line26_answers {k : Count Config.u2h} {b : Byte} {r : SendResult} (hp : s.pos = .s26 k b r) :
    Answers (mainAct s) := by
  by_cases hr : r = .ok
  · subst hr
    obtain ⟨h0, hn, -⟩ : 0 < k.toNat ∧ k.toNat ≤ (s.fifo Config.u2h).count.toNat ∧ _ := locals_at h.locals hp
    have hne : (s.fifo Config.u2h).count.toNat ≠ 0 := by omega
    obtain ⟨v, -, hhead⟩ := exists_head (h.ready (n := 2) (by rw [hp]; rfl) Config.u2h) hne
    obtain ⟨-, hremove⟩ := hhead s rfl (congrArg some hc.symm)
    refine line_answers h hc hp (exec_line26_ok hp hremove) (locals_batchPos ?_) (setFifo_inited s rfl)
      (hq := stepNo_batchPos _)
    rw [setFifo_fifo_same, popped_count, count_pred_toNat _ hne, count_pred_toNat _ h0.ne']
    omega
  · exact line_answers h hc hp (exec_line26_abort hp hr) trivial

theorem line31_answers (hp : s.pos = .s31) : Answers (mainAct s) :=
  line_answers h hc hp (exec_line31 hp) id

theorem line32_answers {tReady : Bool} (hp : s.pos = .s32 tReady) : Answers (mainAct s) := by
  have hready : tReady = true → s.sendReady = true := locals_at h.locals hp
  have hinit := (h.ready (n := 3) (by rw [hp]; rfl) Config.h2u).inited
  refine line_answers h hc hp (exec_line32 hinit hp) fun hr => ⟨hready hr, fun hempty => ?_⟩
  obtain ⟨-, hempty⟩ := Bool.or_eq_false_iff.mp hempty
  exact Nat.pos_of_ne_zero ((empty_false_iff s _).mp hempty)

theorem line33_answers {tReady tEmpty : Bool} (hp : s.pos = .s33 tReady tEmpty) : Answers (mainAct s) := by
  by_cases hsend : tReady = true ∧ tEmpty = false
  · obtain ⟨rfl, rfl⟩ := hsend
    obtain ⟨hready, hpos⟩ : s.sendReady = true ∧ (false = false → 0 < (s.fifo Config.h2u).count.toNat) :=
      locals_at h.locals hp rfl
    obtain ⟨v, -, hhead⟩ := exists_head (h.ready (n := 3) (by rw [hp]; rfl) Config.h2u) (hpos rfl).ne'
    obtain ⟨-, hremove⟩ := hhead s rfl (congrArg some hc.symm)
    exact line_answers h hc hp (exec_line33_some hp hremove) (fun _ => hready) (setFifo_inited s rfl)
  · exact line_answers h hc hp (exec_line33_none hp hsend) nofun

theorem line34_answers {tByte : Option Byte} (hp : s.pos = .s34 tByte) : Answers (mainAct s) := by
  cases tByte with
  | none => exact line_answers h hc hp (exec_line34_none hp) trivial
  | some b =>
    have hready : s.sendReady = true := locals_at h.locals hp rfl
    exact line_answers h hc hp (exec_line34_some hp hready) trivial fun f => by rw [transmit_fifo]

end

/-! ## MAIN in step 4 (R133) -/

/-- MAIN stands at 4.2, or the step is over: it is back at 1.1 and the engine is idle (R133, R134). -/
def State.InService (s : State) : Prop := s.pos = .s42 ∨ s.pos = .s11 ∧ s.engine = none

theorem startNext_inService (rs : List LineReq) {s : State} (hp : s.pos = .s42) (he : s.engine = none) :
    (startNext rs s).InService ∧ (startNext rs s).ctx = s.ctx := by
  obtain ⟨pre, r, rest, -, -, -, heq⟩ | ⟨-, heq⟩ := startNext_cases rs s <;> rw [heq]
  · exact ⟨.inl hp, rfl⟩
  · exact ⟨.inr ⟨if_pos hp, he⟩, rfl⟩

theorem phaseAct_inService (p : Phase) (r : LineReq) {s : State} (hp : s.pos = .s42) :
    (phaseAct p r s).InService ∧ (phaseAct p r s).ctx = s.ctx := by
  cases p with
  | p1 | p3 | p4 | p5 => exact ⟨.inl hp, rfl⟩
  | p2 =>
    obtain ⟨log, -, heq⟩ := phaseAct_p2 r s
    rw [heq]
    exact ⟨.inl hp, rfl⟩
  | p6 => exact startNext_inService s.evs (s := { s with txhold := false, le := some r, engine := none }) hp rfl

section
variable {s : State} (h : s.AgentInv) (hc : s.ctx = .main)
include h hc

/-- An action of step 4 touches no instance, and where it leaves MAIN no local promises anything. -/
theorem service_answers {t : State} (hp : s.pos = .s41 ∨ s.pos = .s42) (ht : mainAct s = .next t)
    (hf : SameFifos s t) (hserv : t.InService ∧ t.ctx = s.ctx) : Answers (mainAct s) := by
  obtain ⟨hserv, hx⟩ := hserv
  have hready := h.ready (n := 4) (by rcases hp with hp | hp <;> rw [hp] <;> rfl)
  have hplace : t.booting = false ∧ t.LocalsHold ∧ (t.engine.isSome = true → t.pos = .s42) := by
    rw [State.booting, State.LocalsHold]
    rcases hserv with hp | ⟨hp, he⟩
    · rw [hp]
      exact ⟨rfl, trivial, fun _ => rfl⟩
    · rw [hp, he]
      exact ⟨rfl, trivial, nofun⟩
  obtain ⟨hb, hlocals, he⟩ := hplace
  exact ⟨t, ht, agentInv_of_main (updates_inv h.inv (mainAct_updates ht)) (hx.trans hc)
    (inits_of_not_booting hb fun f => by rw [hf, (hready f).inited]) hlocals (by simp [hb]) he⟩

theorem line41_answers (hp : s.pos = .s41) : Answers (mainAct s) := by
  have hidle : s.engine = none :=
    Option.not_isSome_iff_eq_none.mp fun hsome => by cases hp.symm.trans (h.engineAt42 hsome)
  have hmain := (mainAct_code (c := 3) hc hidle (by rw [hp]; rfl)).trans (exec_line41 hp hidle)
  exact service_answers h hc (.inl hp) hmain (fun f => by rw [startNext_fifo, setPos_fifo])
    (startNext_inService s.draws.events (s := s.setPos .s42) rfl hidle)

theorem line42_answers (hp : s.pos = .s42) : Answers (mainAct s) := by
  obtain ⟨⟨p, r⟩, he⟩ := Option.isSome_iff_exists.mp (h.inv.at42 hp)
  exact service_answers h hc (.inr hp) (mainAct_engine hc he) (phaseAct_fifo p r s) (phaseAct_inService p r hp)

end

/-! ## Every mover (R148) -/

theorem mainAct_answers {s : State} (h : s.AgentInv) : Answers (mainAct s) := by
  cases hc : s.ctx with
  | isr => exact ⟨s, mainAct_isr hc, h⟩
  | main =>
    cases hp : s.pos with
    | b1 | b2 | b3 | b4 | b5 => exact mainAct_answers_in_boot h hc (by rw [State.booting, hp]; rfl)
    | s11 => exact line11_answers h hc hp
    | s12 => exact line12_answers h hc hp
    | s13 => exact line13_answers h hc hp
    | s21 => exact line21_answers h hc hp
    | s22 => exact line22_answers h hc hp
    | s23 => exact line23_answers h hc hp
    | s24 => exact line24_answers h hc hp
    | s25 => exact line25_answers h hc hp
    | s26 => exact line26_answers h hc hp
    | s31 => exact line31_answers h hc hp
    | s32 => exact line32_answers h hc hp
    | s33 => exact line33_answers h hc hp
    | s34 => exact line34_answers h hc hp
    | s41 => exact line41_answers h hc hp
    | s42 => exact line42_answers h hc hp

theorem moverAct_answers {s : State} {m : Mover} (h : s.AgentInv) (hm : ∀ c, m ≠ .command c) :
    Answers (moverAct m s) := by
  cases m with
  | command c => exact absurd rfl (hm c)
  | reset => exact ⟨_, rfl, agentInv_environment resetMeetsBothInvariants.2 s.inputs s.tick⟩
  | agent a =>
    cases a with
    | main => exact mainAct_answers h
    | isr => exact isrAct_answers h
    | wireRx => exact ⟨_, rfl, wireArrive_agentInv h _⟩
    | wireTx => exact ⟨_, rfl, wireFinish_agentInv h⟩

/-- Settles O49: the mover's action answers, and the end of the step changes nothing the invariant speaks of. -/
theorem agentsRaiseNoFault : Obligations.AgentsRaiseNoFault := by
  intro s h hm
  obtain ⟨t, ht, hinv⟩ := moverAct_answers h hm
  exact ⟨t.advance, by rw [step, ht]; rfl, agentInv_environment hinv _ _⟩

end Sys2Proof.Machine
end

section
/-!
PROOFS. The family of 70_reset_and_hazards.md: the state after reset (R167), the reset event (R166, R168), and boot from
reset to step 1 (R169), five turns of MAIN of which the middle three initialise an instance each.
-/

namespace Sys2Proof.Machine

/-! ## Reset (R166 to R168) -/

theorem reset_fifo (f : Inst) : State.reset.fifo f = Fifo.reset f := by cases f <;> rfl

/-- Settles O1: every instance is a reset one, and the other elements are fixed values. -/
theorem resetLeavesTheUartDisabledAndNothingInitialised :
    Obligations.ResetLeavesTheUartDisabledAndNothingInitialised := by
  refine ⟨fun f => ?_, rfl, rfl, rfl, rfl, rfl, rfl, rfl, rfl, rfl, rfl, rfl, rfl, rfl, rfl, rfl, rfl, rfl⟩
  rw [reset_fifo]
  exact ⟨rfl, fun _ => rfl⟩

theorem step_of_reset {s : State} (h : s.mover = .reset) : step s = .next (resetEvent s).advance := by
  rw [step, h, moverAct, advanced]

/-- Settles O2: the step is the reset event, after which the step's input is used up. -/
theorem resetEventRestoresEveryElement : Obligations.ResetEventRestoresEveryElement :=
  fun _ hm => step_of_reset hm

/-! ## Boot (R169) -/

theorem rxcie_of_ctrlB_zero {s : State} (h : s.ctrlB = 0) : s.rxcie = false := by
  rw [State.rxcie, h]
  rfl

/-- A line of boot that initialises an instance, while the UART is disabled and so the interrupt masked (R160; log 7). -/
theorem bootAct_init {s : State} {f : Inst} {q : Pos} (hu : bootAct s = settle (opInit f s) fun t => .next (t.setPos q))
    (hc : s.ctx = .main) (hb : s.booting = true) (hB : s.ctrlB = 0) (hf : (s.fifo f).inited = false) :
    bootAct s = .next ((s.setFifo f (s.fifo f).initialised).setPos q) := by
  rw [hu, opInit_pass f s hf ((mayIssue_init_iff f s).mpr ⟨⟨hc, hb⟩, rxcie_of_ctrlB_zero hB⟩), settle_ok, Fifo.initialised]

/-- A turn of MAIN in boot whose line leaves context, engine and inputs alone. -/
theorem State.MainNext.bootLine {s u : State} {d : Draws} {ds : List Draws} {rest : List Input}
    (h : s.MainNext (d :: ds) rest) (hp : s.pos.code = none) (hu : bootAct s = .next u)
    (hk : u.ctx = s.ctx ∧ u.engine = s.engine ∧ u.inputs = s.inputs := by exact ⟨rfl, rfl, rfl⟩) :
    u.advance.MainNext ds rest ∧
      ∀ k, Host.Core.run Sys2Proof.core (k + 1) s = Host.Core.run Sys2Proof.core k u.advance := by
  obtain ⟨hctx, hidle, hinputs⟩ := hk
  refine ⟨⟨hctx.trans h.ctx, hidle.trans h.idle, ?_⟩, fun k => run_turn h.inputs ?_⟩
  · exact congrArg List.tail (hinputs.trans h.inputs)
  · exact (mainAct_boot h.ctx h.idle hp).trans hu

/-- Settles O3: the five lines of boot one after the other, each completing at the state the one before it left. -/
theorem bootInitialisesAndReachesStepOne : Obligations.BootInitialisesAndReachesStepOne := by
  intro ds rest hl
  match ds, hl with
  | [d1, d2, d3, d4, d5], _ =>
    have h0 : ({ State.reset with inputs := turns .main [d1, d2, d3, d4, d5] ++ rest } : State).MainNext
        [d1, d2, d3, d4, d5] rest := ⟨rfl, rfl, rfl⟩
    obtain ⟨h1, r1⟩ := h0.bootLine rfl rfl
    obtain ⟨h2, r2⟩ := h1.bootLine rfl (bootAct_init (f := .f0) (q := .b3) rfl h1.ctx rfl rfl rfl)
    obtain ⟨h3, r3⟩ := h2.bootLine rfl (bootAct_init (f := .f1) (q := .b4) rfl h2.ctx rfl rfl rfl)
    obtain ⟨h4, r4⟩ := h3.bootLine rfl (bootAct_init (f := .f2) (q := .b5) rfl h3.ctx rfl rfl rfl)
    obtain ⟨h5, r5⟩ := h4.bootLine rfl rfl
    refine ⟨_, (r1 4).trans ((r2 3).trans ((r3 2).trans ((r4 1).trans (r5 0)))), fun f => ?_, fun f _ => ?_, rfl,
      ⟨⟨rfl, rfl, rfl, rfl, rfl, rfl⟩, ⟨rfl, rfl, rfl⟩, rfl⟩, ⟨rfl, rfl⟩, ⟨rfl, rfl⟩, ⟨rfl, rfl, rfl, rfl⟩, h5.inputs⟩
    · cases f <;> exact ⟨rfl, rfl, rfl, rfl⟩
    · cases f <;> rfl

end Sys2Proof.Machine
end
